-- ==== Sys2Proof/Word.lean ====
section
/-! DEFINITION. The two word types of the core: bytes and 16-bit bus addresses (00_scope.md R6, R9). -/

namespace Sys2Proof

/-- An 8-bit value: a register other than `pc`, or one byte of the bus (R6). -/
abbrev Byte := BitVec 8

/-- A 16-bit value: `pc`, or a bus address (R6, R24, R59). `+` and `-` on it wrap mod 2^16 (R24, R74). -/
abbrev Addr := BitVec 16

end Sys2Proof
end

