-- ==== Sys2Proof/Config.lean ====
section
/-! DEFINITION. What is fixed for one machine: the named parameters of 00_scope.md R7, and the free functions that stand
for the part of `BUS` the spec leaves open (20_memory.md R50, R66; 92_eei_decisions.md D14). -/

namespace Sys2Proof

/-- `ABS_INDEXED` (R7, R94): how many address bytes Absolute,X and Absolute,Y take. -/
inductive AbsIndexed where
  | twoByte        -- `two_byte`, the default
  | sourceOneByte  -- `source_one_byte`, as the repository implements it
deriving DecidableEq, Repr

/-- `INDIRECT_COMBINE` (R7, R95, R96): how the two zero-page pointer bytes make an address. -/
inductive IndirectCombine where
  | littleEndian  -- `little_endian`, the default
  | sourceSum     -- `source_sum`, as the repository implements it
deriving DecidableEq, Repr

/-- The defaulted parameters of R7. They are data, so that every statement can hold for every choice of them. -/
structure Config where
  absIndexed : AbsIndexed
  indirectCombine : IndirectCombine
  stackPage : Byte
deriving DecidableEq, Repr

/-- The spec's default configuration (R8). -/
def Config.default : Config :=
  { absIndexed := .twoByte, indirectCombine := .littleEndian, stackPage := 0x01 }

/-- The direction of a bus access, as BusError reports it (60_exceptions.md R230, D15). -/
inductive Dir where
  | read
  | write
deriving DecidableEq, Repr

/-- One bus access that succeeded, with the byte it moved (R51, R53). -/
inductive BusEvent where
  | read (addr : Addr) (got : Byte)
  | write (addr : Addr) (put : Byte)
deriving DecidableEq, Repr

/-- FREE (D14, U1, U2; log 2): what a device address answers to a read, given every access the bus has completed so far,
newest first; `none` is BusError. No body: nothing is known of it. -/
opaque Config.deviceRead : List BusEvent → Addr → Option Byte

/-- FREE (D14, U1, U2; log 2): whether a device address accepts a write, given every access the bus has completed so far,
newest first; `false` is BusError. No body: nothing is known of it. -/
opaque Config.deviceWrite : List BusEvent → Addr → Byte → Bool

end Sys2Proof
end

