-- ==== Sys2Proof/Syntax/Operand.lean ====
section
/-! DEFINITION. The parts an instruction is made of: the 56 mnemonics (30_encoding.md R101), the thirteen addressing modes
(R85), and a mode together with the stream bytes it consumed (R84). -/

namespace Sys2Proof

/-- The 56 mnemonics of R101. -/
inductive Mnemonic where
  | ADC | AND | ASL | BCC | BCS | BEQ | BIT | BMI | BNE | BPL | BRK | BVC | BVS | CLC
  | CLD | CLI | CLV | CMP | CPX | CPY | DEC | DEX | DEY | EOR | INC | INX | INY | JMP
  | JSR | LDA | LDX | LDY | LSR | NOP | ORA | PHA | PHP | PLA | PLP | ROL | ROR | RTI
  | RTS | SBC | SEC | SED | SEI | STA | STX | STY | TAX | TAY | TSX | TXA | TXS | TYA
deriving DecidableEq, Repr

/-- The thirteen addressing modes of R85. -/
inductive Mode where
  | imp   -- Implied, R87
  | acc   -- Accumulator, R88
  | imm   -- Immediate, R89
  | abs   -- Absolute, R90
  | zp    -- Zero-page, R91
  | rel   -- Relative, R92
  | zpX   -- Zero-page,X, R93
  | zpY   -- Zero-page,Y, R93
  | absX  -- Absolute,X, R94
  | absY  -- Absolute,Y, R94
  | indX  -- Indirect,X, R95
  | indY  -- Indirect,Y, R96
  | ind   -- Indirect (JMP only), R97
deriving DecidableEq, Repr

/-- The operands that name a bus address, each with the stream bytes of R84. A 16-bit field of `absX` and `absY` is the
address field `addr16` under `two_byte`; under `source_one_byte` it is the one address byte, zero-extended (log 9). -/
inductive MemOperand where
  | abs (addr : Addr)
  | zp (addr : Byte)
  | rel (off : Byte)
  | zpX (base : Byte)
  | zpY (base : Byte)
  | absX (base : Addr)
  | absY (base : Addr)
  | indX (ptr : Byte)
  | indY (ptr : Byte)
  | ind (ptr : Addr)
deriving DecidableEq, Repr

/-- What an instruction operates on: the accumulator, an immediate byte, or a bus address. -/
inductive Operand where
  | acc
  | imm (value : Byte)
  | mem (m : MemOperand)
deriving DecidableEq, Repr

/-- The mode a memory operand was written in. -/
def MemOperand.mode : MemOperand → Mode
  | .abs _ => .abs
  | .zp _ => .zp
  | .rel _ => .rel
  | .zpX _ => .zpX
  | .zpY _ => .zpY
  | .absX _ => .absX
  | .absY _ => .absY
  | .indX _ => .indX
  | .indY _ => .indY
  | .ind _ => .ind

/-- The mode an operand was written in. -/
def Operand.mode : Operand → Mode
  | .acc => .acc
  | .imm _ => .imm
  | .mem m => m.mode

end Sys2Proof
end

