-- ==== Sys2Proof/Syntax.lean ====
section
/-! DEFINITION. The instructions: one constructor for each of the 151 rows of spec/opcode_table.json (the opcode map of
30_encoding.md R101), carrying the row's operand field. A row's name is its mnemonic and its mode. -/

namespace Sys2Proof

/-- The 151 instructions of R101. Fields: an immediate byte, a zero-page address or pointer, a signed branch offset, or a
16-bit address. -/
inductive Instr where
  | ldaImm (value : Byte)
  | ldaZp (addr : Byte)
  | ldaZpX (base : Byte)
  | ldaAbs (addr : Addr)
  | ldaAbsX (base : Addr)
  | ldaAbsY (base : Addr)
  | ldaIndX (ptr : Byte)
  | ldaIndY (ptr : Byte)
  | ldxImm (value : Byte)
  | ldxZp (addr : Byte)
  | ldxZpY (base : Byte)
  | ldxAbs (addr : Addr)
  | ldxAbsY (base : Addr)
  | ldyImm (value : Byte)
  | ldyZp (addr : Byte)
  | ldyZpX (base : Byte)
  | ldyAbs (addr : Addr)
  | ldyAbsX (base : Addr)
  | incZp (addr : Byte)
  | incZpX (base : Byte)
  | incAbs (addr : Addr)
  | incAbsX (base : Addr)
  | decZp (addr : Byte)
  | decZpX (base : Byte)
  | decAbs (addr : Addr)
  | decAbsX (base : Addr)
  | inx
  | iny
  | dex
  | dey
  | sec
  | sed
  | sei
  | clc
  | cld
  | cli
  | clv
  | adcImm (value : Byte)
  | adcZp (addr : Byte)
  | adcZpX (base : Byte)
  | adcAbs (addr : Addr)
  | adcAbsX (base : Addr)
  | adcAbsY (base : Addr)
  | adcIndX (ptr : Byte)
  | adcIndY (ptr : Byte)
  | sbcImm (value : Byte)
  | sbcZp (addr : Byte)
  | sbcZpX (base : Byte)
  | sbcAbs (addr : Addr)
  | sbcAbsX (base : Addr)
  | sbcAbsY (base : Addr)
  | sbcIndX (ptr : Byte)
  | sbcIndY (ptr : Byte)
  | andImm (value : Byte)
  | andZp (addr : Byte)
  | andZpX (base : Byte)
  | andAbs (addr : Addr)
  | andAbsX (base : Addr)
  | andAbsY (base : Addr)
  | andIndX (ptr : Byte)
  | andIndY (ptr : Byte)
  | oraImm (value : Byte)
  | oraZp (addr : Byte)
  | oraZpX (base : Byte)
  | oraAbs (addr : Addr)
  | oraAbsX (base : Addr)
  | oraAbsY (base : Addr)
  | oraIndX (ptr : Byte)
  | oraIndY (ptr : Byte)
  | eorImm (value : Byte)
  | eorZp (addr : Byte)
  | eorZpX (base : Byte)
  | eorAbs (addr : Addr)
  | eorAbsX (base : Addr)
  | eorAbsY (base : Addr)
  | eorIndX (ptr : Byte)
  | eorIndY (ptr : Byte)
  | aslA
  | aslZp (addr : Byte)
  | aslZpX (base : Byte)
  | aslAbs (addr : Addr)
  | aslAbsX (base : Addr)
  | lsrA
  | lsrZp (addr : Byte)
  | lsrZpX (base : Byte)
  | lsrAbs (addr : Addr)
  | lsrAbsX (base : Addr)
  | rolA
  | rolZp (addr : Byte)
  | rolZpX (base : Byte)
  | rolAbs (addr : Addr)
  | rolAbsX (base : Addr)
  | rorA
  | rorZp (addr : Byte)
  | rorZpX (base : Byte)
  | rorAbs (addr : Addr)
  | rorAbsX (base : Addr)
  | cmpImm (value : Byte)
  | cmpZp (addr : Byte)
  | cmpZpX (base : Byte)
  | cmpAbs (addr : Addr)
  | cmpAbsX (base : Addr)
  | cmpAbsY (base : Addr)
  | cmpIndX (ptr : Byte)
  | cmpIndY (ptr : Byte)
  | cpxImm (value : Byte)
  | cpxZp (addr : Byte)
  | cpxAbs (addr : Addr)
  | cpyImm (value : Byte)
  | cpyZp (addr : Byte)
  | cpyAbs (addr : Addr)
  | bitZp (addr : Byte)
  | bitAbs (addr : Addr)
  | bpl (off : Byte)
  | bmi (off : Byte)
  | bvc (off : Byte)
  | bvs (off : Byte)
  | bcc (off : Byte)
  | bcs (off : Byte)
  | bne (off : Byte)
  | beq (off : Byte)
  | jmpAbs (addr : Addr)
  | jmpInd (ptr : Addr)
  | pha
  | php
  | pla
  | plp
  | jsr (addr : Addr)
  | rts
  | rti
  | brk
  | staZp (addr : Byte)
  | staZpX (base : Byte)
  | staAbs (addr : Addr)
  | staAbsX (base : Addr)
  | staAbsY (base : Addr)
  | staIndX (ptr : Byte)
  | staIndY (ptr : Byte)
  | stxZp (addr : Byte)
  | stxZpY (base : Byte)
  | stxAbs (addr : Addr)
  | styZp (addr : Byte)
  | styZpX (base : Byte)
  | styAbs (addr : Addr)
  | tax
  | tay
  | txa
  | tya
  | tsx
  | txs
  | nop
deriving DecidableEq, Repr

/-- The row's mnemonic (R101). -/
def Instr.mnemonic : Instr → Mnemonic
  | .ldaImm _ => .LDA
  | .ldaZp _ => .LDA
  | .ldaZpX _ => .LDA
  | .ldaAbs _ => .LDA
  | .ldaAbsX _ => .LDA
  | .ldaAbsY _ => .LDA
  | .ldaIndX _ => .LDA
  | .ldaIndY _ => .LDA
  | .ldxImm _ => .LDX
  | .ldxZp _ => .LDX
  | .ldxZpY _ => .LDX
  | .ldxAbs _ => .LDX
  | .ldxAbsY _ => .LDX
  | .ldyImm _ => .LDY
  | .ldyZp _ => .LDY
  | .ldyZpX _ => .LDY
  | .ldyAbs _ => .LDY
  | .ldyAbsX _ => .LDY
  | .incZp _ => .INC
  | .incZpX _ => .INC
  | .incAbs _ => .INC
  | .incAbsX _ => .INC
  | .decZp _ => .DEC
  | .decZpX _ => .DEC
  | .decAbs _ => .DEC
  | .decAbsX _ => .DEC
  | .inx => .INX
  | .iny => .INY
  | .dex => .DEX
  | .dey => .DEY
  | .sec => .SEC
  | .sed => .SED
  | .sei => .SEI
  | .clc => .CLC
  | .cld => .CLD
  | .cli => .CLI
  | .clv => .CLV
  | .adcImm _ => .ADC
  | .adcZp _ => .ADC
  | .adcZpX _ => .ADC
  | .adcAbs _ => .ADC
  | .adcAbsX _ => .ADC
  | .adcAbsY _ => .ADC
  | .adcIndX _ => .ADC
  | .adcIndY _ => .ADC
  | .sbcImm _ => .SBC
  | .sbcZp _ => .SBC
  | .sbcZpX _ => .SBC
  | .sbcAbs _ => .SBC
  | .sbcAbsX _ => .SBC
  | .sbcAbsY _ => .SBC
  | .sbcIndX _ => .SBC
  | .sbcIndY _ => .SBC
  | .andImm _ => .AND
  | .andZp _ => .AND
  | .andZpX _ => .AND
  | .andAbs _ => .AND
  | .andAbsX _ => .AND
  | .andAbsY _ => .AND
  | .andIndX _ => .AND
  | .andIndY _ => .AND
  | .oraImm _ => .ORA
  | .oraZp _ => .ORA
  | .oraZpX _ => .ORA
  | .oraAbs _ => .ORA
  | .oraAbsX _ => .ORA
  | .oraAbsY _ => .ORA
  | .oraIndX _ => .ORA
  | .oraIndY _ => .ORA
  | .eorImm _ => .EOR
  | .eorZp _ => .EOR
  | .eorZpX _ => .EOR
  | .eorAbs _ => .EOR
  | .eorAbsX _ => .EOR
  | .eorAbsY _ => .EOR
  | .eorIndX _ => .EOR
  | .eorIndY _ => .EOR
  | .aslA => .ASL
  | .aslZp _ => .ASL
  | .aslZpX _ => .ASL
  | .aslAbs _ => .ASL
  | .aslAbsX _ => .ASL
  | .lsrA => .LSR
  | .lsrZp _ => .LSR
  | .lsrZpX _ => .LSR
  | .lsrAbs _ => .LSR
  | .lsrAbsX _ => .LSR
  | .rolA => .ROL
  | .rolZp _ => .ROL
  | .rolZpX _ => .ROL
  | .rolAbs _ => .ROL
  | .rolAbsX _ => .ROL
  | .rorA => .ROR
  | .rorZp _ => .ROR
  | .rorZpX _ => .ROR
  | .rorAbs _ => .ROR
  | .rorAbsX _ => .ROR
  | .cmpImm _ => .CMP
  | .cmpZp _ => .CMP
  | .cmpZpX _ => .CMP
  | .cmpAbs _ => .CMP
  | .cmpAbsX _ => .CMP
  | .cmpAbsY _ => .CMP
  | .cmpIndX _ => .CMP
  | .cmpIndY _ => .CMP
  | .cpxImm _ => .CPX
  | .cpxZp _ => .CPX
  | .cpxAbs _ => .CPX
  | .cpyImm _ => .CPY
  | .cpyZp _ => .CPY
  | .cpyAbs _ => .CPY
  | .bitZp _ => .BIT
  | .bitAbs _ => .BIT
  | .bpl _ => .BPL
  | .bmi _ => .BMI
  | .bvc _ => .BVC
  | .bvs _ => .BVS
  | .bcc _ => .BCC
  | .bcs _ => .BCS
  | .bne _ => .BNE
  | .beq _ => .BEQ
  | .jmpAbs _ => .JMP
  | .jmpInd _ => .JMP
  | .pha => .PHA
  | .php => .PHP
  | .pla => .PLA
  | .plp => .PLP
  | .jsr _ => .JSR
  | .rts => .RTS
  | .rti => .RTI
  | .brk => .BRK
  | .staZp _ => .STA
  | .staZpX _ => .STA
  | .staAbs _ => .STA
  | .staAbsX _ => .STA
  | .staAbsY _ => .STA
  | .staIndX _ => .STA
  | .staIndY _ => .STA
  | .stxZp _ => .STX
  | .stxZpY _ => .STX
  | .stxAbs _ => .STX
  | .styZp _ => .STY
  | .styZpX _ => .STY
  | .styAbs _ => .STY
  | .tax => .TAX
  | .tay => .TAY
  | .txa => .TXA
  | .tya => .TYA
  | .tsx => .TSX
  | .txs => .TXS
  | .nop => .NOP

/-- What the row operates on, with its stream bytes; none for Implied (R84, R87). -/
def Instr.operand : Instr → Option Operand
  | .ldaImm v => some (.imm v)
  | .ldaZp b => some (.mem (.zp b))
  | .ldaZpX b => some (.mem (.zpX b))
  | .ldaAbs a => some (.mem (.abs a))
  | .ldaAbsX a => some (.mem (.absX a))
  | .ldaAbsY a => some (.mem (.absY a))
  | .ldaIndX q => some (.mem (.indX q))
  | .ldaIndY q => some (.mem (.indY q))
  | .ldxImm v => some (.imm v)
  | .ldxZp b => some (.mem (.zp b))
  | .ldxZpY b => some (.mem (.zpY b))
  | .ldxAbs a => some (.mem (.abs a))
  | .ldxAbsY a => some (.mem (.absY a))
  | .ldyImm v => some (.imm v)
  | .ldyZp b => some (.mem (.zp b))
  | .ldyZpX b => some (.mem (.zpX b))
  | .ldyAbs a => some (.mem (.abs a))
  | .ldyAbsX a => some (.mem (.absX a))
  | .incZp b => some (.mem (.zp b))
  | .incZpX b => some (.mem (.zpX b))
  | .incAbs a => some (.mem (.abs a))
  | .incAbsX a => some (.mem (.absX a))
  | .decZp b => some (.mem (.zp b))
  | .decZpX b => some (.mem (.zpX b))
  | .decAbs a => some (.mem (.abs a))
  | .decAbsX a => some (.mem (.absX a))
  | .inx => none
  | .iny => none
  | .dex => none
  | .dey => none
  | .sec => none
  | .sed => none
  | .sei => none
  | .clc => none
  | .cld => none
  | .cli => none
  | .clv => none
  | .adcImm v => some (.imm v)
  | .adcZp b => some (.mem (.zp b))
  | .adcZpX b => some (.mem (.zpX b))
  | .adcAbs a => some (.mem (.abs a))
  | .adcAbsX a => some (.mem (.absX a))
  | .adcAbsY a => some (.mem (.absY a))
  | .adcIndX q => some (.mem (.indX q))
  | .adcIndY q => some (.mem (.indY q))
  | .sbcImm v => some (.imm v)
  | .sbcZp b => some (.mem (.zp b))
  | .sbcZpX b => some (.mem (.zpX b))
  | .sbcAbs a => some (.mem (.abs a))
  | .sbcAbsX a => some (.mem (.absX a))
  | .sbcAbsY a => some (.mem (.absY a))
  | .sbcIndX q => some (.mem (.indX q))
  | .sbcIndY q => some (.mem (.indY q))
  | .andImm v => some (.imm v)
  | .andZp b => some (.mem (.zp b))
  | .andZpX b => some (.mem (.zpX b))
  | .andAbs a => some (.mem (.abs a))
  | .andAbsX a => some (.mem (.absX a))
  | .andAbsY a => some (.mem (.absY a))
  | .andIndX q => some (.mem (.indX q))
  | .andIndY q => some (.mem (.indY q))
  | .oraImm v => some (.imm v)
  | .oraZp b => some (.mem (.zp b))
  | .oraZpX b => some (.mem (.zpX b))
  | .oraAbs a => some (.mem (.abs a))
  | .oraAbsX a => some (.mem (.absX a))
  | .oraAbsY a => some (.mem (.absY a))
  | .oraIndX q => some (.mem (.indX q))
  | .oraIndY q => some (.mem (.indY q))
  | .eorImm v => some (.imm v)
  | .eorZp b => some (.mem (.zp b))
  | .eorZpX b => some (.mem (.zpX b))
  | .eorAbs a => some (.mem (.abs a))
  | .eorAbsX a => some (.mem (.absX a))
  | .eorAbsY a => some (.mem (.absY a))
  | .eorIndX q => some (.mem (.indX q))
  | .eorIndY q => some (.mem (.indY q))
  | .aslA => some .acc
  | .aslZp b => some (.mem (.zp b))
  | .aslZpX b => some (.mem (.zpX b))
  | .aslAbs a => some (.mem (.abs a))
  | .aslAbsX a => some (.mem (.absX a))
  | .lsrA => some .acc
  | .lsrZp b => some (.mem (.zp b))
  | .lsrZpX b => some (.mem (.zpX b))
  | .lsrAbs a => some (.mem (.abs a))
  | .lsrAbsX a => some (.mem (.absX a))
  | .rolA => some .acc
  | .rolZp b => some (.mem (.zp b))
  | .rolZpX b => some (.mem (.zpX b))
  | .rolAbs a => some (.mem (.abs a))
  | .rolAbsX a => some (.mem (.absX a))
  | .rorA => some .acc
  | .rorZp b => some (.mem (.zp b))
  | .rorZpX b => some (.mem (.zpX b))
  | .rorAbs a => some (.mem (.abs a))
  | .rorAbsX a => some (.mem (.absX a))
  | .cmpImm v => some (.imm v)
  | .cmpZp b => some (.mem (.zp b))
  | .cmpZpX b => some (.mem (.zpX b))
  | .cmpAbs a => some (.mem (.abs a))
  | .cmpAbsX a => some (.mem (.absX a))
  | .cmpAbsY a => some (.mem (.absY a))
  | .cmpIndX q => some (.mem (.indX q))
  | .cmpIndY q => some (.mem (.indY q))
  | .cpxImm v => some (.imm v)
  | .cpxZp b => some (.mem (.zp b))
  | .cpxAbs a => some (.mem (.abs a))
  | .cpyImm v => some (.imm v)
  | .cpyZp b => some (.mem (.zp b))
  | .cpyAbs a => some (.mem (.abs a))
  | .bitZp b => some (.mem (.zp b))
  | .bitAbs a => some (.mem (.abs a))
  | .bpl d => some (.mem (.rel d))
  | .bmi d => some (.mem (.rel d))
  | .bvc d => some (.mem (.rel d))
  | .bvs d => some (.mem (.rel d))
  | .bcc d => some (.mem (.rel d))
  | .bcs d => some (.mem (.rel d))
  | .bne d => some (.mem (.rel d))
  | .beq d => some (.mem (.rel d))
  | .jmpAbs a => some (.mem (.abs a))
  | .jmpInd q => some (.mem (.ind q))
  | .pha => none
  | .php => none
  | .pla => none
  | .plp => none
  | .jsr a => some (.mem (.abs a))
  | .rts => none
  | .rti => none
  | .brk => none
  | .staZp b => some (.mem (.zp b))
  | .staZpX b => some (.mem (.zpX b))
  | .staAbs a => some (.mem (.abs a))
  | .staAbsX a => some (.mem (.absX a))
  | .staAbsY a => some (.mem (.absY a))
  | .staIndX q => some (.mem (.indX q))
  | .staIndY q => some (.mem (.indY q))
  | .stxZp b => some (.mem (.zp b))
  | .stxZpY b => some (.mem (.zpY b))
  | .stxAbs a => some (.mem (.abs a))
  | .styZp b => some (.mem (.zp b))
  | .styZpX b => some (.mem (.zpX b))
  | .styAbs a => some (.mem (.abs a))
  | .tax => none
  | .tay => none
  | .txa => none
  | .tya => none
  | .tsx => none
  | .txs => none
  | .nop => none

/-- The row's addressing mode (R85). -/
def Instr.mode (i : Instr) : Mode :=
  match i.operand with
  | none => .imp
  | some o => o.mode

end Sys2Proof
end

