-- ==== Sys2Proof/WellFormed.lean ====
section
/-! DEFINITION. Which instructions the machine's encoding can express. Mode compatibility (30_encoding.md R105) holds by
construction: each row is a constructor with just its own operand. What is left to check is the one field whose width
depends on a parameter: the address of Absolute,X and Absolute,Y (R94). -/

namespace Sys2Proof

/-- An indexed base fits its stream bytes: any 16-bit address under `two_byte`, one byte under `source_one_byte` (R94). -/
def indexedBaseFits (f : AbsIndexed) (base : Addr) : Bool :=
  match f with
  | .twoByte => true
  | .sourceOneByte => decide (base.toNat < 256)

/-- The operand can be encoded under `f` (R84). -/
def Operand.wf (f : AbsIndexed) : Operand → Bool
  | .mem (.absX base) => indexedBaseFits f base
  | .mem (.absY base) => indexedBaseFits f base
  | .acc | .imm _ => true
  | .mem (.abs _) | .mem (.zp _) | .mem (.rel _) | .mem (.zpX _) | .mem (.zpY _) => true
  | .mem (.indX _) | .mem (.indY _) | .mem (.ind _) => true

/-- The instruction can be encoded under `f`. -/
def Instr.wf (f : AbsIndexed) (i : Instr) : Bool :=
  match i.operand with
  | none => true
  | some o => o.wf f

end Sys2Proof
end

