-- ==== Sys2Proof/Decode.lean ====
section
/-! DEFINITION. From bytes to instructions and back: the decoder table and the operand bytes of each mode (30_encoding.md
R80 to R105), the encoder, and the reading of an opcode-table word. -/

namespace Sys2Proof

/-! ### Byte order -/

/-- `(hi << 8) | lo` (R9, R63). -/
def wordOf (lo hi : Byte) : Addr := hi ++ lo

/-- The low byte of a 16-bit value (R9: `v[7:0]`). -/
def loByte (a : Addr) : Byte := a.extractLsb' 0 8

/-- The high byte of a 16-bit value (R9: `v[15:8]`). -/
def hiByte (a : Addr) : Byte := a.extractLsb' 8 8

/-- `zext_16` of a byte (R9): the zero-page address (R91), or an index register as an addend (R94). -/
def zext (b : Byte) : Addr := b.setWidth 16

/-- `sext_16` of a byte (R9): a branch offset (R92). -/
def sext (b : Byte) : Addr := b.signExtend 16

/-! ### The decoder table -/

/-- An entry of `DecodeTable` (R100): the marker `Illegal`, or a mnemonic and a mode; the mnemonic selects the handler. -/
inductive Entry where
  | illegal
  | row (mn : Mnemonic) (mode : Mode)
deriving DecidableEq, Repr

/-- Row 0x of the opcode map (R101). -/
def opcodeRow0 : List Entry :=
  [.row .BRK .imp, .row .ORA .indX, .illegal, .illegal,
   .illegal, .row .ORA .zp, .row .ASL .zp, .illegal,
   .row .PHP .imp, .row .ORA .imm, .row .ASL .acc, .illegal,
   .illegal, .row .ORA .abs, .row .ASL .abs, .illegal]

/-- Row 1x of the opcode map (R101). -/
def opcodeRow1 : List Entry :=
  [.row .BPL .rel, .row .ORA .indY, .illegal, .illegal,
   .illegal, .row .ORA .zpX, .row .ASL .zpX, .illegal,
   .row .CLC .imp, .row .ORA .absY, .illegal, .illegal,
   .illegal, .row .ORA .absX, .row .ASL .absX, .illegal]

/-- Row 2x of the opcode map (R101). -/
def opcodeRow2 : List Entry :=
  [.row .JSR .abs, .row .AND .indX, .illegal, .illegal,
   .row .BIT .zp, .row .AND .zp, .row .ROL .zp, .illegal,
   .row .PLP .imp, .row .AND .imm, .row .ROL .acc, .illegal,
   .row .BIT .abs, .row .AND .abs, .row .ROL .abs, .illegal]

/-- Row 3x of the opcode map (R101). -/
def opcodeRow3 : List Entry :=
  [.row .BMI .rel, .row .AND .indY, .illegal, .illegal,
   .illegal, .row .AND .zpX, .row .ROL .zpX, .illegal,
   .row .SEC .imp, .row .AND .absY, .illegal, .illegal,
   .illegal, .row .AND .absX, .row .ROL .absX, .illegal]

/-- Row 4x of the opcode map (R101). -/
def opcodeRow4 : List Entry :=
  [.row .RTI .imp, .row .EOR .indX, .illegal, .illegal,
   .illegal, .row .EOR .zp, .row .LSR .zp, .illegal,
   .row .PHA .imp, .row .EOR .imm, .row .LSR .acc, .illegal,
   .row .JMP .abs, .row .EOR .abs, .row .LSR .abs, .illegal]

/-- Row 5x of the opcode map (R101). -/
def opcodeRow5 : List Entry :=
  [.row .BVC .rel, .row .EOR .indY, .illegal, .illegal,
   .illegal, .row .EOR .zpX, .row .LSR .zpX, .illegal,
   .row .CLI .imp, .row .EOR .absY, .illegal, .illegal,
   .illegal, .row .EOR .absX, .row .LSR .absX, .illegal]

/-- Row 6x of the opcode map (R101). -/
def opcodeRow6 : List Entry :=
  [.row .RTS .imp, .row .ADC .indX, .illegal, .illegal,
   .illegal, .row .ADC .zp, .row .ROR .zp, .illegal,
   .row .PLA .imp, .row .ADC .imm, .row .ROR .acc, .illegal,
   .row .JMP .ind, .row .ADC .abs, .row .ROR .abs, .illegal]

/-- Row 7x of the opcode map (R101). -/
def opcodeRow7 : List Entry :=
  [.row .BVS .rel, .row .ADC .indY, .illegal, .illegal,
   .illegal, .row .ADC .zpX, .row .ROR .zpX, .illegal,
   .row .SEI .imp, .row .ADC .absY, .illegal, .illegal,
   .illegal, .row .ADC .absX, .row .ROR .absX, .illegal]

/-- Row 8x of the opcode map (R101). -/
def opcodeRow8 : List Entry :=
  [.illegal, .row .STA .indX, .illegal, .illegal,
   .row .STY .zp, .row .STA .zp, .row .STX .zp, .illegal,
   .row .DEY .imp, .illegal, .row .TXA .imp, .illegal,
   .row .STY .abs, .row .STA .abs, .row .STX .abs, .illegal]

/-- Row 9x of the opcode map (R101). -/
def opcodeRow9 : List Entry :=
  [.row .BCC .rel, .row .STA .indY, .illegal, .illegal,
   .row .STY .zpX, .row .STA .zpX, .row .STX .zpY, .illegal,
   .row .TYA .imp, .row .STA .absY, .row .TXS .imp, .illegal,
   .illegal, .row .STA .absX, .illegal, .illegal]

/-- Row Ax of the opcode map (R101). -/
def opcodeRowA : List Entry :=
  [.row .LDY .imm, .row .LDA .indX, .row .LDX .imm, .illegal,
   .row .LDY .zp, .row .LDA .zp, .row .LDX .zp, .illegal,
   .row .TAY .imp, .row .LDA .imm, .row .TAX .imp, .illegal,
   .row .LDY .abs, .row .LDA .abs, .row .LDX .abs, .illegal]

/-- Row Bx of the opcode map (R101). -/
def opcodeRowB : List Entry :=
  [.row .BCS .rel, .row .LDA .indY, .illegal, .illegal,
   .row .LDY .zpX, .row .LDA .zpX, .row .LDX .zpY, .illegal,
   .row .CLV .imp, .row .LDA .absY, .row .TSX .imp, .illegal,
   .row .LDY .absX, .row .LDA .absX, .row .LDX .absY, .illegal]

/-- Row Cx of the opcode map (R101). -/
def opcodeRowC : List Entry :=
  [.row .CPY .imm, .row .CMP .indX, .illegal, .illegal,
   .row .CPY .zp, .row .CMP .zp, .row .DEC .zp, .illegal,
   .row .INY .imp, .row .CMP .imm, .row .DEX .imp, .illegal,
   .row .CPY .abs, .row .CMP .abs, .row .DEC .abs, .illegal]

/-- Row Dx of the opcode map (R101). -/
def opcodeRowD : List Entry :=
  [.row .BNE .rel, .row .CMP .indY, .illegal, .illegal,
   .illegal, .row .CMP .zpX, .row .DEC .zpX, .illegal,
   .row .CLD .imp, .row .CMP .absY, .illegal, .illegal,
   .illegal, .row .CMP .absX, .row .DEC .absX, .illegal]

/-- Row Ex of the opcode map (R101). -/
def opcodeRowE : List Entry :=
  [.row .CPX .imm, .row .SBC .indX, .illegal, .illegal,
   .row .CPX .zp, .row .SBC .zp, .row .INC .zp, .illegal,
   .row .INX .imp, .row .SBC .imm, .row .NOP .imp, .illegal,
   .row .CPX .abs, .row .SBC .abs, .row .INC .abs, .illegal]

/-- Row Fx of the opcode map (R101). -/
def opcodeRowF : List Entry :=
  [.row .BEQ .rel, .row .SBC .indY, .illegal, .illegal,
   .illegal, .row .SBC .zpX, .row .INC .zpX, .illegal,
   .row .SED .imp, .row .SBC .absY, .illegal, .illegal,
   .illegal, .row .SBC .absX, .row .INC .absX, .illegal]

/-- The opcode map of R101: the rows, by the high nibble of the opcode. -/
def opcodeMap : List (List Entry) :=
  [opcodeRow0, opcodeRow1, opcodeRow2, opcodeRow3, opcodeRow4, opcodeRow5, opcodeRow6, opcodeRow7,
   opcodeRow8, opcodeRow9, opcodeRowA, opcodeRowB, opcodeRowC, opcodeRowD, opcodeRowE, opcodeRowF]

/-- `DecodeTable[op]` (R100, R101): the row is the opcode's high nibble, the column its low nibble. Every byte has an entry
(opcodeMap_total), so the defaults are never taken. -/
def decodeTable (op : Byte) : Entry :=
  (opcodeMap.getD (op.toNat / 16) []).getD (op.toNat % 16) .illegal

/-! ### Operand bytes -/

/-- Stream bytes after the opcode, by mode (R84). -/
def Mode.streamBytes (f : AbsIndexed) : Mode → Nat
  | .imp | .acc => 0
  | .imm | .zp | .zpX | .zpY | .rel | .indX | .indY => 1
  | .abs | .ind => 2
  | .absX | .absY => match f with
    | .twoByte => 2
    | .sourceOneByte => 1

/-- Stream bytes that follow an opcode byte: none after an `Illegal` one (R81, R103). -/
def operandCount (f : AbsIndexed) (op : Byte) : Nat :=
  match decodeTable op with
  | .illegal => 0
  | .row _ mode => mode.streamBytes f

/-- The address field of an Absolute,X or Absolute,Y row: two bytes, low first, or one byte (R94). -/
def takeIndexedBase (f : AbsIndexed) (bs : List Byte) : Option (Addr × List Byte) :=
  match f, bs with
  | .twoByte, lo :: hi :: rest => some (wordOf lo hi, rest)
  | .sourceOneByte, b :: rest => some (zext b, rest)
  | _, _ => none

/-- Reads a mode's operand from the bytes after the opcode (R80, R87 to R97); none where a byte is missing. -/
def takeOperand (f : AbsIndexed) (mode : Mode) (bs : List Byte) : Option (Option Operand × List Byte) :=
  match mode, bs with
  | .imp, bs => some (none, bs)
  | .acc, bs => some (some .acc, bs)
  | .imm, b :: bs => some (some (.imm b), bs)
  | .abs, lo :: hi :: bs => some (some (.mem (.abs (wordOf lo hi))), bs)
  | .zp, b :: bs => some (some (.mem (.zp b)), bs)
  | .rel, b :: bs => some (some (.mem (.rel b)), bs)
  | .zpX, b :: bs => some (some (.mem (.zpX b)), bs)
  | .zpY, b :: bs => some (some (.mem (.zpY b)), bs)
  | .absX, bs => (takeIndexedBase f bs).map fun r => (some (.mem (.absX r.1)), r.2)
  | .absY, bs => (takeIndexedBase f bs).map fun r => (some (.mem (.absY r.1)), r.2)
  | .indX, b :: bs => some (some (.mem (.indX b)), bs)
  | .indY, b :: bs => some (some (.mem (.indY b)), bs)
  | .ind, lo :: hi :: bs => some (some (.mem (.ind (wordOf lo hi))), bs)
  | .imm, [] | .zp, [] | .rel, [] | .zpX, [] | .zpY, [] | .indX, [] | .indY, [] => none
  | .abs, [] | .abs, [_] | .ind, [] | .ind, [_] => none

/-! ### The decoder -/

/-- The instruction of a mnemonic and an operand: the rows of R101. None where the table has no such row (R105). -/
def Instr.ofParts (mn : Mnemonic) (o : Option Operand) : Option Instr :=
  match mn with
  | .LDA => match o with
    | some (.imm v) => some (.ldaImm v)
    | some (.mem (.zp b)) => some (.ldaZp b)
    | some (.mem (.zpX b)) => some (.ldaZpX b)
    | some (.mem (.abs a)) => some (.ldaAbs a)
    | some (.mem (.absX a)) => some (.ldaAbsX a)
    | some (.mem (.absY a)) => some (.ldaAbsY a)
    | some (.mem (.indX q)) => some (.ldaIndX q)
    | some (.mem (.indY q)) => some (.ldaIndY q)
    | _ => none
  | .LDX => match o with
    | some (.imm v) => some (.ldxImm v)
    | some (.mem (.zp b)) => some (.ldxZp b)
    | some (.mem (.zpY b)) => some (.ldxZpY b)
    | some (.mem (.abs a)) => some (.ldxAbs a)
    | some (.mem (.absY a)) => some (.ldxAbsY a)
    | _ => none
  | .LDY => match o with
    | some (.imm v) => some (.ldyImm v)
    | some (.mem (.zp b)) => some (.ldyZp b)
    | some (.mem (.zpX b)) => some (.ldyZpX b)
    | some (.mem (.abs a)) => some (.ldyAbs a)
    | some (.mem (.absX a)) => some (.ldyAbsX a)
    | _ => none
  | .INC => match o with
    | some (.mem (.zp b)) => some (.incZp b)
    | some (.mem (.zpX b)) => some (.incZpX b)
    | some (.mem (.abs a)) => some (.incAbs a)
    | some (.mem (.absX a)) => some (.incAbsX a)
    | _ => none
  | .DEC => match o with
    | some (.mem (.zp b)) => some (.decZp b)
    | some (.mem (.zpX b)) => some (.decZpX b)
    | some (.mem (.abs a)) => some (.decAbs a)
    | some (.mem (.absX a)) => some (.decAbsX a)
    | _ => none
  | .INX => match o with
    | none => some .inx
    | _ => none
  | .INY => match o with
    | none => some .iny
    | _ => none
  | .DEX => match o with
    | none => some .dex
    | _ => none
  | .DEY => match o with
    | none => some .dey
    | _ => none
  | .SEC => match o with
    | none => some .sec
    | _ => none
  | .SED => match o with
    | none => some .sed
    | _ => none
  | .SEI => match o with
    | none => some .sei
    | _ => none
  | .CLC => match o with
    | none => some .clc
    | _ => none
  | .CLD => match o with
    | none => some .cld
    | _ => none
  | .CLI => match o with
    | none => some .cli
    | _ => none
  | .CLV => match o with
    | none => some .clv
    | _ => none
  | .ADC => match o with
    | some (.imm v) => some (.adcImm v)
    | some (.mem (.zp b)) => some (.adcZp b)
    | some (.mem (.zpX b)) => some (.adcZpX b)
    | some (.mem (.abs a)) => some (.adcAbs a)
    | some (.mem (.absX a)) => some (.adcAbsX a)
    | some (.mem (.absY a)) => some (.adcAbsY a)
    | some (.mem (.indX q)) => some (.adcIndX q)
    | some (.mem (.indY q)) => some (.adcIndY q)
    | _ => none
  | .SBC => match o with
    | some (.imm v) => some (.sbcImm v)
    | some (.mem (.zp b)) => some (.sbcZp b)
    | some (.mem (.zpX b)) => some (.sbcZpX b)
    | some (.mem (.abs a)) => some (.sbcAbs a)
    | some (.mem (.absX a)) => some (.sbcAbsX a)
    | some (.mem (.absY a)) => some (.sbcAbsY a)
    | some (.mem (.indX q)) => some (.sbcIndX q)
    | some (.mem (.indY q)) => some (.sbcIndY q)
    | _ => none
  | .AND => match o with
    | some (.imm v) => some (.andImm v)
    | some (.mem (.zp b)) => some (.andZp b)
    | some (.mem (.zpX b)) => some (.andZpX b)
    | some (.mem (.abs a)) => some (.andAbs a)
    | some (.mem (.absX a)) => some (.andAbsX a)
    | some (.mem (.absY a)) => some (.andAbsY a)
    | some (.mem (.indX q)) => some (.andIndX q)
    | some (.mem (.indY q)) => some (.andIndY q)
    | _ => none
  | .ORA => match o with
    | some (.imm v) => some (.oraImm v)
    | some (.mem (.zp b)) => some (.oraZp b)
    | some (.mem (.zpX b)) => some (.oraZpX b)
    | some (.mem (.abs a)) => some (.oraAbs a)
    | some (.mem (.absX a)) => some (.oraAbsX a)
    | some (.mem (.absY a)) => some (.oraAbsY a)
    | some (.mem (.indX q)) => some (.oraIndX q)
    | some (.mem (.indY q)) => some (.oraIndY q)
    | _ => none
  | .EOR => match o with
    | some (.imm v) => some (.eorImm v)
    | some (.mem (.zp b)) => some (.eorZp b)
    | some (.mem (.zpX b)) => some (.eorZpX b)
    | some (.mem (.abs a)) => some (.eorAbs a)
    | some (.mem (.absX a)) => some (.eorAbsX a)
    | some (.mem (.absY a)) => some (.eorAbsY a)
    | some (.mem (.indX q)) => some (.eorIndX q)
    | some (.mem (.indY q)) => some (.eorIndY q)
    | _ => none
  | .ASL => match o with
    | some .acc => some .aslA
    | some (.mem (.zp b)) => some (.aslZp b)
    | some (.mem (.zpX b)) => some (.aslZpX b)
    | some (.mem (.abs a)) => some (.aslAbs a)
    | some (.mem (.absX a)) => some (.aslAbsX a)
    | _ => none
  | .LSR => match o with
    | some .acc => some .lsrA
    | some (.mem (.zp b)) => some (.lsrZp b)
    | some (.mem (.zpX b)) => some (.lsrZpX b)
    | some (.mem (.abs a)) => some (.lsrAbs a)
    | some (.mem (.absX a)) => some (.lsrAbsX a)
    | _ => none
  | .ROL => match o with
    | some .acc => some .rolA
    | some (.mem (.zp b)) => some (.rolZp b)
    | some (.mem (.zpX b)) => some (.rolZpX b)
    | some (.mem (.abs a)) => some (.rolAbs a)
    | some (.mem (.absX a)) => some (.rolAbsX a)
    | _ => none
  | .ROR => match o with
    | some .acc => some .rorA
    | some (.mem (.zp b)) => some (.rorZp b)
    | some (.mem (.zpX b)) => some (.rorZpX b)
    | some (.mem (.abs a)) => some (.rorAbs a)
    | some (.mem (.absX a)) => some (.rorAbsX a)
    | _ => none
  | .CMP => match o with
    | some (.imm v) => some (.cmpImm v)
    | some (.mem (.zp b)) => some (.cmpZp b)
    | some (.mem (.zpX b)) => some (.cmpZpX b)
    | some (.mem (.abs a)) => some (.cmpAbs a)
    | some (.mem (.absX a)) => some (.cmpAbsX a)
    | some (.mem (.absY a)) => some (.cmpAbsY a)
    | some (.mem (.indX q)) => some (.cmpIndX q)
    | some (.mem (.indY q)) => some (.cmpIndY q)
    | _ => none
  | .CPX => match o with
    | some (.imm v) => some (.cpxImm v)
    | some (.mem (.zp b)) => some (.cpxZp b)
    | some (.mem (.abs a)) => some (.cpxAbs a)
    | _ => none
  | .CPY => match o with
    | some (.imm v) => some (.cpyImm v)
    | some (.mem (.zp b)) => some (.cpyZp b)
    | some (.mem (.abs a)) => some (.cpyAbs a)
    | _ => none
  | .BIT => match o with
    | some (.mem (.zp b)) => some (.bitZp b)
    | some (.mem (.abs a)) => some (.bitAbs a)
    | _ => none
  | .BPL => match o with
    | some (.mem (.rel d)) => some (.bpl d)
    | _ => none
  | .BMI => match o with
    | some (.mem (.rel d)) => some (.bmi d)
    | _ => none
  | .BVC => match o with
    | some (.mem (.rel d)) => some (.bvc d)
    | _ => none
  | .BVS => match o with
    | some (.mem (.rel d)) => some (.bvs d)
    | _ => none
  | .BCC => match o with
    | some (.mem (.rel d)) => some (.bcc d)
    | _ => none
  | .BCS => match o with
    | some (.mem (.rel d)) => some (.bcs d)
    | _ => none
  | .BNE => match o with
    | some (.mem (.rel d)) => some (.bne d)
    | _ => none
  | .BEQ => match o with
    | some (.mem (.rel d)) => some (.beq d)
    | _ => none
  | .JMP => match o with
    | some (.mem (.abs a)) => some (.jmpAbs a)
    | some (.mem (.ind q)) => some (.jmpInd q)
    | _ => none
  | .PHA => match o with
    | none => some .pha
    | _ => none
  | .PHP => match o with
    | none => some .php
    | _ => none
  | .PLA => match o with
    | none => some .pla
    | _ => none
  | .PLP => match o with
    | none => some .plp
    | _ => none
  | .JSR => match o with
    | some (.mem (.abs a)) => some (.jsr a)
    | _ => none
  | .RTS => match o with
    | none => some .rts
    | _ => none
  | .RTI => match o with
    | none => some .rti
    | _ => none
  | .BRK => match o with
    | none => some .brk
    | _ => none
  | .STA => match o with
    | some (.mem (.zp b)) => some (.staZp b)
    | some (.mem (.zpX b)) => some (.staZpX b)
    | some (.mem (.abs a)) => some (.staAbs a)
    | some (.mem (.absX a)) => some (.staAbsX a)
    | some (.mem (.absY a)) => some (.staAbsY a)
    | some (.mem (.indX q)) => some (.staIndX q)
    | some (.mem (.indY q)) => some (.staIndY q)
    | _ => none
  | .STX => match o with
    | some (.mem (.zp b)) => some (.stxZp b)
    | some (.mem (.zpY b)) => some (.stxZpY b)
    | some (.mem (.abs a)) => some (.stxAbs a)
    | _ => none
  | .STY => match o with
    | some (.mem (.zp b)) => some (.styZp b)
    | some (.mem (.zpX b)) => some (.styZpX b)
    | some (.mem (.abs a)) => some (.styAbs a)
    | _ => none
  | .TAX => match o with
    | none => some .tax
    | _ => none
  | .TAY => match o with
    | none => some .tay
    | _ => none
  | .TXA => match o with
    | none => some .txa
    | _ => none
  | .TYA => match o with
    | none => some .tya
    | _ => none
  | .TSX => match o with
    | none => some .tsx
    | _ => none
  | .TXS => match o with
    | none => some .txs
    | _ => none
  | .NOP => match o with
    | none => some .nop
    | _ => none

/-- Why bytes are no instruction. -/
inductive DecodeError where
  | empty                   -- no opcode byte
  | illegal (op : Byte)     -- the table has no handler for the opcode (R102, R103)
  | truncated (op : Byte)   -- an operand byte is missing
deriving DecidableEq, Repr

/-- The decoder: the table's entry of the opcode byte (R100), its mode's operand bytes (R84), the instruction and the bytes
left over. -/
def decode (f : AbsIndexed) : List Byte → Except DecodeError (Instr × List Byte)
  | [] => .error .empty
  | op :: bs =>
    match decodeTable op with
    | .illegal => .error (.illegal op)
    | .row mn mode =>
      match takeOperand f mode bs with
      | none => .error (.truncated op)
      | some (o, rest) =>
        match Instr.ofParts mn o with
        | none => .error (.illegal op)
        | some i => .ok (i, rest)

/-! ### The encoder -/

/-- The opcode byte of a row, as spec/opcode_table.json and the family rules list it. -/
def Instr.opcode : Instr → Byte
  | .ldaImm _ => 0xA9
  | .ldaZp _ => 0xA5
  | .ldaZpX _ => 0xB5
  | .ldaAbs _ => 0xAD
  | .ldaAbsX _ => 0xBD
  | .ldaAbsY _ => 0xB9
  | .ldaIndX _ => 0xA1
  | .ldaIndY _ => 0xB1
  | .ldxImm _ => 0xA2
  | .ldxZp _ => 0xA6
  | .ldxZpY _ => 0xB6
  | .ldxAbs _ => 0xAE
  | .ldxAbsY _ => 0xBE
  | .ldyImm _ => 0xA0
  | .ldyZp _ => 0xA4
  | .ldyZpX _ => 0xB4
  | .ldyAbs _ => 0xAC
  | .ldyAbsX _ => 0xBC
  | .incZp _ => 0xE6
  | .incZpX _ => 0xF6
  | .incAbs _ => 0xEE
  | .incAbsX _ => 0xFE
  | .decZp _ => 0xC6
  | .decZpX _ => 0xD6
  | .decAbs _ => 0xCE
  | .decAbsX _ => 0xDE
  | .inx => 0xE8
  | .iny => 0xC8
  | .dex => 0xCA
  | .dey => 0x88
  | .sec => 0x38
  | .sed => 0xF8
  | .sei => 0x78
  | .clc => 0x18
  | .cld => 0xD8
  | .cli => 0x58
  | .clv => 0xB8
  | .adcImm _ => 0x69
  | .adcZp _ => 0x65
  | .adcZpX _ => 0x75
  | .adcAbs _ => 0x6D
  | .adcAbsX _ => 0x7D
  | .adcAbsY _ => 0x79
  | .adcIndX _ => 0x61
  | .adcIndY _ => 0x71
  | .sbcImm _ => 0xE9
  | .sbcZp _ => 0xE5
  | .sbcZpX _ => 0xF5
  | .sbcAbs _ => 0xED
  | .sbcAbsX _ => 0xFD
  | .sbcAbsY _ => 0xF9
  | .sbcIndX _ => 0xE1
  | .sbcIndY _ => 0xF1
  | .andImm _ => 0x29
  | .andZp _ => 0x25
  | .andZpX _ => 0x35
  | .andAbs _ => 0x2D
  | .andAbsX _ => 0x3D
  | .andAbsY _ => 0x39
  | .andIndX _ => 0x21
  | .andIndY _ => 0x31
  | .oraImm _ => 0x09
  | .oraZp _ => 0x05
  | .oraZpX _ => 0x15
  | .oraAbs _ => 0x0D
  | .oraAbsX _ => 0x1D
  | .oraAbsY _ => 0x19
  | .oraIndX _ => 0x01
  | .oraIndY _ => 0x11
  | .eorImm _ => 0x49
  | .eorZp _ => 0x45
  | .eorZpX _ => 0x55
  | .eorAbs _ => 0x4D
  | .eorAbsX _ => 0x5D
  | .eorAbsY _ => 0x59
  | .eorIndX _ => 0x41
  | .eorIndY _ => 0x51
  | .aslA => 0x0A
  | .aslZp _ => 0x06
  | .aslZpX _ => 0x16
  | .aslAbs _ => 0x0E
  | .aslAbsX _ => 0x1E
  | .lsrA => 0x4A
  | .lsrZp _ => 0x46
  | .lsrZpX _ => 0x56
  | .lsrAbs _ => 0x4E
  | .lsrAbsX _ => 0x5E
  | .rolA => 0x2A
  | .rolZp _ => 0x26
  | .rolZpX _ => 0x36
  | .rolAbs _ => 0x2E
  | .rolAbsX _ => 0x3E
  | .rorA => 0x6A
  | .rorZp _ => 0x66
  | .rorZpX _ => 0x76
  | .rorAbs _ => 0x6E
  | .rorAbsX _ => 0x7E
  | .cmpImm _ => 0xC9
  | .cmpZp _ => 0xC5
  | .cmpZpX _ => 0xD5
  | .cmpAbs _ => 0xCD
  | .cmpAbsX _ => 0xDD
  | .cmpAbsY _ => 0xD9
  | .cmpIndX _ => 0xC1
  | .cmpIndY _ => 0xD1
  | .cpxImm _ => 0xE0
  | .cpxZp _ => 0xE4
  | .cpxAbs _ => 0xEC
  | .cpyImm _ => 0xC0
  | .cpyZp _ => 0xC4
  | .cpyAbs _ => 0xCC
  | .bitZp _ => 0x24
  | .bitAbs _ => 0x2C
  | .bpl _ => 0x10
  | .bmi _ => 0x30
  | .bvc _ => 0x50
  | .bvs _ => 0x70
  | .bcc _ => 0x90
  | .bcs _ => 0xB0
  | .bne _ => 0xD0
  | .beq _ => 0xF0
  | .jmpAbs _ => 0x4C
  | .jmpInd _ => 0x6C
  | .pha => 0x48
  | .php => 0x08
  | .pla => 0x68
  | .plp => 0x28
  | .jsr _ => 0x20
  | .rts => 0x60
  | .rti => 0x40
  | .brk => 0x00
  | .staZp _ => 0x85
  | .staZpX _ => 0x95
  | .staAbs _ => 0x8D
  | .staAbsX _ => 0x9D
  | .staAbsY _ => 0x99
  | .staIndX _ => 0x81
  | .staIndY _ => 0x91
  | .stxZp _ => 0x86
  | .stxZpY _ => 0x96
  | .stxAbs _ => 0x8E
  | .styZp _ => 0x84
  | .styZpX _ => 0x94
  | .styAbs _ => 0x8C
  | .tax => 0xAA
  | .tay => 0xA8
  | .txa => 0x8A
  | .tya => 0x98
  | .tsx => 0xBA
  | .txs => 0x9A
  | .nop => 0xEA

/-- A 16-bit address field, low byte first (R63, R90). -/
def addrBytes (a : Addr) : List Byte := [loByte a, hiByte a]

/-- The address field of an indexed absolute row (R94). -/
def indexedBaseBytes (f : AbsIndexed) (base : Addr) : List Byte :=
  match f with
  | .twoByte => addrBytes base
  | .sourceOneByte => [loByte base]

/-- The stream bytes of an operand (R84). -/
def Operand.bytes (f : AbsIndexed) : Operand → List Byte
  | .acc => []
  | .imm v => [v]
  | .mem (.abs a) => addrBytes a
  | .mem (.zp b) => [b]
  | .mem (.rel d) => [d]
  | .mem (.zpX b) => [b]
  | .mem (.zpY b) => [b]
  | .mem (.absX a) => indexedBaseBytes f a
  | .mem (.absY a) => indexedBaseBytes f a
  | .mem (.indX q) => [q]
  | .mem (.indY q) => [q]
  | .mem (.ind q) => addrBytes q

/-- The stream bytes after the opcode (R80, R84). -/
def Instr.operandBytes (f : AbsIndexed) (i : Instr) : List Byte :=
  match i.operand with
  | none => []
  | some o => o.bytes f

/-- The bytes of an instruction, in stream order (R80). -/
def encode (f : AbsIndexed) (i : Instr) : List Byte := i.opcode :: i.operandBytes f

/-- The instruction's length in bytes (R81, R84). -/
def Instr.length (f : AbsIndexed) (i : Instr) : Nat := 1 + i.mode.streamBytes f

/-! ### Words of the opcode table -/

/-- The three bytes of a table word: byte 0 is the opcode, bits above `nbits` are 0 (the table's numbering; the longest
instruction has three bytes, R81). -/
def tableWordBytes (nbits w : Nat) : List Byte :=
  [BitVec.ofNat 8 (w % 2 ^ nbits), BitVec.ofNat 8 (w % 2 ^ nbits / 2 ^ 8), BitVec.ofNat 8 (w % 2 ^ nbits / 2 ^ 16)]

/-- The instruction the decoder reads from a table word, in the default configuration (R8; log 10). -/
def decodeTableWord (nbits w : Nat) : Option Instr :=
  match decode Config.default.absIndexed (tableWordBytes nbits w) with
  | .ok (i, _) => some i
  | .error _ => none

end Sys2Proof
end

