-- ==== Sys2Proof/Machine/State.lean ====
section
/-! DEFINITION. The state of the machine (10_state.md R20, R33; 20_memory.md R50), the ways a dispatch can end other than
`Ok` (60_exceptions.md R230 to R233), and the state after `create()` (70_reset_and_hazards.md R260). -/

namespace Sys2Proof.Machine

/-- What `BUS` does at the addresses of a region (R50, R53, R66; U1; log 2, log 4). Reading and writing fail separately
(R53). -/
inductive RegionKind where
  | ram        -- reads and writes succeed
  | rom        -- reads succeed, writes fail with BusError
  | writeOnly  -- writes are stored, reads fail with BusError
  | unmapped   -- reads and writes fail with BusError
  | device     -- answered by the free functions Config.deviceRead and Config.deviceWrite
deriving DecidableEq, Repr

/-- A range of bus addresses: `base` up to `base + size - 1`. -/
structure Region where
  base : Nat
  size : Nat
  kind : RegionKind
deriving DecidableEq, Repr

/-- The state S of `BUS` and the platform's map, as plain data (R50; log 2). -/
structure Bus where
  /-- the bytes RAM and ROM hold: strictly rising addresses, no entry equal to what an unlisted address reads as -/
  mem : List Host.Cell
  /-- the address map; the first region that holds an address decides, and an address in none is RAM -/
  map : List Region
  /-- every access completed so far, newest first -/
  log : List BusEvent
deriving DecidableEq, Repr

/-- The architectural state: the six registers of R20, the parameters of R7 (no step changes them), and the bus the handle
leads to (R50). Nothing else survives an instruction (R36). -/
structure State where
  /-- program counter: address of the next instruction-stream byte (R24, R25) -/
  pc : Addr
  /-- stack pointer SP (R23) -/
  sp : Byte
  /-- accumulator A (R21) -/
  a : Byte
  /-- index register X (R21) -/
  x : Byte
  /-- index register Y (R21) -/
  y : Byte
  /-- flag byte P: N V U B D I Z C in bits 7 to 0 (R26, R27) -/
  p : Byte
  /-- ABS_INDEXED, INDIRECT_COMBINE, STACK_PAGE (R7) -/
  cfg : Config
  /-- the bus state (R50) -/
  bus : Bus
deriving DecidableEq, Repr

/-- The results of a dispatch other than `Ok` (R233). Each carries the state the dispatch left behind: nothing is rolled
back, and the host may dispatch again from it (R234, R236; log 6). -/
inductive Fault where
  /-- Raised by any bus access that `BUS` reports as failing (R230). The spec's own result: safe. -/
  | busError (addr : Addr) (dir : Dir) (left : State)
  /-- Raised by the dispatcher for an opcode byte without a handler (R103, R231). The spec's own result: safe. -/
  | illegalOpcode (op : Byte) (left : State)
  /-- Raised by a write through a Literal reference (R56, R232). No instruction reaches it (R105): safe. -/
  | literalWrite (left : State)
deriving DecidableEq, Repr

/-- The state a failing dispatch left (R234). -/
def Fault.left : Fault → State
  | .busError _ _ s => s
  | .illegalOpcode _ s => s
  | .literalWrite s => s

/-- An instruction without a meaning. -/
inductive Refusal where
  /-- Raised by an arm of exec whose instruction has no meaning yet: safe. No arm of this model does. -/
  | notModelled (mnemonic : String)
deriving DecidableEq, Repr

/-- `create()`: every register zero, no bus access, the bus as it is given (R260). -/
def State.create (cfg : Config) (bus : Bus) : State :=
  { pc := 0, sp := 0, a := 0, x := 0, y := 0, p := 0, cfg := cfg, bus := bus }

/-- The bus a reset machine is given: no byte listed, every address RAM, no access made yet (log 3, log 4, log 5). -/
def Bus.initial : Bus := { mem := [], map := [], log := [] }

/-- The machine right after `create()` in the default configuration (R260, R8). -/
def State.reset : State := State.create Config.default Bus.initial

end Sys2Proof.Machine
end

