-- ==== Sys2Proof/Machine/Memory.lean ====
section
/-! DEFINITION. The bytes behind the bus: a canonical list of cells over the one 16-bit address space (20_memory.md R59), and
the two bus operations of R50, R51 and R53. -/

namespace Sys2Proof.Machine

/-- What an address that lists no byte reads as (log 3: DESIGN CHOICE, unsafe). -/
def Memory.unlisted : Byte := 0x00

/-- The cells from address `lo` on are in canonical form: rising, inside the address space, none equal to `unlisted`. -/
def Memory.wfFrom : Nat → List Host.Cell → Bool
  | _, [] => true
  | lo, (a, v) :: rest =>
    decide (lo ≤ a) && decide (a < 0x10000) && decide (v ≠ Memory.unlisted) && Memory.wfFrom (a + 1) rest

/-- The canonical form of memory: equal memories are equal lists. -/
def Memory.wf (m : List Host.Cell) : Bool := Memory.wfFrom 0 m

/-- The byte stored at an address. -/
def Memory.read : List Host.Cell → Nat → Byte
  | [], _ => Memory.unlisted
  | (b, w) :: rest, a => if a = b then w else Memory.read rest a

/-- Puts a cell before cells of higher addresses, unless it holds what an unlisted address reads as. -/
def Memory.cons (a : Nat) (v : Byte) (rest : List Host.Cell) : List Host.Cell :=
  if v = Memory.unlisted then rest else (a, v) :: rest

/-- Stores a byte, keeping the canonical form. -/
def Memory.write (a : Nat) (v : Byte) : List Host.Cell → List Host.Cell
  | [] => Memory.cons a v []
  | (b, w) :: rest =>
    if a < b then Memory.cons a v ((b, w) :: rest)
    else if a = b then Memory.cons a v rest
    else (b, w) :: Memory.write a v rest

/-- A region holds an address. -/
def Region.holds (r : Region) (a : Nat) : Bool := decide (r.base ≤ a) && decide (a < r.base + r.size)

/-- What the map says of an address: the first region that holds it, RAM where none does (log 4). -/
def RegionKind.ofMap : List Region → Nat → RegionKind
  | [], _ => .ram
  | r :: rest, a => if r.holds a then r.kind else RegionKind.ofMap rest a

/-- What kind of address `a` is on this bus. -/
def Bus.kindAt (b : Bus) (a : Addr) : RegionKind := RegionKind.ofMap b.map a.toNat

/-- The byte stored at `a`, whatever the map says of reading it. -/
def Bus.peek (b : Bus) (a : Addr) : Byte := Memory.read b.mem a.toNat

/-- The bus after one more completed access. -/
def Bus.logged (b : Bus) (e : BusEvent) : Bus := { b with log := e :: b.log }

/-- The bus with a byte stored. -/
def Bus.stored (b : Bus) (a : Addr) (v : Byte) : Bus := { b with mem := Memory.write a.toNat v b.mem }

/-- What a read at `a` yields; none where it fails (R51, U1, U2). -/
def Bus.answer (b : Bus) (a : Addr) : Option Byte :=
  match b.kindAt a with
  | .ram | .rom => some (b.peek a)
  | .writeOnly | .unmapped => none
  | .device => Config.deviceRead b.log a

/-- `read_byte` (R50, R51): the byte and the bus afterwards; none is BusError, and the bus is then unchanged (log 13). -/
def Bus.read (b : Bus) (a : Addr) : Option (Byte × Bus) :=
  match b.answer a with
  | some v => some (v, b.logged (.read a v))
  | none => none

/-- `write_byte` (R50, R53): the bus afterwards; none is BusError, and the bus is then unchanged (log 13). -/
def Bus.write (b : Bus) (a : Addr) (v : Byte) : Option Bus :=
  match b.kindAt a with
  | .ram | .writeOnly => some ((b.stored a v).logged (.write a v))
  | .rom | .unmapped => none
  | .device => if Config.deviceWrite b.log a v then some (b.logged (.write a v)) else none

/-- A byte put into memory by the platform, not by an access of the core (R262): stored, and readable at `a`. -/
def placeByte (a : Addr) (v : Byte) (b : Bus) : Bus :=
  match b.kindAt a with
  | .ram | .rom => b.stored a v
  | .writeOnly | .unmapped | .device =>
    { b.stored a v with map := { base := a.toNat, size := 1, kind := .ram } :: b.map }

/-- Bytes put at `a`, `a + 1`, … (mod 2^16). -/
def placeBytes : Addr → List Byte → Bus → Bus
  | _, [], b => b
  | a, v :: vs, b => placeBytes (a + 1) vs (placeByte a v b)

end Sys2Proof.Machine
end

