-- ==== Sys2Proof/Machine/Flags.lean ====
section
/-! DEFINITION. The flag byte and the flag arithmetic unit (10_state.md R26 to R31), the adder (43_arith.md R160), the compare
(46_compare_bit.md R180), and P as it is pushed and pulled (48_stack_subroutine.md R201, R203). -/

namespace Sys2Proof.Machine

/-- The flags by name (R27). -/
inductive Flag where
  | N | V | U | B | D | I | Z | C
deriving DecidableEq, Repr

/-- The flag index of R27. -/
def Flag.index : Flag → Fin 8
  | .N => 0
  | .V => 1
  | .U => 2
  | .B => 3
  | .D => 4
  | .I => 5
  | .Z => 6
  | .C => 7

/-- The bit of P a flag index stands for: `1 << (7 - i)` (R26). -/
def flagMask (i : Fin 8) : Byte := (1 : Byte) <<< (7 - i.val)

/-- `get_flag(i)` (R28): bit `7 - i` of P. -/
def getFlag (p : Byte) (i : Fin 8) : Bool := p.getLsbD (7 - i.val)

/-- `set_flag(i, b)` (R28): sets or clears bit `7 - i` of P and no other. -/
def setFlag (p : Byte) (i : Fin 8) (b : Bool) : Byte :=
  if b then p ||| flagMask i else p &&& ~~~(flagMask i)

/-- `SetNZ(v)` on P (R31). -/
def setNZ (p v : Byte) : Byte :=
  setFlag (setFlag p Flag.N.index v.msb) Flag.Z.index (decide (v = 0))

/-- The sum, carry out and signed overflow of the adder (R160). -/
structure Sum8 where
  r : Byte
  c : Bool
  v : Bool
deriving DecidableEq, Repr

/-- `Add8(a, b, c)` (R160), always binary (R30). -/
def add8 (a b : Byte) (c : Bool) : Sum8 :=
  let s := a.toNat + b.toNat + c.toNat
  let r := BitVec.ofNat 8 s
  { r := r
    c := decide (s > 0xFF)
    v := decide ((a ^^^ r) &&& (b ^^^ r) &&& 0x80 ≠ 0) }

/-- The flags an addition writes: C, V, then N and Z (R161, R162). -/
def sumFlags (p : Byte) (s : Sum8) : Byte :=
  setNZ (setFlag (setFlag p Flag.C.index s.c) Flag.V.index s.v) s.r

/-- `Compare(reg, m)` on P (R180): C, Z, N. -/
def compareFlags (p reg m : Byte) : Byte :=
  let t := reg - m
  setFlag (setFlag (setFlag p Flag.C.index (decide (reg.toNat ≥ m.toNat))) Flag.Z.index (decide (reg = m)))
    Flag.N.index t.msb

/-- The flags of BIT (R184): N and V from the operand, Z from the AND. -/
def bitTestFlags (p acc m : Byte) : Byte :=
  setFlag (setFlag (setFlag p Flag.N.index (m.getLsbD 7)) Flag.V.index (m.getLsbD 6)) Flag.Z.index (decide (acc &&& m = 0))

/-- The flags of a shift or rotate: C from the bit shifted out, N and Z from the result (R170). -/
def shiftFlags (p r : Byte) (out : Bool) : Byte := setNZ (setFlag p Flag.C.index out) r

/-- P as PHP and BRK push it: bits 5 (U) and 4 (B) set in the copy (R29, R201). -/
def pushedStatus (p : Byte) : Byte := p ||| 0x30

/-- P after PLP or RTI pulled `v`: U and B keep their values (R29, R203). -/
def pulledStatus (p v : Byte) : Byte := (v &&& 0xCF) ||| (p &&& 0x30)

end Sys2Proof.Machine
end

