-- ==== Sys2Proof/Machine/Ops.lean ====
section
/-! DEFINITION. The operations every instruction is made of: register access (00_scope.md R10), bus access (R11), the fetch
unit (30_encoding.md R82), the stack (20_memory.md R61, R62), and the one trap entry and its return (60_exceptions.md R237,
R238). -/

namespace Sys2Proof.Machine

/-! ### Steps that can fail -/

/-- The result of part of an instruction: a value and the state reached, or the fault that ends the dispatch (R11: `raise`
aborts, and what was written stays written). -/
inductive Res (α : Type) where
  | ok (v : α) (s : State)
  | fail (f : Fault)

/-- One part after another; the first failing one ends the instruction (R111, R235). -/
def Res.andThen {α β : Type} (r : Res α) (k : α → State → Res β) : Res β :=
  match r with
  | .ok v s => k v s
  | .fail f => .fail f

/-- The result of an instruction. -/
abbrev Result := Host.Outcome State Fault Refusal

/-- The end of an instruction: `Ok` with the state reached, or the error (R110). -/
def Res.finish (r : Res Unit) : Result :=
  match r with
  | .ok _ s => .next s
  | .fail f => .fault f

/-! ### Registers -/

def State.setPc (s : State) (v : Addr) : State := { s with pc := v }
def State.setSp (s : State) (v : Byte) : State := { s with sp := v }
def State.setA (s : State) (v : Byte) : State := { s with a := v }
def State.setX (s : State) (v : Byte) : State := { s with x := v }
def State.setY (s : State) (v : Byte) : State := { s with y := v }
def State.setP (s : State) (v : Byte) : State := { s with p := v }
def State.setBus (s : State) (b : Bus) : State := { s with bus := b }

/-- The 8-bit registers `x[r]` of R10. -/
inductive Reg where
  | A | X | Y | SP | P
deriving DecidableEq, Repr

/-- `x[r]` (R10). -/
def State.get (s : State) : Reg → Byte
  | .A => s.a
  | .X => s.x
  | .Y => s.y
  | .SP => s.sp
  | .P => s.p

/-- `x[r] <- v` (R10). No register is hard-wired (R21, R33). -/
def State.set (s : State) (r : Reg) (v : Byte) : State :=
  match r with
  | .A => s.setA v
  | .X => s.setX v
  | .Y => s.setY v
  | .SP => s.setSp v
  | .P => s.setP v

/-- `flag(F)` (R10, R28). -/
def State.flag (s : State) (f : Flag) : Bool := getFlag s.p f.index

/-- `flag(F) <- b` (R10, R28). -/
def State.setFlag (s : State) (f : Flag) (b : Bool) : State := s.setP (Machine.setFlag s.p f.index b)

/-- `SetNZ(v)` (R10, R31). -/
def State.setNZ (s : State) (v : Byte) : State := s.setP (Machine.setNZ s.p v)

/-! ### The bus -/

/-- `MemRead(addr, 1)` (R11, R51). -/
def memRead (addr : Addr) (s : State) : Res Byte :=
  match s.bus.read addr with
  | some (v, b) => .ok v (s.setBus b)
  | none => .fail (.busError addr .read s)

/-- `MemWrite(addr, 1, v)` (R11, R53). -/
def memWrite (addr : Addr) (v : Byte) (s : State) : Res Unit :=
  match s.bus.write addr v with
  | some b => .ok () (s.setBus b)
  | none => .fail (.busError addr .write s)

/-! ### The fetch unit -/

/-- `FetchByte()` (R82): read at `pc`, then increment `pc`; a failing read leaves `pc` unincremented. -/
def fetchByte (s : State) : Res Byte :=
  (memRead s.pc s).andThen fun v t => .ok v (t.setPc (t.pc + 1))

/-- `n` instruction-stream bytes, in stream order. -/
def fetchBytes : Nat → State → Res (List Byte)
  | 0, s => .ok [] s
  | n + 1, s =>
    (fetchByte s).andThen fun b t =>
      (fetchBytes n t).andThen fun bs u => .ok (b :: bs) u

/-- The opcode fetch, the table and the operand bytes (R83, R84, R110; log 8). An opcode without a handler raises
IllegalOpcode after the opcode fetch (R103). A truncated instruction cannot arise: the bytes the mode needs were fetched. -/
def fetchInstr (s : State) : Res Instr :=
  (fetchByte s).andThen fun op t =>
    (fetchBytes (operandCount t.cfg.absIndexed op) t).andThen fun bs u =>
      match decode u.cfg.absIndexed (op :: bs) with
      | .ok (i, _) => .ok i u
      | .error _ => .fail (.illegalOpcode op u)

/-! ### The stack -/

/-- `(STACK_PAGE << 8) | x[SP]` (R60). -/
def State.stackAddr (s : State) : Addr := wordOf s.sp s.cfg.stackPage

/-- `Push(v)` (R61): write, then decrement SP; a failing write leaves SP unchanged. -/
def push (v : Byte) (s : State) : Res Unit :=
  (memWrite s.stackAddr v s).andThen fun _ t => .ok () (t.setSp (t.sp - 1))

/-- `Pull()` (R62): increment SP, then read; a failing read leaves SP incremented. -/
def pull (s : State) : Res Byte :=
  let t := s.setSp (s.sp + 1)
  memRead t.stackAddr t

/-- A 16-bit value onto the stack, high byte first (R63, R204). -/
def pushWord (w : Addr) (s : State) : Res Unit :=
  (push (hiByte w) s).andThen fun _ t => push (loByte w) t

/-- A 16-bit value from the stack, low byte first (R205). -/
def pullWord (s : State) : Res Addr :=
  (pull s).andThen fun lo t =>
    (pull t).andThen fun hi u => .ok (wordOf lo hi) u

/-- The flag byte from the stack, U and B kept (R203, R206). -/
def pullStatus (s : State) : Res Unit :=
  (pull s).andThen fun v t => .ok () (t.setP (pulledStatus t.p v))

/-! ### Taking the trap, and returning from it -/

/-- The address of the low byte of the BRK vector (R67, R207). -/
def breakVector : Addr := 0xFFFE

/-- Trap entry (R237, R207): push the return address, push P with bits 5 and 4 set, set I, take `pc` from the vector. -/
def trapEntry (ret : Addr) (s : State) : Res Unit :=
  (pushWord ret s).andThen fun _ t =>
    (push (pushedStatus t.p) t).andThen fun _ u =>
      (memRead breakVector (u.setFlag .I true)).andThen fun lo v =>
        (memRead (breakVector + 1) v).andThen fun hi w => .ok () (w.setPc (wordOf lo hi))

/-- Trap return (R238, R206): restore P but for bits 5 and 4, then `pc`, without adding 1. -/
def trapReturn (s : State) : Res Unit :=
  (pullStatus s).andThen fun _ t =>
    (pullWord t).andThen fun ret u => .ok () (u.setPc ret)

end Sys2Proof.Machine
end

