-- ==== Sys2Proof/Machine/Operands.lean ====
section
/-! DEFINITION. The address resolver (30_encoding.md R85 to R97) and the Operand References it makes (20_memory.md R54 to
R58). The stream bytes of the operand have been fetched (fetchInstr; R98: `pc` is past the instruction); what is left of
`Resolve` is the address arithmetic and the pointer reads. -/

namespace Sys2Proof.Machine

/-- An Operand Reference: exactly three variants (R54). -/
inductive Ref where
  | reg (r : Reg)
  | lit (v : Byte)
  | mem (a : Addr)
deriving DecidableEq, Repr

/-- Zero page plus an index, wrapping within the zero page (R93). -/
def zeroPageIndexed (base ix : Byte) : Addr := zext (base + ix)

/-- Absolute plus an index (R94): `two_byte` wraps mod 2^16; `source_one_byte` adds the one address byte and the index. -/
def absoluteIndexed (f : AbsIndexed) (base : Addr) (ix : Byte) : Addr :=
  match f with
  | .twoByte => base + zext ix
  | .sourceOneByte => zext (loByte base) + zext ix

/-- How two pointer bytes make an address (R95, R96): little-endian, or `(b1 + b2) * 256` reduced mod 2^16 (R74). -/
def combine (f : IndirectCombine) (b1 b2 : Byte) : Addr :=
  match f with
  | .littleEndian => wordOf b1 b2
  | .sourceSum => BitVec.ofNat 16 ((b1.toNat + b2.toNat) * 256)

/-- Where the second byte of a JMP pointer is read: the low byte of the pointer is incremented mod 256, the high byte kept
(R97). -/
def pointerHigh (ptr : Addr) : Addr := wordOf (loByte ptr + 1) (hiByte ptr)

/-- Two bytes read one after the other, combined by `k`. -/
def readPair (a1 a2 : Addr) (k : Byte → Byte → Addr) (s : State) : Res Addr :=
  (memRead a1 s).andThen fun b1 t =>
    (memRead a2 t).andThen fun b2 u => .ok (k b1 b2) u

/-- The address a memory operand resolves to. `pc` is past the instruction, so the offset byte of a Relative operand is at
`pc - 1` (R92, R98). -/
def resolveAddr (m : MemOperand) (s : State) : Res Addr :=
  match m with
  | .abs a => .ok a s
  | .zp b => .ok (zext b) s
  | .rel off => .ok (s.pc - 1 + sext off) s
  | .zpX b => .ok (zeroPageIndexed b s.x) s
  | .zpY b => .ok (zeroPageIndexed b s.y) s
  | .absX base => .ok (absoluteIndexed s.cfg.absIndexed base s.x) s
  | .absY base => .ok (absoluteIndexed s.cfg.absIndexed base s.y) s
  | .indX p => readPair (zext (p + s.x)) (zext (p + s.x + 1)) (combine s.cfg.indirectCombine) s
  | .indY p => readPair (zext p) (zext (p + 1)) (fun b1 b2 => combine s.cfg.indirectCombine b1 b2 + zext s.y) s
  | .ind ptr => readPair ptr (pointerHigh ptr) wordOf s

/-- `Resolve(mode)` (R86 to R97). -/
def resolve (o : Operand) (s : State) : Res Ref :=
  match o with
  | .acc => .ok (.reg .A) s
  | .imm v => .ok (.lit v) s
  | .mem m => (resolveAddr m s).andThen fun a t => .ok (.mem a) t

/-- `ReadRef(ref)` (R55). -/
def readRef (ref : Ref) (s : State) : Res Byte :=
  match ref with
  | .reg r => .ok (s.get r) s
  | .lit v => .ok v s
  | .mem a => memRead a s

/-- `WriteRef(ref, v)` (R56): a write through a Literal is an error of its own, with no state change (R232, U3). -/
def writeRef (ref : Ref) (v : Byte) (s : State) : Res Unit :=
  match ref with
  | .reg r => .ok () (s.set r v)
  | .lit _ => .fail (.literalWrite s)
  | .mem a => memWrite a v s

/-- `ref <- Resolve(mode); v <- ReadRef(ref)` (R111). -/
def readOperand (o : Operand) (s : State) : Res Byte :=
  (resolve o s).andThen readRef

/-- `ref <- Resolve(mode); WriteRef(ref, v)` (R111, R210). -/
def writeOperand (o : Operand) (v : Byte) (s : State) : Res Unit :=
  (resolve o s).andThen fun ref t => writeRef ref v t

/-- Read through a reference, compute, write back through the same reference, then write P (R111, R140, R170). `f` gives
the result and the new P. -/
def modifyOperand (o : Operand) (f : State → Byte → Byte × (Byte → Byte)) (s : State) : Res Unit :=
  (resolve o s).andThen fun ref t =>
    (readRef ref t).andThen fun v u =>
      (writeRef ref (f u v).1 u).andThen fun _ w => .ok () (w.setP ((f u v).2 w.p))

end Sys2Proof.Machine
end

