-- ==== Sys2Proof/Machine/Arith.lean ====
section
/-! DEFINITION. Additive arithmetic: ADC, SBC (43_arith.md R160 to R162). -/

namespace Sys2Proof.Machine

/-- A plus `f m` plus carry, for the operand m, into A with C, V, N and Z (R161, R162). -/
def addToAccumulator (f : Byte → Byte) (o : Operand) (s : State) : Result :=
  ((readOperand o s).andThen fun m t =>
    let sum := add8 t.a (f m) (t.flag .C)
    .ok () ((t.setA sum.r).setP (sumFlags t.p sum))).finish

/-- ADC (R161). -/
def addWithCarry (o : Operand) (s : State) : Result := addToAccumulator (fun m => m) o s

/-- SBC (R162): the complement of the operand is added, so C is an inverted borrow. -/
def subtractWithBorrow (o : Operand) (s : State) : Result := addToAccumulator (fun m => ~~~m) o s

/-- 69, ADC # (R161). -/
def execAdcImm (v : Byte) (s : State) : Result := addWithCarry (.imm v) s

/-- 65, ADC zp (R161). -/
def execAdcZp (b : Byte) (s : State) : Result := addWithCarry (.mem (.zp b)) s

/-- 75, ADC zp,X (R161). -/
def execAdcZpX (b : Byte) (s : State) : Result := addWithCarry (.mem (.zpX b)) s

/-- 6D, ADC abs (R161). -/
def execAdcAbs (a : Addr) (s : State) : Result := addWithCarry (.mem (.abs a)) s

/-- 7D, ADC abs,X (R161). -/
def execAdcAbsX (a : Addr) (s : State) : Result := addWithCarry (.mem (.absX a)) s

/-- 79, ADC abs,Y (R161). -/
def execAdcAbsY (a : Addr) (s : State) : Result := addWithCarry (.mem (.absY a)) s

/-- 61, ADC (zp,X) (R161). -/
def execAdcIndX (q : Byte) (s : State) : Result := addWithCarry (.mem (.indX q)) s

/-- 71, ADC (zp),Y (R161). -/
def execAdcIndY (q : Byte) (s : State) : Result := addWithCarry (.mem (.indY q)) s

/-- E9, SBC # (R162). -/
def execSbcImm (v : Byte) (s : State) : Result := subtractWithBorrow (.imm v) s

/-- E5, SBC zp (R162). -/
def execSbcZp (b : Byte) (s : State) : Result := subtractWithBorrow (.mem (.zp b)) s

/-- F5, SBC zp,X (R162). -/
def execSbcZpX (b : Byte) (s : State) : Result := subtractWithBorrow (.mem (.zpX b)) s

/-- ED, SBC abs (R162). -/
def execSbcAbs (a : Addr) (s : State) : Result := subtractWithBorrow (.mem (.abs a)) s

/-- FD, SBC abs,X (R162). -/
def execSbcAbsX (a : Addr) (s : State) : Result := subtractWithBorrow (.mem (.absX a)) s

/-- F9, SBC abs,Y (R162). -/
def execSbcAbsY (a : Addr) (s : State) : Result := subtractWithBorrow (.mem (.absY a)) s

/-- E1, SBC (zp,X) (R162). -/
def execSbcIndX (q : Byte) (s : State) : Result := subtractWithBorrow (.mem (.indX q)) s

/-- F1, SBC (zp),Y (R162). -/
def execSbcIndY (q : Byte) (s : State) : Result := subtractWithBorrow (.mem (.indY q)) s

end Sys2Proof.Machine
end

