-- ==== Sys2Proof/Machine/Branch.lean ====
section
/-! DEFINITION. Conditional branches and JMP (47_branch_jump.md R190 to R199). The target of a branch counts from the offset byte (R92, 90_conflicts.md C1). -/

namespace Sys2Proof.Machine

/-- The branch family (R190): resolve the Relative operand, then take its address if the flag has the value wanted. The
target byte is not read. -/
def branchIf (f : Flag) (wanted : Bool) (off : Byte) (s : State) : Result :=
  ((resolveAddr (.rel off) s).andThen fun target t =>
    .ok () (if t.flag f = wanted then t.setPc target else t)).finish

/-- JMP (R199): `pc <- AddrOf(ref)`; nothing is pushed and the target byte is not read. -/
def jumpTo (m : MemOperand) (s : State) : Result :=
  ((resolveAddr m s).andThen fun target t => .ok () (t.setPc target)).finish

/-- 10, BPL rel (R191). -/
def execBpl (d : Byte) (s : State) : Result := branchIf .N false d s

/-- 30, BMI rel (R192). -/
def execBmi (d : Byte) (s : State) : Result := branchIf .N true d s

/-- 50, BVC rel (R193). -/
def execBvc (d : Byte) (s : State) : Result := branchIf .V false d s

/-- 70, BVS rel (R194). -/
def execBvs (d : Byte) (s : State) : Result := branchIf .V true d s

/-- 90, BCC rel (R195). -/
def execBcc (d : Byte) (s : State) : Result := branchIf .C false d s

/-- B0, BCS rel (R196). -/
def execBcs (d : Byte) (s : State) : Result := branchIf .C true d s

/-- D0, BNE rel (R197). -/
def execBne (d : Byte) (s : State) : Result := branchIf .Z false d s

/-- F0, BEQ rel (R198). -/
def execBeq (d : Byte) (s : State) : Result := branchIf .Z true d s

/-- 4C, JMP abs (R199). -/
def execJmpAbs (a : Addr) (s : State) : Result := jumpTo (.abs a) s

/-- 6C, JMP (ind) (R199). -/
def execJmpInd (q : Addr) (s : State) : Result := jumpTo (.ind q) s

end Sys2Proof.Machine
end

