-- ==== Sys2Proof/Machine/Compare.lean ====
section
/-! DEFINITION. Compares and bit test: CMP, CPX, CPY, BIT (46_compare_bit.md R180 to R184). -/

namespace Sys2Proof.Machine

/-- The compare family (R180): C, Z and N from a register and the operand; no register is written. -/
def compareRegister (r : Reg) (o : Operand) (s : State) : Result :=
  ((readOperand o s).andThen fun m t => .ok () (t.setP (compareFlags t.p (t.get r) m))).finish

/-- BIT (R184): N and V from the operand, Z from A AND the operand. -/
def bitTest (o : Operand) (s : State) : Result :=
  ((readOperand o s).andThen fun m t => .ok () (t.setP (bitTestFlags t.p t.a m))).finish

/-- C9, CMP # (R181). -/
def execCmpImm (v : Byte) (s : State) : Result := compareRegister .A (.imm v) s

/-- C5, CMP zp (R181). -/
def execCmpZp (b : Byte) (s : State) : Result := compareRegister .A (.mem (.zp b)) s

/-- D5, CMP zp,X (R181). -/
def execCmpZpX (b : Byte) (s : State) : Result := compareRegister .A (.mem (.zpX b)) s

/-- CD, CMP abs (R181). -/
def execCmpAbs (a : Addr) (s : State) : Result := compareRegister .A (.mem (.abs a)) s

/-- DD, CMP abs,X (R181). -/
def execCmpAbsX (a : Addr) (s : State) : Result := compareRegister .A (.mem (.absX a)) s

/-- D9, CMP abs,Y (R181). -/
def execCmpAbsY (a : Addr) (s : State) : Result := compareRegister .A (.mem (.absY a)) s

/-- C1, CMP (zp,X) (R181). -/
def execCmpIndX (q : Byte) (s : State) : Result := compareRegister .A (.mem (.indX q)) s

/-- D1, CMP (zp),Y (R181). -/
def execCmpIndY (q : Byte) (s : State) : Result := compareRegister .A (.mem (.indY q)) s

/-- E0, CPX # (R182). -/
def execCpxImm (v : Byte) (s : State) : Result := compareRegister .X (.imm v) s

/-- E4, CPX zp (R182). -/
def execCpxZp (b : Byte) (s : State) : Result := compareRegister .X (.mem (.zp b)) s

/-- EC, CPX abs (R182). -/
def execCpxAbs (a : Addr) (s : State) : Result := compareRegister .X (.mem (.abs a)) s

/-- C0, CPY # (R183). -/
def execCpyImm (v : Byte) (s : State) : Result := compareRegister .Y (.imm v) s

/-- C4, CPY zp (R183). -/
def execCpyZp (b : Byte) (s : State) : Result := compareRegister .Y (.mem (.zp b)) s

/-- CC, CPY abs (R183). -/
def execCpyAbs (a : Addr) (s : State) : Result := compareRegister .Y (.mem (.abs a)) s

/-- 24, BIT zp (R184). -/
def execBitZp (b : Byte) (s : State) : Result := bitTest (.mem (.zp b)) s

/-- 2C, BIT abs (R184). -/
def execBitAbs (a : Addr) (s : State) : Result := bitTest (.mem (.abs a)) s

end Sys2Proof.Machine
end

