-- ==== Sys2Proof/Machine/FlagInstr.lean ====
section
/-! DEFINITION. Flag instructions: SEC, SED, SEI, CLC, CLD, CLI, CLV (42_flag.md R150 to R157). -/

namespace Sys2Proof.Machine

/-- The flag family (R150): one flag is written, nothing else. -/
def writeFlag (f : Flag) (b : Bool) (s : State) : Result := .next (s.setFlag f b)

/-- 38, SEC imp (R151). -/
def execSec (s : State) : Result := writeFlag .C true s

/-- F8, SED imp (R152). -/
def execSed (s : State) : Result := writeFlag .D true s

/-- 78, SEI imp (R153). -/
def execSei (s : State) : Result := writeFlag .I true s

/-- 18, CLC imp (R154). -/
def execClc (s : State) : Result := writeFlag .C false s

/-- D8, CLD imp (R155). -/
def execCld (s : State) : Result := writeFlag .D false s

/-- 58, CLI imp (R156). -/
def execCli (s : State) : Result := writeFlag .I false s

/-- B8, CLV imp (R157). -/
def execClv (s : State) : Result := writeFlag .V false s

end Sys2Proof.Machine
end

