-- ==== Sys2Proof/Machine/IncDec.lean ====
section
/-! DEFINITION. Increments and decrements: INC, DEC, INX, INY, DEX, DEY (41_incdec.md R140 to R145). -/

namespace Sys2Proof.Machine

/-- `d` is added to the operand in memory, mod 2^8: one read, one write at the same address, then N and Z (R140, R141). -/
def addToMemory (d : Byte) (o : Operand) (s : State) : Result :=
  (modifyOperand o (fun _ v => (v + d, fun p => setNZ p (v + d))) s).finish

/-- `d` is added to an index register, mod 2^8, then N and Z (R142 to R145). -/
def addToRegister (d : Byte) (r : Reg) (s : State) : Result :=
  .next ((s.set r (s.get r + d)).setNZ (s.get r + d))

/-- E6, INC zp (R140). -/
def execIncZp (b : Byte) (s : State) : Result := addToMemory 1 (.mem (.zp b)) s

/-- F6, INC zp,X (R140). -/
def execIncZpX (b : Byte) (s : State) : Result := addToMemory 1 (.mem (.zpX b)) s

/-- EE, INC abs (R140). -/
def execIncAbs (a : Addr) (s : State) : Result := addToMemory 1 (.mem (.abs a)) s

/-- FE, INC abs,X (R140). -/
def execIncAbsX (a : Addr) (s : State) : Result := addToMemory 1 (.mem (.absX a)) s

/-- C6, DEC zp (R141). -/
def execDecZp (b : Byte) (s : State) : Result := addToMemory (-1) (.mem (.zp b)) s

/-- D6, DEC zp,X (R141). -/
def execDecZpX (b : Byte) (s : State) : Result := addToMemory (-1) (.mem (.zpX b)) s

/-- CE, DEC abs (R141). -/
def execDecAbs (a : Addr) (s : State) : Result := addToMemory (-1) (.mem (.abs a)) s

/-- DE, DEC abs,X (R141). -/
def execDecAbsX (a : Addr) (s : State) : Result := addToMemory (-1) (.mem (.absX a)) s

/-- E8, INX imp (R142). -/
def execInx (s : State) : Result := addToRegister 1 .X s

/-- C8, INY imp (R143). -/
def execIny (s : State) : Result := addToRegister 1 .Y s

/-- CA, DEX imp (R144). -/
def execDex (s : State) : Result := addToRegister (-1) .X s

/-- 88, DEY imp (R145). -/
def execDey (s : State) : Result := addToRegister (-1) .Y s

end Sys2Proof.Machine
end

