-- ==== Sys2Proof/Machine/Load.lean ====
section
/-! DEFINITION. Load instructions: LDA, LDX, LDY (40_load.md R130 to R133). -/

namespace Sys2Proof.Machine

/-- The load family (R130): the operand into `r`, then N and Z from it. -/
def loadRegister (r : Reg) (o : Operand) (s : State) : Result :=
  ((readOperand o s).andThen fun v t => .ok () ((t.set r v).setNZ v)).finish

/-- A9, LDA # (R131). -/
def execLdaImm (v : Byte) (s : State) : Result := loadRegister .A (.imm v) s

/-- A5, LDA zp (R131). -/
def execLdaZp (b : Byte) (s : State) : Result := loadRegister .A (.mem (.zp b)) s

/-- B5, LDA zp,X (R131). -/
def execLdaZpX (b : Byte) (s : State) : Result := loadRegister .A (.mem (.zpX b)) s

/-- AD, LDA abs (R131). -/
def execLdaAbs (a : Addr) (s : State) : Result := loadRegister .A (.mem (.abs a)) s

/-- BD, LDA abs,X (R131). -/
def execLdaAbsX (a : Addr) (s : State) : Result := loadRegister .A (.mem (.absX a)) s

/-- B9, LDA abs,Y (R131). -/
def execLdaAbsY (a : Addr) (s : State) : Result := loadRegister .A (.mem (.absY a)) s

/-- A1, LDA (zp,X) (R131). -/
def execLdaIndX (q : Byte) (s : State) : Result := loadRegister .A (.mem (.indX q)) s

/-- B1, LDA (zp),Y (R131). -/
def execLdaIndY (q : Byte) (s : State) : Result := loadRegister .A (.mem (.indY q)) s

/-- A2, LDX # (R132). -/
def execLdxImm (v : Byte) (s : State) : Result := loadRegister .X (.imm v) s

/-- A6, LDX zp (R132). -/
def execLdxZp (b : Byte) (s : State) : Result := loadRegister .X (.mem (.zp b)) s

/-- B6, LDX zp,Y (R132). -/
def execLdxZpY (b : Byte) (s : State) : Result := loadRegister .X (.mem (.zpY b)) s

/-- AE, LDX abs (R132). -/
def execLdxAbs (a : Addr) (s : State) : Result := loadRegister .X (.mem (.abs a)) s

/-- BE, LDX abs,Y (R132). -/
def execLdxAbsY (a : Addr) (s : State) : Result := loadRegister .X (.mem (.absY a)) s

/-- A0, LDY # (R133). -/
def execLdyImm (v : Byte) (s : State) : Result := loadRegister .Y (.imm v) s

/-- A4, LDY zp (R133). -/
def execLdyZp (b : Byte) (s : State) : Result := loadRegister .Y (.mem (.zp b)) s

/-- B4, LDY zp,X (R133). -/
def execLdyZpX (b : Byte) (s : State) : Result := loadRegister .Y (.mem (.zpX b)) s

/-- AC, LDY abs (R133). -/
def execLdyAbs (a : Addr) (s : State) : Result := loadRegister .Y (.mem (.abs a)) s

/-- BC, LDY abs,X (R133). -/
def execLdyAbsX (a : Addr) (s : State) : Result := loadRegister .Y (.mem (.absX a)) s

end Sys2Proof.Machine
end

