-- ==== Sys2Proof/Machine/Logic.lean ====
section
/-! DEFINITION. Logical instructions: AND, ORA, EOR (44_logic.md R165 to R167). -/

namespace Sys2Proof.Machine

/-- `op` of A and the operand into A, then N and Z (R165 to R167). -/
def combineAccumulator (op : Byte → Byte → Byte) (o : Operand) (s : State) : Result :=
  ((readOperand o s).andThen fun m t => .ok () ((t.setA (op t.a m)).setNZ (op t.a m))).finish

/-- 29, AND # (R165). -/
def execAndImm (v : Byte) (s : State) : Result := combineAccumulator (· &&& ·) (.imm v) s

/-- 25, AND zp (R165). -/
def execAndZp (b : Byte) (s : State) : Result := combineAccumulator (· &&& ·) (.mem (.zp b)) s

/-- 35, AND zp,X (R165). -/
def execAndZpX (b : Byte) (s : State) : Result := combineAccumulator (· &&& ·) (.mem (.zpX b)) s

/-- 2D, AND abs (R165). -/
def execAndAbs (a : Addr) (s : State) : Result := combineAccumulator (· &&& ·) (.mem (.abs a)) s

/-- 3D, AND abs,X (R165). -/
def execAndAbsX (a : Addr) (s : State) : Result := combineAccumulator (· &&& ·) (.mem (.absX a)) s

/-- 39, AND abs,Y (R165). -/
def execAndAbsY (a : Addr) (s : State) : Result := combineAccumulator (· &&& ·) (.mem (.absY a)) s

/-- 21, AND (zp,X) (R165). -/
def execAndIndX (q : Byte) (s : State) : Result := combineAccumulator (· &&& ·) (.mem (.indX q)) s

/-- 31, AND (zp),Y (R165). -/
def execAndIndY (q : Byte) (s : State) : Result := combineAccumulator (· &&& ·) (.mem (.indY q)) s

/-- 09, ORA # (R166). -/
def execOraImm (v : Byte) (s : State) : Result := combineAccumulator (· ||| ·) (.imm v) s

/-- 05, ORA zp (R166). -/
def execOraZp (b : Byte) (s : State) : Result := combineAccumulator (· ||| ·) (.mem (.zp b)) s

/-- 15, ORA zp,X (R166). -/
def execOraZpX (b : Byte) (s : State) : Result := combineAccumulator (· ||| ·) (.mem (.zpX b)) s

/-- 0D, ORA abs (R166). -/
def execOraAbs (a : Addr) (s : State) : Result := combineAccumulator (· ||| ·) (.mem (.abs a)) s

/-- 1D, ORA abs,X (R166). -/
def execOraAbsX (a : Addr) (s : State) : Result := combineAccumulator (· ||| ·) (.mem (.absX a)) s

/-- 19, ORA abs,Y (R166). -/
def execOraAbsY (a : Addr) (s : State) : Result := combineAccumulator (· ||| ·) (.mem (.absY a)) s

/-- 01, ORA (zp,X) (R166). -/
def execOraIndX (q : Byte) (s : State) : Result := combineAccumulator (· ||| ·) (.mem (.indX q)) s

/-- 11, ORA (zp),Y (R166). -/
def execOraIndY (q : Byte) (s : State) : Result := combineAccumulator (· ||| ·) (.mem (.indY q)) s

/-- 49, EOR # (R167). -/
def execEorImm (v : Byte) (s : State) : Result := combineAccumulator (· ^^^ ·) (.imm v) s

/-- 45, EOR zp (R167). -/
def execEorZp (b : Byte) (s : State) : Result := combineAccumulator (· ^^^ ·) (.mem (.zp b)) s

/-- 55, EOR zp,X (R167). -/
def execEorZpX (b : Byte) (s : State) : Result := combineAccumulator (· ^^^ ·) (.mem (.zpX b)) s

/-- 4D, EOR abs (R167). -/
def execEorAbs (a : Addr) (s : State) : Result := combineAccumulator (· ^^^ ·) (.mem (.abs a)) s

/-- 5D, EOR abs,X (R167). -/
def execEorAbsX (a : Addr) (s : State) : Result := combineAccumulator (· ^^^ ·) (.mem (.absX a)) s

/-- 59, EOR abs,Y (R167). -/
def execEorAbsY (a : Addr) (s : State) : Result := combineAccumulator (· ^^^ ·) (.mem (.absY a)) s

/-- 41, EOR (zp,X) (R167). -/
def execEorIndX (q : Byte) (s : State) : Result := combineAccumulator (· ^^^ ·) (.mem (.indX q)) s

/-- 51, EOR (zp),Y (R167). -/
def execEorIndY (q : Byte) (s : State) : Result := combineAccumulator (· ^^^ ·) (.mem (.indY q)) s

end Sys2Proof.Machine
end

