-- ==== Sys2Proof/Machine/Shift.lean ====
section
/-! DEFINITION. Shifts and rotates: ASL, LSR, ROL, ROR (45_shift.md R170 to R174). -/

namespace Sys2Proof.Machine

/-- The result of a shift and the bit shifted out. -/
structure Shifted where
  r : Byte
  out : Bool
deriving DecidableEq, Repr

/-- The carry as a byte, `flag(C) ? 1 : 0`. -/
def carryBit (c : Bool) : Byte := if c then 1 else 0

/-- ASL on a byte (R171); the carry in is not used. -/
def aslByte (_c : Bool) (v : Byte) : Shifted := { r := v <<< 1, out := v.getLsbD 7 }

/-- LSR on a byte (R172); the carry in is not used. -/
def lsrByte (_c : Bool) (v : Byte) : Shifted := { r := v >>> 1, out := v.getLsbD 0 }

/-- ROL on a byte (R173). -/
def rolByte (c : Bool) (v : Byte) : Shifted := { r := (v <<< 1) ||| carryBit c, out := v.getLsbD 7 }

/-- ROR on a byte (R174). -/
def rorByte (c : Bool) (v : Byte) : Shifted := { r := (v >>> 1) ||| (carryBit c <<< 7), out := v.getLsbD 0 }

/-- The shift family (R170): read, compute from the old carry, write back, then C, N and Z. -/
def shiftOperand (f : Bool → Byte → Shifted) (o : Operand) (s : State) : Result :=
  (modifyOperand o (fun u v => ((f (u.flag .C) v).r, fun p => shiftFlags p (f (u.flag .C) v).r (f (u.flag .C) v).out)) s).finish

/-- 0A, ASL A (R171). -/
def execAslA (s : State) : Result := shiftOperand aslByte .acc s

/-- 06, ASL zp (R171). -/
def execAslZp (b : Byte) (s : State) : Result := shiftOperand aslByte (.mem (.zp b)) s

/-- 16, ASL zp,X (R171). -/
def execAslZpX (b : Byte) (s : State) : Result := shiftOperand aslByte (.mem (.zpX b)) s

/-- 0E, ASL abs (R171). -/
def execAslAbs (a : Addr) (s : State) : Result := shiftOperand aslByte (.mem (.abs a)) s

/-- 1E, ASL abs,X (R171). -/
def execAslAbsX (a : Addr) (s : State) : Result := shiftOperand aslByte (.mem (.absX a)) s

/-- 4A, LSR A (R172). -/
def execLsrA (s : State) : Result := shiftOperand lsrByte .acc s

/-- 46, LSR zp (R172). -/
def execLsrZp (b : Byte) (s : State) : Result := shiftOperand lsrByte (.mem (.zp b)) s

/-- 56, LSR zp,X (R172). -/
def execLsrZpX (b : Byte) (s : State) : Result := shiftOperand lsrByte (.mem (.zpX b)) s

/-- 4E, LSR abs (R172). -/
def execLsrAbs (a : Addr) (s : State) : Result := shiftOperand lsrByte (.mem (.abs a)) s

/-- 5E, LSR abs,X (R172). -/
def execLsrAbsX (a : Addr) (s : State) : Result := shiftOperand lsrByte (.mem (.absX a)) s

/-- 2A, ROL A (R173). -/
def execRolA (s : State) : Result := shiftOperand rolByte .acc s

/-- 26, ROL zp (R173). -/
def execRolZp (b : Byte) (s : State) : Result := shiftOperand rolByte (.mem (.zp b)) s

/-- 36, ROL zp,X (R173). -/
def execRolZpX (b : Byte) (s : State) : Result := shiftOperand rolByte (.mem (.zpX b)) s

/-- 2E, ROL abs (R173). -/
def execRolAbs (a : Addr) (s : State) : Result := shiftOperand rolByte (.mem (.abs a)) s

/-- 3E, ROL abs,X (R173). -/
def execRolAbsX (a : Addr) (s : State) : Result := shiftOperand rolByte (.mem (.absX a)) s

/-- 6A, ROR A (R174). -/
def execRorA (s : State) : Result := shiftOperand rorByte .acc s

/-- 66, ROR zp (R174). -/
def execRorZp (b : Byte) (s : State) : Result := shiftOperand rorByte (.mem (.zp b)) s

/-- 76, ROR zp,X (R174). -/
def execRorZpX (b : Byte) (s : State) : Result := shiftOperand rorByte (.mem (.zpX b)) s

/-- 6E, ROR abs (R174). -/
def execRorAbs (a : Addr) (s : State) : Result := shiftOperand rorByte (.mem (.abs a)) s

/-- 7E, ROR abs,X (R174). -/
def execRorAbsX (a : Addr) (s : State) : Result := shiftOperand rorByte (.mem (.absX a)) s

end Sys2Proof.Machine
end

