-- ==== Sys2Proof/Machine/Stack.lean ====
section
/-! DEFINITION. Stack, subroutine and break instructions: PHA, PHP, PLA, PLP, JSR, RTS, RTI, BRK (48_stack_subroutine.md R200 to R207). -/

namespace Sys2Proof.Machine

/-- 48, PHA imp (R200): push A. -/
def execPha (s : State) : Result := (push s.a s).finish

/-- 08, PHP imp (R201): push P with bits 5 and 4 set in the copy. -/
def execPhp (s : State) : Result := (push (pushedStatus s.p) s).finish

/-- 68, PLA imp (R202): pull A, then N and Z. -/
def execPla (s : State) : Result :=
  ((pull s).andThen fun v t => .ok () ((t.setA v).setNZ v)).finish

/-- 28, PLP imp (R203): pull P, keeping U and B. -/
def execPlp (s : State) : Result := (pullStatus s).finish

/-- 20, JSR abs (R204): push P + 2, the address of its own last byte (`pc` is P + 3), high byte first, then take the target. -/
def execJsr (a : Addr) (s : State) : Result :=
  ((resolveAddr (.abs a) s).andThen fun target t =>
    (pushWord (t.pc - 1) t).andThen fun _ u => .ok () (u.setPc target)).finish

/-- 60, RTS imp (R205): pull the return address, low byte first, and add 1. -/
def execRts (s : State) : Result :=
  ((pullWord s).andThen fun ret t => .ok () (t.setPc (ret + 1))).finish

/-- 40, RTI imp (R206): the trap return. -/
def execRti (s : State) : Result := (trapReturn s).finish

/-- 00, BRK imp (R207): the trap entry; `pc` is P + 1 and the return address P + 2. -/
def execBrk (s : State) : Result := (trapEntry (s.pc + 1) s).finish

end Sys2Proof.Machine
end

