-- ==== Sys2Proof/Machine/StoreTransfer.lean ====
section
/-! DEFINITION. Stores, register transfers and NOP (49_store_transfer.md R210 to R219). -/

namespace Sys2Proof.Machine

/-- The store family (R210 to R212): the register through the reference; the destination is not read, no flag is written. -/
def storeRegister (r : Reg) (o : Operand) (s : State) : Result := (writeOperand o (s.get r) s).finish

/-- A transfer that sets N and Z (R213 to R217). -/
def transferRegister (src dst : Reg) (s : State) : Result :=
  .next ((s.set dst (s.get src)).setNZ (s.get src))

/-- 85, STA zp (R210). -/
def execStaZp (b : Byte) (s : State) : Result := storeRegister .A (.mem (.zp b)) s

/-- 95, STA zp,X (R210). -/
def execStaZpX (b : Byte) (s : State) : Result := storeRegister .A (.mem (.zpX b)) s

/-- 8D, STA abs (R210). -/
def execStaAbs (a : Addr) (s : State) : Result := storeRegister .A (.mem (.abs a)) s

/-- 9D, STA abs,X (R210). -/
def execStaAbsX (a : Addr) (s : State) : Result := storeRegister .A (.mem (.absX a)) s

/-- 99, STA abs,Y (R210). -/
def execStaAbsY (a : Addr) (s : State) : Result := storeRegister .A (.mem (.absY a)) s

/-- 81, STA (zp,X) (R210). -/
def execStaIndX (q : Byte) (s : State) : Result := storeRegister .A (.mem (.indX q)) s

/-- 91, STA (zp),Y (R210). -/
def execStaIndY (q : Byte) (s : State) : Result := storeRegister .A (.mem (.indY q)) s

/-- 86, STX zp (R211). -/
def execStxZp (b : Byte) (s : State) : Result := storeRegister .X (.mem (.zp b)) s

/-- 96, STX zp,Y (R211). -/
def execStxZpY (b : Byte) (s : State) : Result := storeRegister .X (.mem (.zpY b)) s

/-- 8E, STX abs (R211). -/
def execStxAbs (a : Addr) (s : State) : Result := storeRegister .X (.mem (.abs a)) s

/-- 84, STY zp (R212). -/
def execStyZp (b : Byte) (s : State) : Result := storeRegister .Y (.mem (.zp b)) s

/-- 94, STY zp,X (R212). -/
def execStyZpX (b : Byte) (s : State) : Result := storeRegister .Y (.mem (.zpX b)) s

/-- 8C, STY abs (R212). -/
def execStyAbs (a : Addr) (s : State) : Result := storeRegister .Y (.mem (.abs a)) s

/-- AA, TAX imp (R213). -/
def execTax (s : State) : Result := transferRegister .A .X s

/-- A8, TAY imp (R214). -/
def execTay (s : State) : Result := transferRegister .A .Y s

/-- 8A, TXA imp (R215). -/
def execTxa (s : State) : Result := transferRegister .X .A s

/-- 98, TYA imp (R216). -/
def execTya (s : State) : Result := transferRegister .Y .A s

/-- BA, TSX imp (R217). -/
def execTsx (s : State) : Result := transferRegister .SP .X s

/-- 9A, TXS imp (R218): X to SP; no flag is written. -/
def execTxs (s : State) : Result := .next (s.setSp s.x)

/-- EA, NOP imp (R219): only the opcode fetch has happened. -/
def execNop (s : State) : Result := .next s

end Sys2Proof.Machine
end

