-- ==== Sys2Proof/Machine/Step.lean ====
section
/-! DEFINITION. One dispatch (30_encoding.md R110, R112), and how a program word is put where the next fetch reads it. -/

namespace Sys2Proof.Machine

/-- `Dispatch()` (R110): fetch, decode, execute one instruction; `Ok` is the next state, an error is a fault that carries
the state left (R233, R234). -/
def step (s : State) : Host.Outcome State Fault Refusal :=
  match fetchInstr s with
  | .ok i t => exec i t
  | .fail f => .fault f

/-- `s` with the bytes of a table word at `pc`, `pc + 1`, `pc + 2`, readable there, so that the next step fetches and runs
them (R262: the platform loads the program; log 10). -/
def State.withFetchWord (s : State) (nbits w : Nat) : State :=
  s.setBus (placeBytes s.pc (tableWordBytes nbits w) s.bus)

end Sys2Proof.Machine
end

