-- ==== Sys2Proof/Machine/Assembler.lean ====
section
/-! DEFINITION. Assembler syntax (30_encoding.md R120 to R122): an instruction as text, and the offset byte of a branch. -/

namespace Sys2Proof.Machine

/-- One hexadecimal digit. -/
def hexDigit (n : Nat) : String := String.singleton (if n < 10 then Char.ofNat (48 + n) else Char.ofNat (55 + n))

/-- Two hexadecimal digits, `nn`. -/
def hexByte (b : Byte) : String := hexDigit (b.toNat / 16) ++ hexDigit (b.toNat % 16)

/-- Four hexadecimal digits, `nnnn`. -/
def hexAddr (a : Addr) : String := hexByte (hiByte a) ++ hexByte (loByte a)

/-- The address field of an indexed absolute form: `$nnnn`, or `$nn` under `source_one_byte` (R120). -/
def asmIndexedBase (f : AbsIndexed) (base : Addr) : String :=
  match f with
  | .twoByte => "$" ++ hexAddr base
  | .sourceOneByte => "$" ++ hexByte (loByte base)

/-- `*+d` for a branch to `d` past the branch's own address: `d` is the signed offset plus 1 (R92, R121). A target before the
branch is written `*-d` (log 14). DESIGN CHOICE: `d` is written in decimal, because the spec gives it no number base (log
19). -/
def asmRelative (off : Byte) : String :=
  let d := off.toInt + 1
  if d < 0 then "*-" ++ toString d.natAbs else "*+" ++ toString d.natAbs

/-- The operand of each mode, as the table of R120 writes it. -/
def asmOperand (f : AbsIndexed) : Operand → String
  | .acc => "A"
  | .imm v => "#$" ++ hexByte v
  | .mem (.zp b) => "$" ++ hexByte b
  | .mem (.zpX b) => "$" ++ hexByte b ++ ",X"
  | .mem (.zpY b) => "$" ++ hexByte b ++ ",Y"
  | .mem (.abs a) => "$" ++ hexAddr a
  | .mem (.absX a) => asmIndexedBase f a ++ ",X"
  | .mem (.absY a) => asmIndexedBase f a ++ ",Y"
  | .mem (.ind q) => "($" ++ hexAddr q ++ ")"
  | .mem (.indX q) => "($" ++ hexByte q ++ ",X)"
  | .mem (.indY q) => "($" ++ hexByte q ++ "),Y"
  | .mem (.rel d) => asmRelative d

/-- A mnemonic as it is written. -/
def Mnemonic.text : Mnemonic → String
  | .ADC => "ADC"
  | .AND => "AND"
  | .ASL => "ASL"
  | .BCC => "BCC"
  | .BCS => "BCS"
  | .BEQ => "BEQ"
  | .BIT => "BIT"
  | .BMI => "BMI"
  | .BNE => "BNE"
  | .BPL => "BPL"
  | .BRK => "BRK"
  | .BVC => "BVC"
  | .BVS => "BVS"
  | .CLC => "CLC"
  | .CLD => "CLD"
  | .CLI => "CLI"
  | .CLV => "CLV"
  | .CMP => "CMP"
  | .CPX => "CPX"
  | .CPY => "CPY"
  | .DEC => "DEC"
  | .DEX => "DEX"
  | .DEY => "DEY"
  | .EOR => "EOR"
  | .INC => "INC"
  | .INX => "INX"
  | .INY => "INY"
  | .JMP => "JMP"
  | .JSR => "JSR"
  | .LDA => "LDA"
  | .LDX => "LDX"
  | .LDY => "LDY"
  | .LSR => "LSR"
  | .NOP => "NOP"
  | .ORA => "ORA"
  | .PHA => "PHA"
  | .PHP => "PHP"
  | .PLA => "PLA"
  | .PLP => "PLP"
  | .ROL => "ROL"
  | .ROR => "ROR"
  | .RTI => "RTI"
  | .RTS => "RTS"
  | .SBC => "SBC"
  | .SEC => "SEC"
  | .SED => "SED"
  | .SEI => "SEI"
  | .STA => "STA"
  | .STX => "STX"
  | .STY => "STY"
  | .TAX => "TAX"
  | .TAY => "TAY"
  | .TSX => "TSX"
  | .TXA => "TXA"
  | .TXS => "TXS"
  | .TYA => "TYA"

/-- An instruction as text (R120). -/
def asmInstr (f : AbsIndexed) (i : Instr) : String :=
  match i.operand with
  | none => Mnemonic.text i.mnemonic
  | some o => Mnemonic.text i.mnemonic ++ " " ++ asmOperand f o

/-- The instruction a mnemonic written without an operand stands for: its Implied form, or for a shift or rotate the
Accumulator form (R122). None for a mnemonic that needs an operand. -/
def asmBare (mn : Mnemonic) : Option Instr :=
  match Instr.ofParts mn none with
  | some i => some i
  | none => Instr.ofParts mn (some .acc)

/-- The offset byte of `Bcc label` at opcode address `branch` (R121): legal only when `label - (branch + 1)` lies in
-128..127, taken on integers (log 14). -/
def branchOffset (branch label : Addr) : Option Byte :=
  let d : Int := label.toNat - (branch.toNat + 1)
  if -128 ≤ d ∧ d ≤ 127 then some (BitVec.ofInt 8 d) else none

end Sys2Proof.Machine
end

