-- ==== Sys2Proof/Machine/HostPort.lean ====
section
/-! DEFINITION. The host port: create, destroy, dispatch, `set_flag`, `get_flag` and register reads (00_scope.md R3; 10_state.md
R28, R34, R35; 70_reset_and_hazards.md R260, R261, R263), and a run of dispatches (R276). -/

namespace Sys2Proof.Machine

/-- What a dispatch reports to the host (R233). -/
inductive DispatchResult where
  | ok
  | busError (addr : Addr) (dir : Dir)
  | illegalOpcode (op : Byte)
  | literalWrite
deriving DecidableEq, Repr

/-- The result code of R233. -/
def DispatchResult.code : DispatchResult → Nat
  | .ok => 0
  | .busError _ _ => 1
  | .illegalOpcode _ => 2
  | .literalWrite => 3

/-- What a fault reports (R233). -/
def Fault.report : Fault → DispatchResult
  | .busError addr dir _ => .busError addr dir
  | .illegalOpcode op _ => .illegalOpcode op
  | .literalWrite _ => .literalWrite

/-- One dispatch as the host sees it: what is reported, and the state the core is in afterwards, from which the host may
dispatch again whatever was reported (R110, R234, R236). None only for an instruction without a meaning. -/
def dispatch (s : State) : Option (DispatchResult × State) :=
  match step s with
  | .next t => some (.ok, t)
  | .fault f => some (f.report, f.left)
  | .refused _ => none

/-- A session: there is a core, or there is none, before `create()` and after `destroy()` (R260, R261; log 11). -/
inductive Session where
  | absent
  | live (s : State)
deriving DecidableEq, Repr

/-- The calls of the host port (R3). A flag index is a 3-bit value (R28, D24). -/
inductive HostCall where
  | create (cfg : Config) (bus : Bus)
  | destroy
  | dispatch
  | setFlag (i : Fin 8) (b : Bool)
  | getFlag (i : Fin 8)
  | read (r : Reg)
  | readPc
deriving DecidableEq, Repr

/-- What a call gives back. -/
inductive HostReply where
  | done
  | result (r : DispatchResult)
  | flag (b : Bool)
  | byte (v : Byte)
  | word (v : Addr)
deriving DecidableEq, Repr

/-- One call of the host. None: the call is not defined in that session; after `destroy()` no operation of the core is
(R261, U13), and the host has no other way to write a register (R263). -/
def hostCall (c : HostCall) (session : Session) : Option (HostReply × Session) :=
  match c, session with
  | .create cfg bus, _ => some (.done, .live (State.create cfg bus))
  | .destroy, .live _ => some (.done, .absent)
  | .dispatch, .live s => (dispatch s).map fun r => (.result r.1, .live r.2)
  | .setFlag i b, .live s => some (.done, .live (s.setP (setFlag s.p i b)))
  | .getFlag i, .live s => some (.flag (getFlag s.p i), .live s)
  | .read r, .live s => some (.byte (s.get r), .live s)
  | .readPc, .live s => some (.word s.pc, .live s)
  | .destroy, .absent => none
  | .dispatch, .absent => none
  | .setFlag _ _, .absent => none
  | .getFlag _, .absent => none
  | .read _, .absent => none
  | .readPc, .absent => none

/-- Why a run ended (R276). -/
inductive RunEnd where
  | error (r : DispatchResult)  -- a dispatch returned a result other than Ok
  | stopPc                      -- before a dispatch, pc was STOP_PC
  | fuel                        -- FUEL dispatches were used up
deriving DecidableEq, Repr

/-- A run of at most `fuel` dispatches, to the first of the three ends of R276 (log 15). None only where a dispatch is. -/
def runUntil (stop : Option Addr) : Nat → State → Option (RunEnd × State)
  | 0, s => some (if stop = some s.pc then .stopPc else .fuel, s)
  | n + 1, s =>
    if stop = some s.pc then some (.stopPc, s)
    else
      match dispatch s with
      | some (.ok, t) => runUntil stop n t
      | some (r, t) => some (.error r, t)
      | none => none

end Sys2Proof.Machine
end

