-- ==== Sys2Proof/Safety.lean ====
section
/-! DEFINITION. The terms the statements are made in: what a sound state is, what an instruction left alone, and on which
bus nothing can fail. -/

namespace Sys2Proof.Machine

/-- The byte stored at `a` (20_memory.md R59). -/
def State.peek (s : State) (a : Addr) : Byte := s.bus.peek a

/-- An address whose bytes are stored, and can be read. -/
def Bus.Readable (b : Bus) (a : Addr) : Prop := b.kindAt a = .ram ∨ b.kindAt a = .rom

/-- A flat RAM: no access fails and no address is a device (fixture F0 of 95_test_vectors.md). -/
def Bus.Flat (b : Bus) : Prop := ∀ a : Addr, b.kindAt a = .ram

/-- A bus that refuses no access: not now, and not after any further accesses, whatever bytes are stored by then. -/
def Bus.NeverRefuses (b : Bus) : Prop :=
  ∀ (mem : List Host.Cell) (events : List BusEvent) (a : Addr) (v : Byte),
    let later : Bus := { mem := mem, map := b.map, log := events ++ b.log }
    later.read a ≠ none ∧ later.write a v ≠ none

/-- The byte of the last completed access at `a`, in a history that has the newest first. -/
def lastByteAt (a : Addr) : List BusEvent → Option Byte
  | [] => none
  | .read c v :: rest => if a = c then some v else lastByteAt a rest
  | .write c v :: rest => if a = c then some v else lastByteAt a rest

/-- The history and the memory agree: what the last access at a stored address moved is the byte that is there
(20_memory.md R69: a read returns what the accesses before it left). -/
def Bus.Coherent (b : Bus) : Prop :=
  ∀ (a : Addr) (v : Byte), b.kindAt a ≠ .device → lastByteAt a b.log = some v → b.peek a = v

/-- A sound state: memory in its canonical form, and in agreement with the access history. -/
def State.Inv (s : State) : Prop := Memory.wf s.bus.mem = true ∧ s.bus.Coherent

/-- Every 8-bit register but P, and but those of `rs`, holds what it held. -/
def KeepsRegs (rs : List Reg) (s t : State) : Prop := ∀ r : Reg, r ≠ .P → r ∉ rs → t.get r = s.get r

/-- Every flag but those of `fs` is what it was. -/
def KeepsFlags (fs : List Flag) (s t : State) : Prop := ∀ f : Flag, f ∉ fs → t.flag f = s.flag f

/-- Every byte of memory outside `as` reads as before, and so does the address map. -/
def KeepsMemory (as : List Addr) (s t : State) : Prop :=
  t.bus.map = s.bus.map ∧ ∀ c : Addr, c ∉ as → t.peek c = s.peek c

/-- The accesses made from `s` to `t` are `events`, in that order: no other access reached the bus (R65). -/
def Accesses (events : List BusEvent) (s t : State) : Prop := t.bus.log = events.reverse ++ s.bus.log

/-- Only reads were made from `s` to `t`, and memory and the address map are the same. -/
def OnlyReads (s t : State) : Prop :=
  t.bus.mem = s.bus.mem ∧ t.bus.map = s.bus.map ∧
  ∃ events : List (Addr × Byte), Accesses (events.map fun e => .read e.1 e.2) s t

/-- A BusError of a read (R230). -/
def IsReadError (f : Fault) : Prop := ∃ (a : Addr) (t : State), f = .busError a .read t

/-- What an instruction may change: the registers `rs`, the flags `fs`, the bytes at `as`. The parameters stay (R7), and
`pc`, which the fetch has moved past the instruction (R98), stays there. -/
def Frame (rs : List Reg) (fs : List Flag) (as : List Addr) (s t : State) : Prop :=
  KeepsRegs rs s t ∧ KeepsFlags fs s t ∧ KeepsMemory as s t ∧ t.cfg = s.cfg ∧ t.pc = s.pc

/-- The rows of a mnemonic: every instruction of it has one of these opcodes and modes, and the decoder table has all of them
(R101). -/
def HasForms (mn : Mnemonic) (forms : List (Byte × Mode)) : Prop :=
  (∀ i : Instr, i.mnemonic = mn → (i.opcode, i.mode) ∈ forms) ∧ ∀ e ∈ forms, decodeTable e.1 = .row mn e.2

/-- The state after `n` instruction-stream bytes were fetched from stored bytes (R82). -/
def State.afterFetch (s : State) : Nat → State
  | 0 => s
  | n + 1 => ((s.setBus (s.bus.logged (.read s.pc (s.peek s.pc)))).setPc (s.pc + 1)).afterFetch n

/-- The state an instruction or a dispatch ends in, whether it answers `Ok` or an error (60_exceptions.md R234). -/
def EndsIn (r : Result) (t : State) : Prop := r = .next t ∨ ∃ f : Fault, r = .fault f ∧ f.left = t

/-- The result `r` and the bit shifted out of each shift and rotate of `v` with carry in `c`, as numbers (45_shift.md R171 to
R174). -/
def ShiftResult (mn : Mnemonic) (c : Bool) (v r : Byte) (out : Bool) : Prop :=
  (mn = .ASL ∧ r.toNat = 2 * v.toNat % 256 ∧ out = v.getLsbD 7) ∨
  (mn = .LSR ∧ r.toNat = v.toNat / 2 ∧ out = v.getLsbD 0) ∨
  (mn = .ROL ∧ r.toNat = (2 * v.toNat + c.toNat) % 256 ∧ out = v.getLsbD 7) ∨
  (mn = .ROR ∧ r.toNat = v.toNat / 2 + 128 * c.toNat ∧ out = v.getLsbD 0)

/-- `a` is the stack address of offset `sp + k`, the offset wrapping in the stack page (20_memory.md R60 to R62). -/
def StackSlot (s : State) (k : Int) (a : Addr) : Prop :=
  (a.toNat : Int) = 256 * s.cfg.stackPage.toNat + (s.sp.toNat + k) % 256

/-- `i`, executed at `s`, stores the byte `v` at `a`, a RAM address: a store (R210 to R212), a read-modify-write of memory (R140,
R141, R170 to R174), PHA or PHP (R200, R201), JSR (R204) or BRK (R207). -/
def StoresByte (i : Instr) (s : State) (a : Addr) (v : Byte) : Prop :=
  (∃ (m : MemOperand) (t : State) (r : Reg), i.operand = some (.mem m) ∧ resolveAddr m s = .ok a t ∧
    (i.mnemonic, r) ∈ ([(.STA, .A), (.STX, .X), (.STY, .Y)] : List (Mnemonic × Reg)) ∧ v = s.get r) ∨
  (∃ (m : MemOperand) (t : State) (k : Nat), i.operand = some (.mem m) ∧ resolveAddr m s = .ok a t ∧
    (i.mnemonic, k) ∈ ([(.INC, 1), (.DEC, 255)] : List (Mnemonic × Nat)) ∧ v.toNat = ((s.peek a).toNat + k) % 256) ∨
  (∃ (m : MemOperand) (t : State) (out : Bool), i.operand = some (.mem m) ∧ resolveAddr m s = .ok a t ∧
    ShiftResult i.mnemonic (s.flag .C) (s.peek a) v out) ∨
  (i = .pha ∧ StackSlot s 0 a ∧ v = s.a) ∨
  (i = .php ∧ StackSlot s 0 a ∧ v = s.p ||| 0x30) ∨
  (∃ hi lo : Byte, i.mnemonic = .JSR ∧ (256 * hi.toNat + lo.toNat : Int) = ((s.pc.toNat : Int) - 1) % 65536 ∧
    ((StackSlot s 0 a ∧ v = hi) ∨ (StackSlot s (-1) a ∧ v = lo))) ∨
  (∃ hi lo : Byte, i = .brk ∧ 256 * hi.toNat + lo.toNat = (s.pc.toNat + 1) % 65536 ∧
    ((StackSlot s 0 a ∧ v = hi) ∨ (StackSlot s (-1) a ∧ v = lo) ∨ (StackSlot s (-2) a ∧ v = s.p ||| 0x30)))

/-- A change of state applied to whatever state an instruction ends in. -/
def mapResult (g : State → State) : Result → Result
  | .next t => .next (g t)
  | .fault (.busError addr dir t) => .fault (.busError addr dir (g t))
  | .fault (.illegalOpcode op t) => .fault (.illegalOpcode op (g t))
  | .fault (.literalWrite t) => .fault (.literalWrite (g t))
  | .refused r => .refused r

end Sys2Proof.Machine
end

