-- ==== Sys2Proof/Certificates/Slice0/Obligations.lean ====
section
/-! DEFINITION. The statements about the model. Each docstring names the rules of spec/ it comes from. `exec i s` is taken
with `pc` past the instruction, as the fetch leaves it (30_encoding.md R98). -/

open Sys2Proof Sys2Proof.Machine

/-! ### Encoding and decoding -/

/-- R80, R81, R84, R100, R101: decoding an encoded well-formed instruction gives it back, every operand at every value,
under both settings of ABS_INDEXED, and leaves the bytes after it. -/
def Obligations.EncodedInstructionDecodesBack : Prop :=
  ∀ (f : AbsIndexed) (i : Instr) (rest : List Byte),
    i.wf f = true → decode f (encode f i ++ rest) = .ok (i, rest)

/-- R80, R100, R101, R105: bytes that decode are the encoding of the well-formed instruction they decode to, so no two byte
sequences mean one instruction and no byte is dropped. -/
def Obligations.DecodedBytesAreTheEncoding : Prop :=
  ∀ (f : AbsIndexed) (bs : List Byte) (i : Instr) (rest : List Byte),
    decode f bs = .ok (i, rest) → i.wf f = true ∧ bs = encode f i ++ rest

/-- R84: the length of an instruction is 1 plus the stream bytes of its mode; fetching it makes that many reads, and
resolving its operand makes the extra reads of its mode and no other. -/
def Obligations.LengthAndResolverReadsByMode : Prop :=
  ∀ (f : AbsIndexed) (i : Instr),
    (encode f i).length = 1 + (match i.mode with
      | .imp | .acc => 0
      | .imm | .zp | .zpX | .zpY | .rel | .indX | .indY => 1
      | .abs | .ind => 2
      | .absX | .absY => if f = .twoByte then 2 else 1) ∧
    (∀ s t : State, s.cfg.absIndexed = f → fetchInstr s = .ok i t →
      t.bus.log.length = s.bus.log.length + (encode f i).length) ∧
    ∀ (o : Operand) (s : State) (r : Ref) (t : State), i.operand = some o → resolve o s = .ok r t →
      t.bus.log.length = s.bus.log.length + (match i.mode with
        | .indX | .indY | .ind => 2
        | .imp | .acc | .imm | .abs | .zp | .rel | .zpX | .zpY | .absX | .absY => 0)

/-- R101, R90, R94: words written out from the opcode map, one for each family, decode to the instruction they stand for. -/
def Obligations.WrittenOutWordsDecode : Prop :=
  decode .twoByte [0xA9, 0x05] = .ok (.ldaImm 0x05, []) ∧
  decode .twoByte [0xE6, 0x10] = .ok (.incZp 0x10, []) ∧
  decode .twoByte [0x38] = .ok (.sec, []) ∧
  decode .twoByte [0x6D, 0x34, 0x12] = .ok (.adcAbs 0x1234, []) ∧
  decode .twoByte [0x31, 0x10] = .ok (.andIndY 0x10, []) ∧
  decode .twoByte [0x0A] = .ok (.aslA, []) ∧
  decode .twoByte [0x2C, 0x00, 0x20] = .ok (.bitAbs 0x2000, []) ∧
  decode .twoByte [0xD0, 0xFE] = .ok (.bne 0xFE, []) ∧
  decode .twoByte [0x6C, 0xFF, 0x12] = .ok (.jmpInd 0x12FF, []) ∧
  decode .twoByte [0x20, 0x10, 0x00] = .ok (.jsr 0x0010, []) ∧
  decode .twoByte [0x9D, 0x00, 0x80] = .ok (.staAbsX 0x8000, []) ∧
  decode .sourceOneByte [0x9D, 0x80, 0x20] = .ok (.staAbsX 0x0080, [0x20])

/-- R102, R103: the 105 listed opcode values, and no others, have the entry Illegal; a dispatch that fetches one ends with
IllegalOpcode and that opcode, `pc` one past it, and nothing else changed. -/
def Obligations.IllegalOpcodeEndsTheDispatch : Prop :=
  ∀ op : Byte,
    let illegal : Prop := op.toNat ∈ ([
      0x02, 0x03, 0x04, 0x07, 0x0B, 0x0C, 0x0F, 0x12, 0x13, 0x14, 0x17, 0x1A, 0x1B, 0x1C, 0x1F, 0x22, 0x23, 0x27, 0x2B, 0x2F,
      0x32, 0x33, 0x34, 0x37, 0x3A, 0x3B, 0x3C, 0x3F, 0x42, 0x43, 0x44, 0x47, 0x4B, 0x4F, 0x52, 0x53, 0x54, 0x57, 0x5A, 0x5B,
      0x5C, 0x5F] ++ [0x62, 0x63, 0x64, 0x67, 0x6B, 0x6F, 0x72, 0x73, 0x74, 0x77, 0x7A, 0x7B, 0x7C, 0x7F, 0x80, 0x82, 0x83,
      0x87, 0x89, 0x8B, 0x8F, 0x92, 0x93, 0x97, 0x9B, 0x9C, 0x9E, 0x9F] ++ [0xA3, 0xA7, 0xAB, 0xAF, 0xB2, 0xB3, 0xB7, 0xBB,
      0xBF, 0xC2, 0xC3, 0xC7, 0xCB, 0xCF, 0xD2, 0xD3, 0xD4, 0xD7, 0xDA, 0xDB, 0xDC, 0xDF, 0xE2, 0xE3, 0xE7, 0xEB, 0xEF, 0xF2,
      0xF3, 0xF4, 0xF7, 0xFA, 0xFB, 0xFC, 0xFF] : List Nat)
    (decodeTable op = .illegal ↔ illegal) ∧
    ∀ (s : State) (b : Bus), s.bus.read s.pc = some (op, b) → illegal →
      step s = .fault (.illegalOpcode op ((s.setBus b).setPc (s.pc + 1)))

/-! ### The fetch unit and the dispatcher -/

/-- R110, R25: where the stored bytes at `pc` decode to a well-formed instruction, a step is that instruction executed at the
state in which its bytes, and no more, have been fetched: `pc` past it and nothing else changed but the access history. -/
def Obligations.StepRunsTheDecodedInstruction : Prop :=
  ∀ (s : State) (i : Instr) (rest : List Byte),
    (∀ k : Nat, k < i.length s.cfg.absIndexed → s.bus.Readable (s.pc + BitVec.ofNat 16 k)) →
    decode s.cfg.absIndexed [s.peek s.pc, s.peek (s.pc + 1), s.peek (s.pc + 2)] = .ok (i, rest) →
    step s = exec i (s.afterFetch (i.length s.cfg.absIndexed)) ∧
    (s.afterFetch (i.length s.cfg.absIndexed)).pc = s.pc + BitVec.ofNat 16 (i.length s.cfg.absIndexed) ∧
    Frame [] [] [] s ((s.afterFetch (i.length s.cfg.absIndexed)).setPc s.pc)

/-- R82, R83, R230: an instruction-stream byte is read at `pc`, then `pc` is incremented mod 2^16; a failing read leaves `pc`
at the byte. A dispatch whose opcode byte, or whose first or second operand byte where its opcode takes one, cannot be read
ends with BusError at that byte, `pc` at it, and only the bytes before it read. -/
def Obligations.FetchReadsThenIncrements : Prop :=
  ∀ s : State,
    (∀ (v : Byte) (b : Bus), s.bus.read s.pc = some (v, b) →
      ∃ q : Addr, q.toNat = (s.pc.toNat + 1) % 65536 ∧ fetchByte s = .ok v ((s.setBus b).setPc q)) ∧
    (s.bus.read s.pc = none →
      fetchByte s = .fail (.busError s.pc .read s) ∧ step s = .fault (.busError s.pc .read s)) ∧
    ∀ (op : Byte) (b1 : Bus) (mn : Mnemonic) (mode : Mode),
      s.bus.read s.pc = some (op, b1) → decodeTable op = .row mn mode →
      (mode ≠ .imp → mode ≠ .acc → b1.read (s.pc + 1) = none →
        step s = .fault (.busError (s.pc + 1) .read ((s.setBus b1).setPc (s.pc + 1)))) ∧
      (mode = .abs ∨ mode = .ind ∨ ((mode = .absX ∨ mode = .absY) ∧ s.cfg.absIndexed = .twoByte) →
        ∀ (lo : Byte) (b2 : Bus), b1.read (s.pc + 1) = some (lo, b2) → b2.read (s.pc + 2) = none →
          step s = .fault (.busError (s.pc + 2) .read ((s.setBus b2).setPc (s.pc + 2))))

/-- R98: after resolution `pc` is the opcode's address plus the length; a failing stream byte leaves `pc` at that byte; a
failing pointer read leaves `pc` past the instruction. -/
def Obligations.ProgramCounterAfterResolution : Prop :=
  (∀ (s t u : State) (i : Instr) (o : Operand) (r : Ref), fetchInstr s = .ok i t → i.operand = some o →
    resolve o t = .ok r u → u.pc = s.pc + BitVec.ofNat 16 (i.length s.cfg.absIndexed)) ∧
  (∀ (s t : State) (a : Addr) (dir : Dir), fetchInstr s = .fail (.busError a dir t) → t.pc = a) ∧
  (∀ (s t : State) (i : Instr) (o : Operand) (f : Fault), fetchInstr s = .ok i t → i.operand = some o →
    resolve o t = .fail f → f.left.pc = s.pc + BitVec.ofNat 16 (i.length s.cfg.absIndexed))

/-! ### The address resolver and the Operand References -/

/-- R55, R56, U3: reading and writing through each of the three references. A register or a literal takes no bus access; a
write through a literal is LiteralWrite, with no state change. -/
def Obligations.ReferencesReadAndWrite : Prop :=
  ∀ (s : State) (r : Reg) (v w : Byte) (a : Addr),
    readRef (.reg r) s = .ok (s.get r) s ∧
    readRef (.lit v) s = .ok v s ∧
    (∀ b : Bus, s.bus.read a = some (v, b) → readRef (.mem a) s = .ok v (s.setBus b)) ∧
    (s.bus.read a = none → readRef (.mem a) s = .fail (.busError a .read s)) ∧
    writeRef (.reg r) w s = .ok () (s.set r w) ∧
    (∀ b : Bus, s.bus.write a w = some b → writeRef (.mem a) w s = .ok () (s.setBus b)) ∧
    (s.bus.write a w = none → writeRef (.mem a) w s = .fail (.busError a .write s)) ∧
    writeRef (.lit v) w s = .fail (.literalWrite s)

/-- R88 to R94: the reference of every mode that reads no pointer, with its wrap: Accumulator, Immediate, Absolute,
Zero-page, Relative (from the offset byte, at `pc - 1`), Zero-page indexed (mod 2^8), Absolute indexed under both settings. -/
def Obligations.DirectModesResolve : Prop :=
  ∀ (s : State) (b : Byte) (w : Addr),
    resolve .acc s = .ok (.reg .A) s ∧
    resolve (.imm b) s = .ok (.lit b) s ∧
    resolve (.mem (.abs w)) s = .ok (.mem w) s ∧
    (∃ a : Addr, resolve (.mem (.zp b)) s = .ok (.mem a) s ∧ a.toNat = b.toNat) ∧
    (∃ a : Addr, resolve (.mem (.rel b)) s = .ok (.mem a) s ∧
      (a.toNat : Int) = ((s.pc.toNat : Int) - 1 + b.toInt) % 65536) ∧
    (∃ a : Addr, resolve (.mem (.zpX b)) s = .ok (.mem a) s ∧ a.toNat = (b.toNat + s.x.toNat) % 256) ∧
    (∃ a : Addr, resolve (.mem (.zpY b)) s = .ok (.mem a) s ∧ a.toNat = (b.toNat + s.y.toNat) % 256) ∧
    (s.cfg.absIndexed = .twoByte →
      (∃ a : Addr, resolve (.mem (.absX w)) s = .ok (.mem a) s ∧ a.toNat = (w.toNat + s.x.toNat) % 65536) ∧
      (∃ a : Addr, resolve (.mem (.absY w)) s = .ok (.mem a) s ∧ a.toNat = (w.toNat + s.y.toNat) % 65536)) ∧
    (s.cfg.absIndexed = .sourceOneByte → w.toNat < 256 →
      (∃ a : Addr, resolve (.mem (.absX w)) s = .ok (.mem a) s ∧ a.toNat = w.toNat + s.x.toNat) ∧
      (∃ a : Addr, resolve (.mem (.absY w)) s = .ok (.mem a) s ∧ a.toNat = w.toNat + s.y.toNat))

/-- R95, R96: the two pointer bytes are read in order from the zero page, wrapping within it, and combined as
INDIRECT_COMBINE says; Indirect,Y adds Y afterwards, mod 2^16. A failing pointer read ends resolution. -/
def Obligations.IndirectModesReadTheirPointer : Prop :=
  ∀ (s : State) (p : Byte) (y : Bool) (a1 a2 : Addr),
    let ix : Nat := if y then 0 else s.x.toNat
    let m : MemOperand := if y then .indY p else .indX p
    a1.toNat = (p.toNat + ix) % 256 → a2.toNat = (p.toNat + ix + 1) % 256 →
    (∀ (b1 b2 : Byte) (t u : State), memRead a1 s = .ok b1 t → memRead a2 t = .ok b2 u →
      ∃ a : Addr, resolveAddr m s = .ok a u ∧
        a.toNat = ((if s.cfg.indirectCombine = .littleEndian then b1.toNat + 256 * b2.toNat
          else (b1.toNat + b2.toNat) * 256) + (if y then s.y.toNat else 0)) % 65536) ∧
    (∀ f : Fault, memRead a1 s = .fail f → resolveAddr m s = .fail f) ∧
    (∀ (b1 : Byte) (t : State) (f : Fault), memRead a1 s = .ok b1 t → memRead a2 t = .fail f → resolveAddr m s = .fail f)

/-- R86, R130: resolving an operand, and reading it, write no register, no flag and no byte of memory, and make only reads,
whether they succeed or fail. -/
def Obligations.ResolvingAndReadingWriteNothing : Prop :=
  ∀ (o : Operand) (s t : State),
    ((∃ r : Ref, resolve o s = .ok r t) ∨ (∃ f : Fault, resolve o s = .fail f ∧ f.left = t) ∨
     (∃ v : Byte, readOperand o s = .ok v t) ∨ (∃ f : Fault, readOperand o s = .fail f ∧ f.left = t)) →
    Frame [] [] [] s t ∧ OnlyReads s t

/-! ### Flags -/

/-- R26, R28: `set_flag(i, b)` writes bit `7 - i` of P and no other, `get_flag(i)` reads it; neither fails and neither
touches the bus or another register. Each flag name has the index and the bit of P of the table of R27. -/
def Obligations.SetFlagWritesOneBit : Prop :=
  ∀ (p : Byte) (i : Fin 8) (b : Bool),
    getFlag p i = p.getLsbD (7 - i.val) ∧
    (setFlag p i b).getLsbD (7 - i.val) = b ∧
    (∀ k : Nat, k ≠ 7 - i.val → (setFlag p i b).getLsbD k = p.getLsbD k) ∧
    ∀ s : State,
      hostCall (.setFlag i b) (.live s) = some (.done, .live (s.setP (setFlag s.p i b))) ∧
      hostCall (.getFlag i) (.live s) = some (.flag (getFlag s.p i), .live s) ∧
      ∀ (f : Flag) (index bit : Nat),
        (f, index, bit) ∈ ([(.N, 0, 7), (.V, 1, 6), (.U, 2, 5), (.B, 3, 4), (.D, 4, 3), (.I, 5, 2), (.Z, 6, 1), (.C, 7, 0)] :
          List (Flag × Nat × Nat)) →
        f.index.val = index ∧ s.flag f = s.p.getLsbD bit ∧ s.setFlag f b = s.setP (setFlag s.p f.index b)

/-- R150 to R157: each flag instruction completes, gives its flag its value, and changes nothing else. -/
def Obligations.FlagInstructionsWriteOneFlag : Prop :=
  HasForms .SEC [(0x38, .imp)] ∧ HasForms .SED [(0xF8, .imp)] ∧ HasForms .SEI [(0x78, .imp)] ∧
  HasForms .CLC [(0x18, .imp)] ∧ HasForms .CLD [(0xD8, .imp)] ∧ HasForms .CLI [(0x58, .imp)] ∧
  HasForms .CLV [(0xB8, .imp)] ∧
  ∀ (i : Instr) (f : Flag) (b : Bool) (s : State),
    (i, f, b) ∈ ([(.sec, .C, true), (.sed, .D, true), (.sei, .I, true), (.clc, .C, false), (.cld, .D, false),
      (.cli, .I, false), (.clv, .V, false)] : List (Instr × Flag × Bool)) →
    ∃ u : State, exec i s = .next u ∧ u.flag f = b ∧ Frame [] [f] [] s u ∧ u.bus = s.bus

/-! ### Loads, arithmetic, logic -/

/-- R130 to R133: LDA, LDX and LDY in every mode copy the operand into their register and set N and Z from it, and change
nothing else; where resolution or the operand read fails, they fail with that error, register and flags unchanged. -/
def Obligations.LoadsCopyTheOperandAndSetNZ : Prop :=
  HasForms .LDA [(0xA9, .imm), (0xA5, .zp), (0xB5, .zpX), (0xAD, .abs), (0xBD, .absX), (0xB9, .absY), (0xA1, .indX),
    (0xB1, .indY)] ∧
  HasForms .LDX [(0xA2, .imm), (0xA6, .zp), (0xB6, .zpY), (0xAE, .abs), (0xBE, .absY)] ∧
  HasForms .LDY [(0xA0, .imm), (0xA4, .zp), (0xB4, .zpX), (0xAC, .abs), (0xBC, .absX)] ∧
  ∀ (i : Instr) (r : Reg) (o : Operand) (s : State),
    (i.mnemonic, r) ∈ ([(.LDA, .A), (.LDX, .X), (.LDY, .Y)] : List (Mnemonic × Reg)) → i.operand = some o →
    (∀ (v : Byte) (t : State), readOperand o s = .ok v t →
      ∃ u : State, exec i s = .next u ∧ u.get r = v ∧ u.flag .N = v.msb ∧ u.flag .Z = decide (v = 0) ∧
        Frame [r] [.N, .Z] [] s u ∧ u.bus = t.bus ∧ OnlyReads s u) ∧
    (∀ f : Fault, readOperand o s = .fail f →
      exec i s = .fault f ∧ IsReadError f ∧ f.left.get r = s.get r ∧ f.left.p = s.p ∧ f.left.pc = s.pc)

/-- R160: the adder. The result is the sum mod 2^8, C its carry out, and V is set exactly when the signed sum lies outside
-128..127. -/
def Obligations.AdderCarryAndOverflow : Prop :=
  ∀ (a b : Byte) (c : Bool),
    (add8 a b c).r.toNat = (a.toNat + b.toNat + c.toNat) % 256 ∧
    (add8 a b c).c = decide (a.toNat + b.toNat + c.toNat > 255) ∧
    ((add8 a b c).v = true ↔ a.toInt + b.toInt + c.toNat < -128 ∨ a.toInt + b.toInt + c.toNat > 127)

/-- R161, R30: ADC in every mode: A is the binary sum of A, the operand and C, whatever D holds; C the carry out, V the signed
overflow, N and Z from the result, nothing else. On an error A and the flags are unchanged. -/
def Obligations.AdcAddsOperandAndCarry : Prop :=
  HasForms .ADC [(0x69, .imm), (0x65, .zp), (0x75, .zpX), (0x6D, .abs), (0x7D, .absX), (0x79, .absY), (0x61, .indX),
    (0x71, .indY)] ∧
  ∀ (i : Instr) (o : Operand) (s : State), i.mnemonic = .ADC → i.operand = some o →
    (∀ (m : Byte) (t : State), readOperand o s = .ok m t →
      ∃ u : State, exec i s = .next u ∧
        u.a.toNat = (s.a.toNat + m.toNat + (s.flag .C).toNat) % 256 ∧
        u.flag .C = decide (s.a.toNat + m.toNat + (s.flag .C).toNat > 255) ∧
        (u.flag .V = true ↔ s.a.toInt + m.toInt + (s.flag .C).toNat < -128 ∨ s.a.toInt + m.toInt + (s.flag .C).toNat > 127) ∧
        u.flag .N = u.a.msb ∧ u.flag .Z = decide (u.a = 0) ∧
        Frame [.A] [.C, .V, .N, .Z] [] s u ∧ u.bus = t.bus ∧ OnlyReads s u) ∧
    (∀ f : Fault, readOperand o s = .fail f →
      exec i s = .fault f ∧ IsReadError f ∧ f.left.a = s.a ∧ f.left.p = s.p ∧ f.left.pc = s.pc)

/-- R162, R30: SBC in every mode: A is A minus the operand minus the borrow (1 - C), mod 2^8; C is set exactly when there is no
borrow, V exactly when the signed difference lies outside -128..127, N and Z from the result, nothing else. -/
def Obligations.SbcSubtractsOperandAndBorrow : Prop :=
  HasForms .SBC [(0xE9, .imm), (0xE5, .zp), (0xF5, .zpX), (0xED, .abs), (0xFD, .absX), (0xF9, .absY), (0xE1, .indX),
    (0xF1, .indY)] ∧
  ∀ (i : Instr) (o : Operand) (s : State), i.mnemonic = .SBC → i.operand = some o →
    (∀ (m : Byte) (t : State), readOperand o s = .ok m t →
      ∃ u : State, exec i s = .next u ∧
        (u.a.toNat : Int) = ((s.a.toNat : Int) - m.toNat - (1 - (s.flag .C).toNat)) % 256 ∧
        (u.flag .C = true ↔ (s.a.toNat : Int) - m.toNat - (1 - (s.flag .C).toNat) ≥ 0) ∧
        (u.flag .V = true ↔ s.a.toInt - m.toInt - (1 - (s.flag .C).toNat) < -128 ∨
          s.a.toInt - m.toInt - (1 - (s.flag .C).toNat) > 127) ∧
        u.flag .N = u.a.msb ∧ u.flag .Z = decide (u.a = 0) ∧
        Frame [.A] [.C, .V, .N, .Z] [] s u ∧ u.bus = t.bus ∧ OnlyReads s u) ∧
    (∀ f : Fault, readOperand o s = .fail f →
      exec i s = .fault f ∧ IsReadError f ∧ f.left.a = s.a ∧ f.left.p = s.p ∧ f.left.pc = s.pc)

/-- R165, R166, R167: AND, ORA and EOR in every mode: A is A combined bit by bit with the operand, N and Z from it, nothing
else changed. -/
def Obligations.LogicalInstructionsCombineIntoA : Prop :=
  HasForms .AND [(0x29, .imm), (0x25, .zp), (0x35, .zpX), (0x2D, .abs), (0x3D, .absX), (0x39, .absY), (0x21, .indX),
    (0x31, .indY)] ∧
  HasForms .ORA [(0x09, .imm), (0x05, .zp), (0x15, .zpX), (0x0D, .abs), (0x1D, .absX), (0x19, .absY), (0x01, .indX),
    (0x11, .indY)] ∧
  HasForms .EOR [(0x49, .imm), (0x45, .zp), (0x55, .zpX), (0x4D, .abs), (0x5D, .absX), (0x59, .absY), (0x41, .indX),
    (0x51, .indY)] ∧
  ∀ (i : Instr) (o : Operand) (s : State) (g : Bool → Bool → Bool),
    (i.mnemonic = .AND ∧ g = (fun a m => a && m)) ∨ (i.mnemonic = .ORA ∧ g = (fun a m => a || m)) ∨
      (i.mnemonic = .EOR ∧ g = (fun a m => a ^^ m)) →
    i.operand = some o →
    (∀ (m : Byte) (t : State), readOperand o s = .ok m t →
      ∃ u : State, exec i s = .next u ∧
        (∀ k : Nat, k < 8 → u.a.getLsbD k = g (s.a.getLsbD k) (m.getLsbD k)) ∧
        u.flag .N = u.a.msb ∧ u.flag .Z = decide (u.a = 0) ∧
        Frame [.A] [.N, .Z] [] s u ∧ u.bus = t.bus ∧ OnlyReads s u) ∧
    (∀ f : Fault, readOperand o s = .fail f →
      exec i s = .fault f ∧ IsReadError f ∧ f.left.a = s.a ∧ f.left.p = s.p ∧ f.left.pc = s.pc)

/-- R180 to R183: CMP, CPX and CPY in every mode: C is the unsigned comparison, Z equality, N bit 7 of the difference;
no register is written and nothing else changes. -/
def Obligations.CompareWritesOnlyCZN : Prop :=
  HasForms .CMP [(0xC9, .imm), (0xC5, .zp), (0xD5, .zpX), (0xCD, .abs), (0xDD, .absX), (0xD9, .absY), (0xC1, .indX),
    (0xD1, .indY)] ∧
  HasForms .CPX [(0xE0, .imm), (0xE4, .zp), (0xEC, .abs)] ∧
  HasForms .CPY [(0xC0, .imm), (0xC4, .zp), (0xCC, .abs)] ∧
  ∀ (i : Instr) (r : Reg) (o : Operand) (s : State),
    (i.mnemonic, r) ∈ ([(.CMP, .A), (.CPX, .X), (.CPY, .Y)] : List (Mnemonic × Reg)) → i.operand = some o →
    (∀ (m : Byte) (t : State), readOperand o s = .ok m t →
      ∃ u : State, exec i s = .next u ∧
        u.flag .C = decide ((s.get r).toNat ≥ m.toNat) ∧ u.flag .Z = decide ((s.get r).toNat = m.toNat) ∧
        u.flag .N = decide (((s.get r).toNat + 256 - m.toNat) % 256 ≥ 128) ∧
        Frame [] [.C, .Z, .N] [] s u ∧ u.bus = t.bus ∧ OnlyReads s u) ∧
    (∀ f : Fault, readOperand o s = .fail f →
      exec i s = .fault f ∧ IsReadError f ∧ f.left.p = s.p ∧ f.left.pc = s.pc)

/-- R184: BIT: N and V are bits 7 and 6 of the operand itself, Z whether A AND the operand is 0; C, A and everything else
unchanged. -/
def Obligations.BitTestReadsTheOperandsHighBits : Prop :=
  HasForms .BIT [(0x24, .zp), (0x2C, .abs)] ∧
  ∀ (i : Instr) (o : Operand) (s : State), i.mnemonic = .BIT → i.operand = some o →
    (∀ (m : Byte) (t : State), readOperand o s = .ok m t →
      ∃ u : State, exec i s = .next u ∧ u.flag .N = m.getLsbD 7 ∧ u.flag .V = m.getLsbD 6 ∧
        (u.flag .Z = true ↔ ∀ k : Nat, k < 8 → (s.a.getLsbD k && m.getLsbD k) = false) ∧
        Frame [] [.N, .V, .Z] [] s u ∧ u.bus = t.bus ∧ OnlyReads s u) ∧
    (∀ f : Fault, readOperand o s = .fail f →
      exec i s = .fault f ∧ IsReadError f ∧ f.left.p = s.p ∧ f.left.pc = s.pc)

/-! ### Increments, decrements, shifts -/

/-- R142 to R145: INX, INY, DEX and DEY complete, add or subtract 1 mod 2^8, set N and Z from the result, make no bus access
and change nothing else. -/
def Obligations.RegisterIncrementsAndDecrements : Prop :=
  HasForms .INX [(0xE8, .imp)] ∧ HasForms .INY [(0xC8, .imp)] ∧ HasForms .DEX [(0xCA, .imp)] ∧ HasForms .DEY [(0x88, .imp)] ∧
  ∀ (i : Instr) (r : Reg) (k : Nat) (s : State),
    (i, r, k) ∈ ([(.inx, .X, 1), (.iny, .Y, 1), (.dex, .X, 255), (.dey, .Y, 255)] : List (Instr × Reg × Nat)) →
    ∃ u : State, exec i s = .next u ∧ (u.get r).toNat = ((s.get r).toNat + k) % 256 ∧
      u.flag .N = (u.get r).msb ∧ u.flag .Z = decide (u.get r = 0) ∧ Frame [r] [.N, .Z] [] s u ∧ u.bus = s.bus

/-- R140, R141, R111: INC and DEC: the byte at the resolved address plus or minus 1, mod 2^8, written back with exactly one
read and one write at that address, then N and Z; no other byte, register or flag changes. Their modes always resolve; a
failing read leaves the state of resolution; a failing write leaves the flags unwritten. -/
def Obligations.MemoryIncrementsAndDecrements : Prop :=
  HasForms .INC [(0xE6, .zp), (0xF6, .zpX), (0xEE, .abs), (0xFE, .absX)] ∧
  HasForms .DEC [(0xC6, .zp), (0xD6, .zpX), (0xCE, .abs), (0xDE, .absX)] ∧
  ∀ (i : Instr) (k : Nat) (m : MemOperand) (s : State),
    (i.mnemonic, k) ∈ ([(.INC, 1), (.DEC, 255)] : List (Mnemonic × Nat)) → i.operand = some (.mem m) →
    Memory.wf s.bus.mem = true →
    (∃ a : Addr, resolveAddr m s = .ok a s) ∧
    (∀ (a : Addr) (t : State), resolveAddr m s = .ok a t →
      (t.bus.read a = none → exec i s = .fault (.busError a .read t)) ∧
      (∀ (v r : Byte) (b1 : Bus), t.bus.read a = some (v, b1) → r.toNat = (v.toNat + k) % 256 →
        (b1.write a r = none → exec i s = .fault (.busError a .write (t.setBus b1))) ∧
        (∀ b2 : Bus, b1.write a r = some b2 →
          ∃ u : State, exec i s = .next u ∧ u.flag .N = r.msb ∧ u.flag .Z = decide (r = 0) ∧
            Frame [] [.N, .Z] [a] s u ∧ (s.bus.kindAt a = .ram → u.peek a = r) ∧ u.bus = b2 ∧
            Accesses [.read a v, .write a r] t u)))

/-- R170 to R174: ASL, LSR, ROL and ROR of A: the result in A, the bit shifted out in C, N and Z from the result; no bus
access, nothing else changed. -/
def Obligations.AccumulatorShifts : Prop :=
  ∀ (i : Instr) (s : State) (r : Byte) (out : Bool),
    i ∈ ([.aslA, .lsrA, .rolA, .rorA] : List Instr) → ShiftResult i.mnemonic (s.flag .C) s.a r out →
    ∃ u : State, exec i s = .next u ∧ u.a = r ∧ u.flag .C = out ∧ u.flag .N = r.msb ∧ u.flag .Z = decide (r = 0) ∧
      Frame [.A] [.C, .N, .Z] [] s u ∧ u.bus = s.bus

/-- R170 to R174, R111: ASL, LSR, ROL and ROR of memory: one read and one write at the resolved address, then C, N and Z; no
other byte, register or flag changes. Their modes always resolve; a failing write leaves the flags unwritten. -/
def Obligations.MemoryShifts : Prop :=
  HasForms .ASL [(0x0A, .acc), (0x06, .zp), (0x16, .zpX), (0x0E, .abs), (0x1E, .absX)] ∧
  HasForms .LSR [(0x4A, .acc), (0x46, .zp), (0x56, .zpX), (0x4E, .abs), (0x5E, .absX)] ∧
  HasForms .ROL [(0x2A, .acc), (0x26, .zp), (0x36, .zpX), (0x2E, .abs), (0x3E, .absX)] ∧
  HasForms .ROR [(0x6A, .acc), (0x66, .zp), (0x76, .zpX), (0x6E, .abs), (0x7E, .absX)] ∧
  ∀ (i : Instr) (m : MemOperand) (s : State),
    i.mnemonic ∈ ([.ASL, .LSR, .ROL, .ROR] : List Mnemonic) → i.operand = some (.mem m) → Memory.wf s.bus.mem = true →
    (∃ a : Addr, resolveAddr m s = .ok a s) ∧
    (∀ (a : Addr) (t : State), resolveAddr m s = .ok a t →
      (t.bus.read a = none → exec i s = .fault (.busError a .read t)) ∧
      (∀ (v r : Byte) (out : Bool) (b1 : Bus), t.bus.read a = some (v, b1) →
        ShiftResult i.mnemonic (s.flag .C) v r out →
        (b1.write a r = none → exec i s = .fault (.busError a .write (t.setBus b1))) ∧
        (∀ b2 : Bus, b1.write a r = some b2 →
          ∃ u : State, exec i s = .next u ∧ u.flag .C = out ∧ u.flag .N = r.msb ∧ u.flag .Z = decide (r = 0) ∧
            Frame [] [.C, .N, .Z] [a] s u ∧ (s.bus.kindAt a = .ram → u.peek a = r) ∧ u.bus = b2 ∧
            Accesses [.read a v, .write a r] t u)))

/-! ### Branches and jumps -/

/-- R190 to R198: each branch completes; if its flag has its value `pc` is the address of the offset byte plus the signed
offset, mod 2^16, and else `pc` stays past the branch; nothing else changes. -/
def Obligations.BranchesTestTheirFlag : Prop :=
  HasForms .BPL [(0x10, .rel)] ∧ HasForms .BMI [(0x30, .rel)] ∧ HasForms .BVC [(0x50, .rel)] ∧ HasForms .BVS [(0x70, .rel)] ∧
  HasForms .BCC [(0x90, .rel)] ∧ HasForms .BCS [(0xB0, .rel)] ∧ HasForms .BNE [(0xD0, .rel)] ∧ HasForms .BEQ [(0xF0, .rel)] ∧
  ∀ (i : Instr) (off : Byte) (f : Flag) (b : Bool) (s : State),
    (i, f, b) ∈ ([(.bpl off, .N, false), (.bmi off, .N, true), (.bvc off, .V, false), (.bvs off, .V, true),
      (.bcc off, .C, false), (.bcs off, .C, true), (.bne off, .Z, false), (.beq off, .Z, true)] : List (Instr × Flag × Bool)) →
    ∃ q : Addr, exec i s = .next (s.setPc q) ∧
      (s.flag f = b → (q.toNat : Int) = ((s.pc.toNat : Int) - 1 + off.toInt) % 65536) ∧ (s.flag f ≠ b → q = s.pc)

/-- R190: a dispatch of a branch at `P`: the offset byte at `P + 1` is always read; the next `pc` is `P + 1` plus the signed
offset if the condition holds, else `P + 2`; if the offset byte cannot be read, BusError with `pc` at it. No flag or
register is written and no other byte is read. -/
def Obligations.BranchDispatch : Prop :=
  ∀ (s : State) (op off : Byte) (f : Flag) (b : Bool) (b1 : Bus),
    (op, f, b) ∈ ([(0x10, .N, false), (0x30, .N, true), (0x50, .V, false), (0x70, .V, true), (0x90, .C, false),
      (0xB0, .C, true), (0xD0, .Z, false), (0xF0, .Z, true)] : List (Byte × Flag × Bool)) →
    s.bus.read s.pc = some (op, b1) →
    (∀ b2 : Bus, b1.read (s.pc + 1) = some (off, b2) →
      ∃ q : Addr, step s = .next ((s.setBus b2).setPc q) ∧
        (s.flag f = b → (q.toNat : Int) = ((s.pc.toNat : Int) + 1 + off.toInt) % 65536) ∧
        (s.flag f ≠ b → q.toNat = (s.pc.toNat + 2) % 65536)) ∧
    (b1.read (s.pc + 1) = none →
      step s = .fault (.busError (s.pc + 1) .read ((s.setBus b1).setPc (s.pc + 1))))

/-- R199, R97: JMP takes the address given, or the little-endian target read through the pointer, its high byte from the
pointer with its low byte incremented mod 256; nothing is pushed, the target is not read, nothing else changes. -/
def Obligations.JumpTakesItsTarget : Prop :=
  HasForms .JMP [(0x4C, .abs), (0x6C, .ind)] ∧
  ∀ (s : State) (w p2 : Addr),
    exec (.jmpAbs w) s = .next (s.setPc w) ∧
    (p2.toNat = w.toNat / 256 * 256 + (w.toNat + 1) % 256 →
      (s.bus.read w = none → exec (.jmpInd w) s = .fault (.busError w .read s)) ∧
      (∀ (lo : Byte) (b1 : Bus), s.bus.read w = some (lo, b1) →
        (b1.read p2 = none → exec (.jmpInd w) s = .fault (.busError p2 .read (s.setBus b1))) ∧
        (∀ (hi : Byte) (b2 : Bus), b1.read p2 = some (hi, b2) →
          ∃ q : Addr, exec (.jmpInd w) s = .next ((s.setBus b2).setPc q) ∧ q.toNat = lo.toNat + 256 * hi.toNat)))

/-! ### The stack, subroutines, the trap -/

/-- R200, R201: PHA and PHP write A, or P with bits 5 and 4 set, at the stack address and then decrement SP mod 2^8; P itself
and everything else is unchanged. A failing write leaves the state as it was. -/
def Obligations.PushInstructions : Prop :=
  HasForms .PHA [(0x48, .imp)] ∧ HasForms .PHP [(0x08, .imp)] ∧
  ∀ (i : Instr) (v : Byte) (s : State) (a : Addr),
    (i = .pha ∧ v = s.a) ∨ (i = .php ∧ v = s.p ||| 0x30) → StackSlot s 0 a →
    (∀ b : Bus, s.bus.write a v = some b → exec i s = .next ((s.setBus b).setSp (s.sp - 1))) ∧
    (s.bus.write a v = none → exec i s = .fault (.busError a .write s))

/-- R202: PLA increments SP mod 2^8, reads A there, and sets N and Z; a failing read leaves SP incremented, A and the flags
unchanged. -/
def Obligations.PullAccumulator : Prop :=
  HasForms .PLA [(0x68, .imp)] ∧
  ∀ (s : State) (a : Addr), StackSlot s 1 a →
    (∀ (v : Byte) (b : Bus), s.bus.read a = some (v, b) →
      ∃ u : State, exec .pla s = .next u ∧ u.a = v ∧ u.sp = s.sp + 1 ∧ u.flag .N = v.msb ∧ u.flag .Z = decide (v = 0) ∧
        Frame [.A, .SP] [.N, .Z] [] s u ∧ u.bus = b) ∧
    (s.bus.read a = none → exec .pla s = .fault (.busError a .read (s.setSp (s.sp + 1))))

/-- R203: PLP increments SP mod 2^8 and takes N, V, D, I, Z and C from the byte read there, keeping U and B; a failing read
leaves SP incremented and P unchanged. -/
def Obligations.PullStatus : Prop :=
  HasForms .PLP [(0x28, .imp)] ∧
  ∀ (s : State) (a : Addr), StackSlot s 1 a →
    (∀ (v : Byte) (b : Bus), s.bus.read a = some (v, b) →
      ∃ u : State, exec .plp s = .next u ∧ u.sp = s.sp + 1 ∧
        (∀ f : Flag, f ∈ ([.N, .V, .D, .I, .Z, .C] : List Flag) → u.flag f = getFlag v f.index) ∧
        Frame [.SP] [.N, .V, .D, .I, .Z, .C] [] s u ∧ u.bus = b) ∧
    (s.bus.read a = none → exec .plp s = .fault (.busError a .read (s.setSp (s.sp + 1))))

/-- R204: JSR pushes the address of its own last byte, high byte first, and takes its target. A failing first push leaves SP
unchanged; a failing second one leaves the high byte written and SP decremented once; `pc` then stays past the JSR. -/
def Obligations.JsrPushesItsLastByteAndJumps : Prop :=
  HasForms .JSR [(0x20, .abs)] ∧
  ∀ (s : State) (target a1 a2 : Addr) (hi lo : Byte),
    StackSlot s 0 a1 → StackSlot s (-1) a2 →
    (256 * hi.toNat + lo.toNat : Int) = ((s.pc.toNat : Int) - 1) % 65536 →
    (s.bus.write a1 hi = none → exec (.jsr target) s = .fault (.busError a1 .write s)) ∧
    (∀ b1 : Bus, s.bus.write a1 hi = some b1 →
      (b1.write a2 lo = none →
        exec (.jsr target) s = .fault (.busError a2 .write ((s.setBus b1).setSp (s.sp - 1)))) ∧
      (∀ b2 : Bus, b1.write a2 lo = some b2 →
        exec (.jsr target) s = .next (((s.setBus b2).setSp (s.sp - 2)).setPc target)))

/-- R205: RTS pulls the low byte, then the high byte, and takes that address plus 1, mod 2^16. A failing pull leaves each
increment of SP already made, and `pc` after the RTS opcode. -/
def Obligations.RtsPullsAndAddsOne : Prop :=
  HasForms .RTS [(0x60, .imp)] ∧
  ∀ (s : State) (a1 a2 : Addr), StackSlot s 1 a1 → StackSlot s 2 a2 →
    (s.bus.read a1 = none → exec .rts s = .fault (.busError a1 .read (s.setSp (s.sp + 1)))) ∧
    (∀ (lo : Byte) (b1 : Bus), s.bus.read a1 = some (lo, b1) →
      (b1.read a2 = none → exec .rts s = .fault (.busError a2 .read ((s.setBus b1).setSp (s.sp + 2)))) ∧
      (∀ (hi : Byte) (b2 : Bus), b1.read a2 = some (hi, b2) →
        ∃ q : Addr, q.toNat = (lo.toNat + 256 * hi.toNat + 1) % 65536 ∧
          exec .rts s = .next (((s.setBus b2).setSp (s.sp + 2)).setPc q)))

/-- R206, R238: RTI pulls P (U and B kept), then the low byte and the high byte of `pc`, adding nothing. If the second or the
third pull fails P is already restored, and SP keeps each increment made. -/
def Obligations.RtiRestoresStatusThenPc : Prop :=
  HasForms .RTI [(0x40, .imp)] ∧
  ∀ (s : State) (a1 a2 a3 : Addr), StackSlot s 1 a1 → StackSlot s 2 a2 → StackSlot s 3 a3 →
    (s.bus.read a1 = none → exec .rti s = .fault (.busError a1 .read (s.setSp (s.sp + 1)))) ∧
    (∀ (v : Byte) (b1 : Bus), s.bus.read a1 = some (v, b1) →
      ∃ p : Byte,
        (∀ f : Flag, f ∈ ([.N, .V, .D, .I, .Z, .C] : List Flag) → getFlag p f.index = getFlag v f.index) ∧
        (∀ f : Flag, f ∈ ([.U, .B] : List Flag) → getFlag p f.index = s.flag f) ∧
        (b1.read a2 = none → exec .rti s = .fault (.busError a2 .read (((s.setBus b1).setSp (s.sp + 2)).setP p))) ∧
        (∀ (lo : Byte) (b2 : Bus), b1.read a2 = some (lo, b2) →
          (b2.read a3 = none → exec .rti s = .fault (.busError a3 .read (((s.setBus b2).setSp (s.sp + 3)).setP p))) ∧
          (∀ (hi : Byte) (b3 : Bus), b2.read a3 = some (hi, b3) →
            ∃ q : Addr, q.toNat = lo.toNat + 256 * hi.toNat ∧
              exec .rti s = .next ((((s.setBus b3).setSp (s.sp + 3)).setP p).setPc q))))

/-- R207, R237: BRK at `P` (`pc` is `P + 1`) pushes `P + 2`, high byte first, then P with bits 5 and 4 set, sets I, and takes
`pc` from the vector at 0xFFFE and 0xFFFF, whatever I held. Each failing access leaves what was written before it: a failing
vector read leaves the three bytes pushed, I set and `pc` after the BRK. -/
def Obligations.BrkTakesTheTrap : Prop :=
  HasForms .BRK [(0x00, .imp)] ∧
  ∀ (s : State) (a1 a2 a3 : Addr) (hi lo p : Byte),
    StackSlot s 0 a1 → StackSlot s (-1) a2 → StackSlot s (-2) a3 →
    256 * hi.toNat + lo.toNat = (s.pc.toNat + 1) % 65536 →
    p.getLsbD 2 = true → (∀ k : Nat, k ≠ 2 → p.getLsbD k = s.p.getLsbD k) →
    (s.bus.write a1 hi = none → exec .brk s = .fault (.busError a1 .write s)) ∧
    (∀ b1 : Bus, s.bus.write a1 hi = some b1 →
      (b1.write a2 lo = none → exec .brk s = .fault (.busError a2 .write ((s.setBus b1).setSp (s.sp - 1)))) ∧
      (∀ b2 : Bus, b1.write a2 lo = some b2 →
        (b2.write a3 (s.p ||| 0x30) = none →
          exec .brk s = .fault (.busError a3 .write ((s.setBus b2).setSp (s.sp - 2)))) ∧
        (∀ b3 : Bus, b2.write a3 (s.p ||| 0x30) = some b3 →
          (b3.read 0xFFFE = none →
            exec .brk s = .fault (.busError 0xFFFE .read (((s.setBus b3).setSp (s.sp - 3)).setP p))) ∧
          (∀ (vlo : Byte) (b4 : Bus), b3.read 0xFFFE = some (vlo, b4) →
            (b4.read 0xFFFF = none →
              exec .brk s = .fault (.busError 0xFFFF .read (((s.setBus b4).setSp (s.sp - 3)).setP p))) ∧
            (∀ (vhi : Byte) (b5 : Bus), b4.read 0xFFFF = some (vhi, b5) →
              ∃ q : Addr, q.toNat = vlo.toNat + 256 * vhi.toNat ∧
                exec .brk s = .next ((((s.setBus b5).setSp (s.sp - 3)).setP p).setPc q))))))

/-- R204, R205: after a JSR, an RTS with the stack unchanged returns past the JSR and leaves SP as it was before the call,
wherever the subroutine's RTS stands. -/
def Obligations.RtsReturnsPastTheJsr : Prop :=
  ∀ (s : State) (target at' a1 a2 : Addr), Memory.wf s.bus.mem = true →
    StackSlot s 0 a1 → StackSlot s (-1) a2 → s.bus.kindAt a1 = .ram → s.bus.kindAt a2 = .ram →
    ∃ t u : State, exec (.jsr target) s = .next t ∧ exec .rts (t.setPc at') = .next u ∧
      u.pc = s.pc ∧ u.sp = s.sp ∧ u.a = s.a ∧ u.x = s.x ∧ u.y = s.y ∧ u.p = s.p

/-- R206, R207: RTI is the inverse of BRK: it resumes at BRK's address + 2 with P and SP as they were before the BRK, so I
is again what it was, wherever the handler's RTI stands. -/
def Obligations.RtiUndoesBrk : Prop :=
  ∀ (s : State) (at' a1 a2 a3 : Addr), Memory.wf s.bus.mem = true →
    StackSlot s 0 a1 → StackSlot s (-1) a2 → StackSlot s (-2) a3 →
    s.bus.kindAt a1 = .ram → s.bus.kindAt a2 = .ram → s.bus.kindAt a3 = .ram →
    s.bus.Readable 0xFFFE → s.bus.Readable 0xFFFF →
    ∃ t u : State, exec .brk s = .next t ∧ t.flag .I = true ∧ exec .rti (t.setPc at') = .next u ∧
      u.pc = s.pc + 1 ∧ u.p = s.p ∧ u.sp = s.sp ∧ u.a = s.a ∧ u.x = s.x ∧ u.y = s.y

/-- R201, R203: a PHP then a PLP gives back every flag but U and B, which keep what P holds when the PLP runs, whatever P
became in between. -/
def Obligations.PlpRestoresWhatPhpPushed : Prop :=
  ∀ (s : State) (p : Byte) (a : Addr), Memory.wf s.bus.mem = true → StackSlot s 0 a → s.bus.kindAt a = .ram →
    ∃ t u : State, exec .php s = .next t ∧ exec .plp (t.setP p) = .next u ∧ u.sp = s.sp ∧
      (∀ f : Flag, f ∈ ([.N, .V, .D, .I, .Z, .C] : List Flag) → u.flag f = s.flag f) ∧
      (∀ f : Flag, f ∈ ([.U, .B] : List Flag) → u.flag f = getFlag p f.index)

/-! ### Stores, transfers, NOP -/

/-- R210, R211, R212: STA, STX and STY in every mode write their register at the resolved address, with one write and no read
of it; no flag, no register and no other byte changes. A failing store leaves the state of resolution. -/
def Obligations.StoresWriteTheirRegister : Prop :=
  HasForms .STA [(0x85, .zp), (0x95, .zpX), (0x8D, .abs), (0x9D, .absX), (0x99, .absY), (0x81, .indX), (0x91, .indY)] ∧
  HasForms .STX [(0x86, .zp), (0x96, .zpY), (0x8E, .abs)] ∧
  HasForms .STY [(0x84, .zp), (0x94, .zpX), (0x8C, .abs)] ∧
  ∀ (i : Instr) (r : Reg) (m : MemOperand) (s : State),
    (i.mnemonic, r) ∈ ([(.STA, .A), (.STX, .X), (.STY, .Y)] : List (Mnemonic × Reg)) → i.operand = some (.mem m) →
    Memory.wf s.bus.mem = true →
    (∀ f : Fault, resolveAddr m s = .fail f → exec i s = .fault f ∧ IsReadError f) ∧
    (∀ (a : Addr) (t : State), resolveAddr m s = .ok a t →
      (t.bus.write a (s.get r) = none → exec i s = .fault (.busError a .write t)) ∧
      (∀ b : Bus, t.bus.write a (s.get r) = some b →
        exec i s = .next (t.setBus b) ∧ Frame [] [] [a] s (t.setBus b) ∧ (s.bus.kindAt a = .ram → b.peek a = s.get r) ∧
          Accesses [.write a (s.get r)] t (t.setBus b)))

/-- R213 to R217: TAX, TAY, TXA, TYA and TSX complete, copy the source register, set N and Z from it, and change nothing
else. -/
def Obligations.TransfersCopyAndSetNZ : Prop :=
  HasForms .TAX [(0xAA, .imp)] ∧ HasForms .TAY [(0xA8, .imp)] ∧ HasForms .TXA [(0x8A, .imp)] ∧
  HasForms .TYA [(0x98, .imp)] ∧ HasForms .TSX [(0xBA, .imp)] ∧
  ∀ (i : Instr) (src dst : Reg) (s : State),
    (i, src, dst) ∈ ([(.tax, .A, .X), (.tay, .A, .Y), (.txa, .X, .A), (.tya, .Y, .A), (.tsx, .SP, .X)] :
      List (Instr × Reg × Reg)) →
    ∃ u : State, exec i s = .next u ∧ u.get dst = s.get src ∧ u.flag .N = (s.get src).msb ∧
      u.flag .Z = decide (s.get src = 0) ∧ Frame [dst] [.N, .Z] [] s u ∧ u.bus = s.bus

/-- R218, R219: TXS copies X to SP and writes no flag; NOP changes nothing. -/
def Obligations.TxsAndNop : Prop :=
  HasForms .TXS [(0x9A, .imp)] ∧ HasForms .NOP [(0xEA, .imp)] ∧
  ∀ s : State, exec .txs s = .next (s.setSp s.x) ∧ exec .nop s = .next s

/-! ### Rules of the whole machine -/

/-- R22: which instructions write each register, over all instructions, whether they complete or fail: a register that
differs afterwards is written by the instructions R22 lists for it, and only control transfers write `pc`. -/
def Obligations.RegistersAreWrittenOnlyByTheirInstructions : Prop :=
  ∀ (i : Instr) (s t : State), EndsIn (exec i s) t →
    (t.a ≠ s.a → i.mnemonic ∈ ([.LDA, .ADC, .SBC, .AND, .ORA, .EOR, .PLA, .TXA, .TYA] : List Mnemonic) ∨
      i ∈ ([.aslA, .lsrA, .rolA, .rorA] : List Instr)) ∧
    (t.x ≠ s.x → i.mnemonic ∈ ([.LDX, .INX, .DEX, .TAX, .TSX] : List Mnemonic)) ∧
    (t.y ≠ s.y → i.mnemonic ∈ ([.LDY, .INY, .DEY, .TAY] : List Mnemonic)) ∧
    (t.sp ≠ s.sp → i.mnemonic ∈ ([.TXS, .PHA, .PHP, .PLA, .PLP, .JSR, .RTS, .RTI, .BRK] : List Mnemonic)) ∧
    (t.p ≠ s.p → i.mnemonic ∉ ([.STA, .STX, .STY, .TXS, .NOP, .PHA, .PHP, .JSR, .RTS, .JMP, .BPL, .BMI, .BVC, .BVS, .BCC,
      .BCS, .BNE, .BEQ] : List Mnemonic)) ∧
    (t.pc ≠ s.pc → i.mnemonic ∈ ([.BPL, .BMI, .BVC, .BVS, .BCC, .BCS, .BNE, .BEQ, .JMP, .JSR, .RTS, .RTI, .BRK] :
      List Mnemonic))

/-- R53, R65, R111: over all instructions, whether they complete or fail, memory is written only by the stores, the memory
forms of the read-modify-write instructions and the pushes; every other form leaves every byte as it was. -/
def Obligations.OtherFormsStoreNothing : Prop :=
  ∀ (i : Instr) (s t : State), EndsIn (exec i s) t →
    i.mnemonic ∉ ([.STA, .STX, .STY, .INC, .DEC, .PHA, .PHP, .JSR, .BRK] : List Mnemonic) →
    (i.mnemonic ∈ ([.ASL, .LSR, .ROL, .ROR] : List Mnemonic) → i.mode = .acc) →
    ∀ c : Addr, t.peek c = s.peek c

/-- R53, R60, R61, R111: a form that stores changes no byte but the one at its resolved address, or those at the stack
addresses it pushes to, whether it completes or fails. -/
def Obligations.StoresReachOnlyTheirAddress : Prop :=
  ∀ (i : Instr) (s t : State), Memory.wf s.bus.mem = true → EndsIn (exec i s) t →
    (∀ (m : MemOperand) (a : Addr) (u : State), i.operand = some (.mem m) → i.mnemonic ≠ .JSR →
      resolveAddr m s = .ok a u → ∀ c : Addr, c ≠ a → t.peek c = s.peek c) ∧
    (i = .pha ∨ i = .php → ∀ c : Addr, ¬ StackSlot s 0 c → t.peek c = s.peek c) ∧
    (i.mnemonic = .JSR → ∀ c : Addr, ¬ StackSlot s 0 c → ¬ StackSlot s (-1) c → t.peek c = s.peek c) ∧
    (i = .brk → ∀ c : Addr, ¬ StackSlot s 0 c → ¬ StackSlot s (-1) c → ¬ StackSlot s (-2) c → t.peek c = s.peek c)

/-- R29: no instruction writes U or B: a step, whether it completes or fails, leaves bits 5 and 4 of P as they were. -/
def Obligations.NoStepWritesUOrB : Prop :=
  ∀ s t : State, EndsIn (step s) t → t.flag .U = s.flag .U ∧ t.flag .B = s.flag .B

/-- R7, R60: no step changes a parameter. Nor does a step change the address map, which is the model's own: the spec leaves the
map to BUS and does not say that it is fixed (log 2, log 7; a banked range is a device here). -/
def Obligations.StepKeepsParametersAndMap : Prop :=
  ∀ s t : State, EndsIn (step s) t → t.cfg = s.cfg ∧ t.bus.map = s.bus.map

/-- A step never changes the byte the model stores at an address whose writes fail or that belongs to a device. The kinds of
region, that a stored byte changes only by a write of the core, and that a failing access changes nothing are the model's
choices (log 2, log 7, log 13). What a device answers may change with every access (R50, R66): the byte stored behind it is
never read. -/
def Obligations.ReadOnlyBytesNeverChange : Prop :=
  ∀ (s t : State) (a : Addr), Memory.wf s.bus.mem = true → EndsIn (step s) t →
    s.bus.kindAt a = .rom ∨ s.bus.kindAt a = .unmapped ∨ s.bus.kindAt a = .device → t.peek a = s.peek a

/-- R69: the accesses of a step come after all accesses before it: the history only grows, by at least one access unless the
opcode fetch itself fails. -/
def Obligations.HistoryOnlyGrows : Prop :=
  ∀ s t : State, EndsIn (step s) t →
    (∃ events : List BusEvent, t.bus.log = events ++ s.bus.log) ∧
    (t.bus.log = s.bus.log → step s = .fault (.busError s.pc .read s))

/-- R59, R69: from every sound state a step gives a sound state: memory keeps its canonical form, and every byte is what the
last access at its address moved. The canonical form and the history are the model's own representation (log 2). -/
def Obligations.StepKeepsSoundness : Prop :=
  ∀ s t : State, s.Inv → step s = .next t → t.Inv

/-- R234, R236: the state an error leaves is sound too, so that a host may dispatch again from it. That a failing access leaves
the bus as it was is the model's reading (log 13). -/
def Obligations.ErrorsLeaveASoundState : Prop :=
  ∀ (s : State) (f : Fault), s.Inv → step s = .fault f → f.left.Inv

/-- R260: the state after `create()` where no core exists, which makes no bus access: every register zero, the bus as it was
given. -/
def Obligations.CreateZeroesEveryRegister : Prop :=
  ∀ (cfg : Config) (bus : Bus),
    ∃ s : State, hostCall (.create cfg bus) .absent = some (.done, .live s) ∧
      s.pc = 0 ∧ s.sp = 0 ∧ s.a = 0 ∧ s.x = 0 ∧ s.y = 0 ∧ s.p = 0 ∧ s.bus = bus ∧ s.cfg = cfg

/-- The reset machine is a created one in the default configuration (R8) on an empty flat bus, and it is sound. The empty
flat bus is the model's choice (log 3, log 4, log 5). -/
def Obligations.ResetIsSound : Prop :=
  State.reset = State.create Config.default { mem := [], map := [], log := [] } ∧ State.reset.Inv

/-- R261: after `destroy()` no operation of the core is defined. -/
def Obligations.NothingRunsAfterDestroy : Prop :=
  ∀ (s : State) (c : HostCall),
    hostCall .destroy (.live s) = some (.done, .absent) ∧
    ((∀ (cfg : Config) (bus : Bus), c ≠ .create cfg bus) → hostCall c .absent = none)

/-- R56, R105, R232: no dispatch ends in LiteralWrite, from any state. -/
def Obligations.LiteralWriteIsUnreachable : Prop :=
  ∀ (s t : State), step s ≠ .fault (.literalWrite t)

/-- R230, R235: a BusError names an access that the bus refuses in the state left, and its direction. -/
def Obligations.BusErrorNamesARefusedAccess : Prop :=
  ∀ (s t : State) (a : Addr) (dir : Dir), step s = .fault (.busError a dir t) →
    (dir = .read → t.bus.read a = none) ∧ (dir = .write → ∃ v : Byte, t.bus.write a v = none)

/-- R230, R110, R242: on a bus that refuses no access, now or after any further accesses, every one of the 151 instructions
completes, at any operands, in any register state; and a dispatch then answers Ok or IllegalOpcode. A flat RAM is such a
bus. -/
def Obligations.EveryInstructionCompletesOnFlatMemory : Prop :=
  (∀ b : Bus, b.Flat → b.NeverRefuses) ∧
  ∀ s : State, s.bus.NeverRefuses →
    (∀ i : Instr, ∃ t : State, exec i s = .next t) ∧
    ((∃ t : State, step s = .next t) ∨ ∃ (op : Byte) (t : State), step s = .fault (.illegalOpcode op t))

/-- R30, R32: D and I steer nothing. For every instruction that does not itself read or write the whole of P (PHP, BRK, PLP,
RTI) or write that very flag (SED and CLD for D, SEI and CLI for I), running from a state with the flag changed ends just as
running first and changing the flag afterwards, in a next state or in the same error. -/
def Obligations.DecimalAndInterruptFlagsSteerNothing : Prop :=
  ∀ (i : Instr) (s : State) (f : Flag) (b : Bool),
    (f = .D ∧ i.mnemonic ≠ .SED ∧ i.mnemonic ≠ .CLD) ∨ (f = .I ∧ i.mnemonic ≠ .SEI ∧ i.mnemonic ≠ .CLI) →
    i.mnemonic ∉ ([.PHP, .BRK, .PLP, .RTI] : List Mnemonic) →
    exec i (s.setFlag f b) = mapResult (fun t => t.setFlag f b) (exec i s)

/-- R72, R271: a byte stored in RAM by an instruction, any store, read-modify-write, push, JSR or BRK, is what the next fetch
at that address reads. -/
def Obligations.StoredByteIsFetchedNext : Prop :=
  ∀ (i : Instr) (s t : State) (a : Addr) (v : Byte), Memory.wf s.bus.mem = true → s.bus.kindAt a = .ram →
    StoresByte i s a v → exec i s = .next t → ∃ u : State, fetchByte (t.setPc a) = .ok v u

/-- R121, R92: the offset byte computed for a label takes every branch whose condition holds to that label. That the range is
taken on integers is the model's reading (log 14). -/
def Obligations.BranchOffsetReachesItsLabel : Prop :=
  ∀ (i : Instr) (s : State) (label : Addr) (off : Byte) (f : Flag) (b : Bool),
    (i, f, b) ∈ ([(.bpl off, .N, false), (.bmi off, .N, true), (.bvc off, .V, false), (.bvs off, .V, true),
      (.bcc off, .C, false), (.bcs off, .C, true), (.bne off, .Z, false), (.beq off, .Z, true)] : List (Instr × Flag × Bool)) →
    branchOffset (s.pc - 2) label = some off → s.flag f = b → exec i s = .next (s.setPc label)

/-- R51, R53, R55, R58, R111: what it is to read an operand. A memory operand resolves to the reference of its address; reading
it is one read of the bus there, after the resolver's own; a failing resolution and a failing read are its only failures. A
register and an immediate byte are read without the bus. -/
def Obligations.OperandIsReadWhereItResolves : Prop :=
  ∀ (s : State) (v : Byte) (a : Addr) (m : MemOperand),
    memRead a s = readRef (.mem a) s ∧ memWrite a v s = writeRef (.mem a) v s ∧
    readOperand .acc s = .ok s.a s ∧ readOperand (.imm v) s = .ok v s ∧
    (∀ (r : Ref) (t : State), resolve (.mem m) s = .ok r t ↔ ∃ c : Addr, r = .mem c ∧ resolveAddr m s = .ok c t) ∧
    (∀ f : Fault, resolveAddr m s = .fail f → resolve (.mem m) s = .fail f ∧ readOperand (.mem m) s = .fail f) ∧
    (∀ t : State, resolveAddr m s = .ok a t →
      (∀ b : Bus, t.bus.read a = some (v, b) → readOperand (.mem m) s = .ok v (t.setBus b)) ∧
      (t.bus.read a = none → readOperand (.mem m) s = .fail (.busError a .read t)))
end

