-- ==== Sys2Proof/Laws/PerInstr.lean ====
section
/-! SUPPORT. One lemma for each instruction: the opcode that spec/opcode_table.json and the family rules give it stands in the
opcode map of 30_encoding.md R101 with its own mnemonic and mode. The map and the opcode list are written apart. -/

namespace Sys2Proof.Laws.TableRow

/-- The decoder table's entry at the instruction's opcode is the instruction's row (R100, R101). -/
def Statement (i : Instr) : Prop := decodeTable i.opcode = .row i.mnemonic i.mode

theorem ldaImm (v : Byte) : Statement (.ldaImm v) := (rfl : decodeTable 0xA9 = .row .LDA .imm)
theorem ldaZp (b : Byte) : Statement (.ldaZp b) := (rfl : decodeTable 0xA5 = .row .LDA .zp)
theorem ldaZpX (b : Byte) : Statement (.ldaZpX b) := (rfl : decodeTable 0xB5 = .row .LDA .zpX)
theorem ldaAbs (a : Addr) : Statement (.ldaAbs a) := (rfl : decodeTable 0xAD = .row .LDA .abs)
theorem ldaAbsX (a : Addr) : Statement (.ldaAbsX a) := (rfl : decodeTable 0xBD = .row .LDA .absX)
theorem ldaAbsY (a : Addr) : Statement (.ldaAbsY a) := (rfl : decodeTable 0xB9 = .row .LDA .absY)
theorem ldaIndX (q : Byte) : Statement (.ldaIndX q) := (rfl : decodeTable 0xA1 = .row .LDA .indX)
theorem ldaIndY (q : Byte) : Statement (.ldaIndY q) := (rfl : decodeTable 0xB1 = .row .LDA .indY)
theorem ldxImm (v : Byte) : Statement (.ldxImm v) := (rfl : decodeTable 0xA2 = .row .LDX .imm)
theorem ldxZp (b : Byte) : Statement (.ldxZp b) := (rfl : decodeTable 0xA6 = .row .LDX .zp)
theorem ldxZpY (b : Byte) : Statement (.ldxZpY b) := (rfl : decodeTable 0xB6 = .row .LDX .zpY)
theorem ldxAbs (a : Addr) : Statement (.ldxAbs a) := (rfl : decodeTable 0xAE = .row .LDX .abs)
theorem ldxAbsY (a : Addr) : Statement (.ldxAbsY a) := (rfl : decodeTable 0xBE = .row .LDX .absY)
theorem ldyImm (v : Byte) : Statement (.ldyImm v) := (rfl : decodeTable 0xA0 = .row .LDY .imm)
theorem ldyZp (b : Byte) : Statement (.ldyZp b) := (rfl : decodeTable 0xA4 = .row .LDY .zp)
theorem ldyZpX (b : Byte) : Statement (.ldyZpX b) := (rfl : decodeTable 0xB4 = .row .LDY .zpX)
theorem ldyAbs (a : Addr) : Statement (.ldyAbs a) := (rfl : decodeTable 0xAC = .row .LDY .abs)
theorem ldyAbsX (a : Addr) : Statement (.ldyAbsX a) := (rfl : decodeTable 0xBC = .row .LDY .absX)
theorem incZp (b : Byte) : Statement (.incZp b) := (rfl : decodeTable 0xE6 = .row .INC .zp)
theorem incZpX (b : Byte) : Statement (.incZpX b) := (rfl : decodeTable 0xF6 = .row .INC .zpX)
theorem incAbs (a : Addr) : Statement (.incAbs a) := (rfl : decodeTable 0xEE = .row .INC .abs)
theorem incAbsX (a : Addr) : Statement (.incAbsX a) := (rfl : decodeTable 0xFE = .row .INC .absX)
theorem decZp (b : Byte) : Statement (.decZp b) := (rfl : decodeTable 0xC6 = .row .DEC .zp)
theorem decZpX (b : Byte) : Statement (.decZpX b) := (rfl : decodeTable 0xD6 = .row .DEC .zpX)
theorem decAbs (a : Addr) : Statement (.decAbs a) := (rfl : decodeTable 0xCE = .row .DEC .abs)
theorem decAbsX (a : Addr) : Statement (.decAbsX a) := (rfl : decodeTable 0xDE = .row .DEC .absX)
theorem inx : Statement .inx := (rfl : decodeTable 0xE8 = .row .INX .imp)
theorem iny : Statement .iny := (rfl : decodeTable 0xC8 = .row .INY .imp)
theorem dex : Statement .dex := (rfl : decodeTable 0xCA = .row .DEX .imp)
theorem dey : Statement .dey := (rfl : decodeTable 0x88 = .row .DEY .imp)
theorem sec : Statement .sec := (rfl : decodeTable 0x38 = .row .SEC .imp)
theorem sed : Statement .sed := (rfl : decodeTable 0xF8 = .row .SED .imp)
theorem sei : Statement .sei := (rfl : decodeTable 0x78 = .row .SEI .imp)
theorem clc : Statement .clc := (rfl : decodeTable 0x18 = .row .CLC .imp)
theorem cld : Statement .cld := (rfl : decodeTable 0xD8 = .row .CLD .imp)
theorem cli : Statement .cli := (rfl : decodeTable 0x58 = .row .CLI .imp)
theorem clv : Statement .clv := (rfl : decodeTable 0xB8 = .row .CLV .imp)
theorem adcImm (v : Byte) : Statement (.adcImm v) := (rfl : decodeTable 0x69 = .row .ADC .imm)
theorem adcZp (b : Byte) : Statement (.adcZp b) := (rfl : decodeTable 0x65 = .row .ADC .zp)
theorem adcZpX (b : Byte) : Statement (.adcZpX b) := (rfl : decodeTable 0x75 = .row .ADC .zpX)
theorem adcAbs (a : Addr) : Statement (.adcAbs a) := (rfl : decodeTable 0x6D = .row .ADC .abs)
theorem adcAbsX (a : Addr) : Statement (.adcAbsX a) := (rfl : decodeTable 0x7D = .row .ADC .absX)
theorem adcAbsY (a : Addr) : Statement (.adcAbsY a) := (rfl : decodeTable 0x79 = .row .ADC .absY)
theorem adcIndX (q : Byte) : Statement (.adcIndX q) := (rfl : decodeTable 0x61 = .row .ADC .indX)
theorem adcIndY (q : Byte) : Statement (.adcIndY q) := (rfl : decodeTable 0x71 = .row .ADC .indY)
theorem sbcImm (v : Byte) : Statement (.sbcImm v) := (rfl : decodeTable 0xE9 = .row .SBC .imm)
theorem sbcZp (b : Byte) : Statement (.sbcZp b) := (rfl : decodeTable 0xE5 = .row .SBC .zp)
theorem sbcZpX (b : Byte) : Statement (.sbcZpX b) := (rfl : decodeTable 0xF5 = .row .SBC .zpX)
theorem sbcAbs (a : Addr) : Statement (.sbcAbs a) := (rfl : decodeTable 0xED = .row .SBC .abs)
theorem sbcAbsX (a : Addr) : Statement (.sbcAbsX a) := (rfl : decodeTable 0xFD = .row .SBC .absX)
theorem sbcAbsY (a : Addr) : Statement (.sbcAbsY a) := (rfl : decodeTable 0xF9 = .row .SBC .absY)
theorem sbcIndX (q : Byte) : Statement (.sbcIndX q) := (rfl : decodeTable 0xE1 = .row .SBC .indX)
theorem sbcIndY (q : Byte) : Statement (.sbcIndY q) := (rfl : decodeTable 0xF1 = .row .SBC .indY)
theorem andImm (v : Byte) : Statement (.andImm v) := (rfl : decodeTable 0x29 = .row .AND .imm)
theorem andZp (b : Byte) : Statement (.andZp b) := (rfl : decodeTable 0x25 = .row .AND .zp)
theorem andZpX (b : Byte) : Statement (.andZpX b) := (rfl : decodeTable 0x35 = .row .AND .zpX)
theorem andAbs (a : Addr) : Statement (.andAbs a) := (rfl : decodeTable 0x2D = .row .AND .abs)
theorem andAbsX (a : Addr) : Statement (.andAbsX a) := (rfl : decodeTable 0x3D = .row .AND .absX)
theorem andAbsY (a : Addr) : Statement (.andAbsY a) := (rfl : decodeTable 0x39 = .row .AND .absY)
theorem andIndX (q : Byte) : Statement (.andIndX q) := (rfl : decodeTable 0x21 = .row .AND .indX)
theorem andIndY (q : Byte) : Statement (.andIndY q) := (rfl : decodeTable 0x31 = .row .AND .indY)
theorem oraImm (v : Byte) : Statement (.oraImm v) := (rfl : decodeTable 0x09 = .row .ORA .imm)
theorem oraZp (b : Byte) : Statement (.oraZp b) := (rfl : decodeTable 0x05 = .row .ORA .zp)
theorem oraZpX (b : Byte) : Statement (.oraZpX b) := (rfl : decodeTable 0x15 = .row .ORA .zpX)
theorem oraAbs (a : Addr) : Statement (.oraAbs a) := (rfl : decodeTable 0x0D = .row .ORA .abs)
theorem oraAbsX (a : Addr) : Statement (.oraAbsX a) := (rfl : decodeTable 0x1D = .row .ORA .absX)
theorem oraAbsY (a : Addr) : Statement (.oraAbsY a) := (rfl : decodeTable 0x19 = .row .ORA .absY)
theorem oraIndX (q : Byte) : Statement (.oraIndX q) := (rfl : decodeTable 0x01 = .row .ORA .indX)
theorem oraIndY (q : Byte) : Statement (.oraIndY q) := (rfl : decodeTable 0x11 = .row .ORA .indY)
theorem eorImm (v : Byte) : Statement (.eorImm v) := (rfl : decodeTable 0x49 = .row .EOR .imm)
theorem eorZp (b : Byte) : Statement (.eorZp b) := (rfl : decodeTable 0x45 = .row .EOR .zp)
theorem eorZpX (b : Byte) : Statement (.eorZpX b) := (rfl : decodeTable 0x55 = .row .EOR .zpX)
theorem eorAbs (a : Addr) : Statement (.eorAbs a) := (rfl : decodeTable 0x4D = .row .EOR .abs)
theorem eorAbsX (a : Addr) : Statement (.eorAbsX a) := (rfl : decodeTable 0x5D = .row .EOR .absX)
theorem eorAbsY (a : Addr) : Statement (.eorAbsY a) := (rfl : decodeTable 0x59 = .row .EOR .absY)
theorem eorIndX (q : Byte) : Statement (.eorIndX q) := (rfl : decodeTable 0x41 = .row .EOR .indX)
theorem eorIndY (q : Byte) : Statement (.eorIndY q) := (rfl : decodeTable 0x51 = .row .EOR .indY)
theorem aslA : Statement .aslA := (rfl : decodeTable 0x0A = .row .ASL .acc)
theorem aslZp (b : Byte) : Statement (.aslZp b) := (rfl : decodeTable 0x06 = .row .ASL .zp)
theorem aslZpX (b : Byte) : Statement (.aslZpX b) := (rfl : decodeTable 0x16 = .row .ASL .zpX)
theorem aslAbs (a : Addr) : Statement (.aslAbs a) := (rfl : decodeTable 0x0E = .row .ASL .abs)
theorem aslAbsX (a : Addr) : Statement (.aslAbsX a) := (rfl : decodeTable 0x1E = .row .ASL .absX)
theorem lsrA : Statement .lsrA := (rfl : decodeTable 0x4A = .row .LSR .acc)
theorem lsrZp (b : Byte) : Statement (.lsrZp b) := (rfl : decodeTable 0x46 = .row .LSR .zp)
theorem lsrZpX (b : Byte) : Statement (.lsrZpX b) := (rfl : decodeTable 0x56 = .row .LSR .zpX)
theorem lsrAbs (a : Addr) : Statement (.lsrAbs a) := (rfl : decodeTable 0x4E = .row .LSR .abs)
theorem lsrAbsX (a : Addr) : Statement (.lsrAbsX a) := (rfl : decodeTable 0x5E = .row .LSR .absX)
theorem rolA : Statement .rolA := (rfl : decodeTable 0x2A = .row .ROL .acc)
theorem rolZp (b : Byte) : Statement (.rolZp b) := (rfl : decodeTable 0x26 = .row .ROL .zp)
theorem rolZpX (b : Byte) : Statement (.rolZpX b) := (rfl : decodeTable 0x36 = .row .ROL .zpX)
theorem rolAbs (a : Addr) : Statement (.rolAbs a) := (rfl : decodeTable 0x2E = .row .ROL .abs)
theorem rolAbsX (a : Addr) : Statement (.rolAbsX a) := (rfl : decodeTable 0x3E = .row .ROL .absX)
theorem rorA : Statement .rorA := (rfl : decodeTable 0x6A = .row .ROR .acc)
theorem rorZp (b : Byte) : Statement (.rorZp b) := (rfl : decodeTable 0x66 = .row .ROR .zp)
theorem rorZpX (b : Byte) : Statement (.rorZpX b) := (rfl : decodeTable 0x76 = .row .ROR .zpX)
theorem rorAbs (a : Addr) : Statement (.rorAbs a) := (rfl : decodeTable 0x6E = .row .ROR .abs)
theorem rorAbsX (a : Addr) : Statement (.rorAbsX a) := (rfl : decodeTable 0x7E = .row .ROR .absX)
theorem cmpImm (v : Byte) : Statement (.cmpImm v) := (rfl : decodeTable 0xC9 = .row .CMP .imm)
theorem cmpZp (b : Byte) : Statement (.cmpZp b) := (rfl : decodeTable 0xC5 = .row .CMP .zp)
theorem cmpZpX (b : Byte) : Statement (.cmpZpX b) := (rfl : decodeTable 0xD5 = .row .CMP .zpX)
theorem cmpAbs (a : Addr) : Statement (.cmpAbs a) := (rfl : decodeTable 0xCD = .row .CMP .abs)
theorem cmpAbsX (a : Addr) : Statement (.cmpAbsX a) := (rfl : decodeTable 0xDD = .row .CMP .absX)
theorem cmpAbsY (a : Addr) : Statement (.cmpAbsY a) := (rfl : decodeTable 0xD9 = .row .CMP .absY)
theorem cmpIndX (q : Byte) : Statement (.cmpIndX q) := (rfl : decodeTable 0xC1 = .row .CMP .indX)
theorem cmpIndY (q : Byte) : Statement (.cmpIndY q) := (rfl : decodeTable 0xD1 = .row .CMP .indY)
theorem cpxImm (v : Byte) : Statement (.cpxImm v) := (rfl : decodeTable 0xE0 = .row .CPX .imm)
theorem cpxZp (b : Byte) : Statement (.cpxZp b) := (rfl : decodeTable 0xE4 = .row .CPX .zp)
theorem cpxAbs (a : Addr) : Statement (.cpxAbs a) := (rfl : decodeTable 0xEC = .row .CPX .abs)
theorem cpyImm (v : Byte) : Statement (.cpyImm v) := (rfl : decodeTable 0xC0 = .row .CPY .imm)
theorem cpyZp (b : Byte) : Statement (.cpyZp b) := (rfl : decodeTable 0xC4 = .row .CPY .zp)
theorem cpyAbs (a : Addr) : Statement (.cpyAbs a) := (rfl : decodeTable 0xCC = .row .CPY .abs)
theorem bitZp (b : Byte) : Statement (.bitZp b) := (rfl : decodeTable 0x24 = .row .BIT .zp)
theorem bitAbs (a : Addr) : Statement (.bitAbs a) := (rfl : decodeTable 0x2C = .row .BIT .abs)
theorem bpl (d : Byte) : Statement (.bpl d) := (rfl : decodeTable 0x10 = .row .BPL .rel)
theorem bmi (d : Byte) : Statement (.bmi d) := (rfl : decodeTable 0x30 = .row .BMI .rel)
theorem bvc (d : Byte) : Statement (.bvc d) := (rfl : decodeTable 0x50 = .row .BVC .rel)
theorem bvs (d : Byte) : Statement (.bvs d) := (rfl : decodeTable 0x70 = .row .BVS .rel)
theorem bcc (d : Byte) : Statement (.bcc d) := (rfl : decodeTable 0x90 = .row .BCC .rel)
theorem bcs (d : Byte) : Statement (.bcs d) := (rfl : decodeTable 0xB0 = .row .BCS .rel)
theorem bne (d : Byte) : Statement (.bne d) := (rfl : decodeTable 0xD0 = .row .BNE .rel)
theorem beq (d : Byte) : Statement (.beq d) := (rfl : decodeTable 0xF0 = .row .BEQ .rel)
theorem jmpAbs (a : Addr) : Statement (.jmpAbs a) := (rfl : decodeTable 0x4C = .row .JMP .abs)
theorem jmpInd (q : Addr) : Statement (.jmpInd q) := (rfl : decodeTable 0x6C = .row .JMP .ind)
theorem pha : Statement .pha := (rfl : decodeTable 0x48 = .row .PHA .imp)
theorem php : Statement .php := (rfl : decodeTable 0x08 = .row .PHP .imp)
theorem pla : Statement .pla := (rfl : decodeTable 0x68 = .row .PLA .imp)
theorem plp : Statement .plp := (rfl : decodeTable 0x28 = .row .PLP .imp)
theorem jsr (a : Addr) : Statement (.jsr a) := (rfl : decodeTable 0x20 = .row .JSR .abs)
theorem rts : Statement .rts := (rfl : decodeTable 0x60 = .row .RTS .imp)
theorem rti : Statement .rti := (rfl : decodeTable 0x40 = .row .RTI .imp)
theorem brk : Statement .brk := (rfl : decodeTable 0x00 = .row .BRK .imp)
theorem staZp (b : Byte) : Statement (.staZp b) := (rfl : decodeTable 0x85 = .row .STA .zp)
theorem staZpX (b : Byte) : Statement (.staZpX b) := (rfl : decodeTable 0x95 = .row .STA .zpX)
theorem staAbs (a : Addr) : Statement (.staAbs a) := (rfl : decodeTable 0x8D = .row .STA .abs)
theorem staAbsX (a : Addr) : Statement (.staAbsX a) := (rfl : decodeTable 0x9D = .row .STA .absX)
theorem staAbsY (a : Addr) : Statement (.staAbsY a) := (rfl : decodeTable 0x99 = .row .STA .absY)
theorem staIndX (q : Byte) : Statement (.staIndX q) := (rfl : decodeTable 0x81 = .row .STA .indX)
theorem staIndY (q : Byte) : Statement (.staIndY q) := (rfl : decodeTable 0x91 = .row .STA .indY)
theorem stxZp (b : Byte) : Statement (.stxZp b) := (rfl : decodeTable 0x86 = .row .STX .zp)
theorem stxZpY (b : Byte) : Statement (.stxZpY b) := (rfl : decodeTable 0x96 = .row .STX .zpY)
theorem stxAbs (a : Addr) : Statement (.stxAbs a) := (rfl : decodeTable 0x8E = .row .STX .abs)
theorem styZp (b : Byte) : Statement (.styZp b) := (rfl : decodeTable 0x84 = .row .STY .zp)
theorem styZpX (b : Byte) : Statement (.styZpX b) := (rfl : decodeTable 0x94 = .row .STY .zpX)
theorem styAbs (a : Addr) : Statement (.styAbs a) := (rfl : decodeTable 0x8C = .row .STY .abs)
theorem tax : Statement .tax := (rfl : decodeTable 0xAA = .row .TAX .imp)
theorem tay : Statement .tay := (rfl : decodeTable 0xA8 = .row .TAY .imp)
theorem txa : Statement .txa := (rfl : decodeTable 0x8A = .row .TXA .imp)
theorem tya : Statement .tya := (rfl : decodeTable 0x98 = .row .TYA .imp)
theorem tsx : Statement .tsx := (rfl : decodeTable 0xBA = .row .TSX .imp)
theorem txs : Statement .txs := (rfl : decodeTable 0x9A = .row .TXS .imp)
theorem nop : Statement .nop := (rfl : decodeTable 0xEA = .row .NOP .imp)

/-- Every instruction's opcode is its row of the table. -/
theorem all (i : Instr) : Statement i := by
  cases i
  case ldaImm v => exact ldaImm v
  case ldaZp b => exact ldaZp b
  case ldaZpX b => exact ldaZpX b
  case ldaAbs a => exact ldaAbs a
  case ldaAbsX a => exact ldaAbsX a
  case ldaAbsY a => exact ldaAbsY a
  case ldaIndX q => exact ldaIndX q
  case ldaIndY q => exact ldaIndY q
  case ldxImm v => exact ldxImm v
  case ldxZp b => exact ldxZp b
  case ldxZpY b => exact ldxZpY b
  case ldxAbs a => exact ldxAbs a
  case ldxAbsY a => exact ldxAbsY a
  case ldyImm v => exact ldyImm v
  case ldyZp b => exact ldyZp b
  case ldyZpX b => exact ldyZpX b
  case ldyAbs a => exact ldyAbs a
  case ldyAbsX a => exact ldyAbsX a
  case incZp b => exact incZp b
  case incZpX b => exact incZpX b
  case incAbs a => exact incAbs a
  case incAbsX a => exact incAbsX a
  case decZp b => exact decZp b
  case decZpX b => exact decZpX b
  case decAbs a => exact decAbs a
  case decAbsX a => exact decAbsX a
  case inx => exact inx
  case iny => exact iny
  case dex => exact dex
  case dey => exact dey
  case sec => exact sec
  case sed => exact sed
  case sei => exact sei
  case clc => exact clc
  case cld => exact cld
  case cli => exact cli
  case clv => exact clv
  case adcImm v => exact adcImm v
  case adcZp b => exact adcZp b
  case adcZpX b => exact adcZpX b
  case adcAbs a => exact adcAbs a
  case adcAbsX a => exact adcAbsX a
  case adcAbsY a => exact adcAbsY a
  case adcIndX q => exact adcIndX q
  case adcIndY q => exact adcIndY q
  case sbcImm v => exact sbcImm v
  case sbcZp b => exact sbcZp b
  case sbcZpX b => exact sbcZpX b
  case sbcAbs a => exact sbcAbs a
  case sbcAbsX a => exact sbcAbsX a
  case sbcAbsY a => exact sbcAbsY a
  case sbcIndX q => exact sbcIndX q
  case sbcIndY q => exact sbcIndY q
  case andImm v => exact andImm v
  case andZp b => exact andZp b
  case andZpX b => exact andZpX b
  case andAbs a => exact andAbs a
  case andAbsX a => exact andAbsX a
  case andAbsY a => exact andAbsY a
  case andIndX q => exact andIndX q
  case andIndY q => exact andIndY q
  case oraImm v => exact oraImm v
  case oraZp b => exact oraZp b
  case oraZpX b => exact oraZpX b
  case oraAbs a => exact oraAbs a
  case oraAbsX a => exact oraAbsX a
  case oraAbsY a => exact oraAbsY a
  case oraIndX q => exact oraIndX q
  case oraIndY q => exact oraIndY q
  case eorImm v => exact eorImm v
  case eorZp b => exact eorZp b
  case eorZpX b => exact eorZpX b
  case eorAbs a => exact eorAbs a
  case eorAbsX a => exact eorAbsX a
  case eorAbsY a => exact eorAbsY a
  case eorIndX q => exact eorIndX q
  case eorIndY q => exact eorIndY q
  case aslA => exact aslA
  case aslZp b => exact aslZp b
  case aslZpX b => exact aslZpX b
  case aslAbs a => exact aslAbs a
  case aslAbsX a => exact aslAbsX a
  case lsrA => exact lsrA
  case lsrZp b => exact lsrZp b
  case lsrZpX b => exact lsrZpX b
  case lsrAbs a => exact lsrAbs a
  case lsrAbsX a => exact lsrAbsX a
  case rolA => exact rolA
  case rolZp b => exact rolZp b
  case rolZpX b => exact rolZpX b
  case rolAbs a => exact rolAbs a
  case rolAbsX a => exact rolAbsX a
  case rorA => exact rorA
  case rorZp b => exact rorZp b
  case rorZpX b => exact rorZpX b
  case rorAbs a => exact rorAbs a
  case rorAbsX a => exact rorAbsX a
  case cmpImm v => exact cmpImm v
  case cmpZp b => exact cmpZp b
  case cmpZpX b => exact cmpZpX b
  case cmpAbs a => exact cmpAbs a
  case cmpAbsX a => exact cmpAbsX a
  case cmpAbsY a => exact cmpAbsY a
  case cmpIndX q => exact cmpIndX q
  case cmpIndY q => exact cmpIndY q
  case cpxImm v => exact cpxImm v
  case cpxZp b => exact cpxZp b
  case cpxAbs a => exact cpxAbs a
  case cpyImm v => exact cpyImm v
  case cpyZp b => exact cpyZp b
  case cpyAbs a => exact cpyAbs a
  case bitZp b => exact bitZp b
  case bitAbs a => exact bitAbs a
  case bpl d => exact bpl d
  case bmi d => exact bmi d
  case bvc d => exact bvc d
  case bvs d => exact bvs d
  case bcc d => exact bcc d
  case bcs d => exact bcs d
  case bne d => exact bne d
  case beq d => exact beq d
  case jmpAbs a => exact jmpAbs a
  case jmpInd q => exact jmpInd q
  case pha => exact pha
  case php => exact php
  case pla => exact pla
  case plp => exact plp
  case jsr a => exact jsr a
  case rts => exact rts
  case rti => exact rti
  case brk => exact brk
  case staZp b => exact staZp b
  case staZpX b => exact staZpX b
  case staAbs a => exact staAbs a
  case staAbsX a => exact staAbsX a
  case staAbsY a => exact staAbsY a
  case staIndX q => exact staIndX q
  case staIndY q => exact staIndY q
  case stxZp b => exact stxZp b
  case stxZpY b => exact stxZpY b
  case stxAbs a => exact stxAbs a
  case styZp b => exact styZp b
  case styZpX b => exact styZpX b
  case styAbs a => exact styAbs a
  case tax => exact tax
  case tay => exact tay
  case txa => exact txa
  case tya => exact tya
  case tsx => exact tsx
  case txs => exact txs
  case nop => exact nop

end Sys2Proof.Laws.TableRow
end

