-- ==== Sys2Proof/Laws/Decode.lean ====
section
/-! SUPPORT. Small laws of the encoding: byte order, the shape of the opcode map, and the parts of an instruction. -/

namespace Sys2Proof

@[simp] theorem loByte_wordOf (lo hi : Byte) : loByte (wordOf lo hi) = lo := by
  apply BitVec.eq_of_getLsbD_eq; intro k hk; simp only [loByte, wordOf, BitVec.getLsbD_extractLsb', BitVec.getLsbD_append]; simp [hk]

@[simp] theorem hiByte_wordOf (lo hi : Byte) : hiByte (wordOf lo hi) = hi := by
  apply BitVec.eq_of_getLsbD_eq; intro k hk; simp only [hiByte, wordOf, BitVec.getLsbD_extractLsb', BitVec.getLsbD_append]; simp [hk]

@[simp] theorem wordOf_loByte_hiByte (a : Addr) : wordOf (loByte a) (hiByte a) = a := by
  apply BitVec.eq_of_getLsbD_eq; intro k hk
  simp only [wordOf, loByte, hiByte, BitVec.getLsbD_append]
  by_cases h : k < 8
  · simp [h]
  · have h2 : k - 8 < 8 := by omega
    have h3 : 8 + (k - 8) = k := by omega
    simp [h, h2, h3]

/-- A 16-bit value as a number: the low byte plus 256 times the high byte (R63). -/
theorem wordOf_toNat (lo hi : Byte) : (wordOf lo hi).toNat = lo.toNat + 256 * hi.toNat := by
  have h1 := lo.isLt
  simp only [wordOf, BitVec.toNat_append]
  rw [← Nat.shiftLeft_add_eq_or_of_lt h1]
  simp [Nat.shiftLeft_eq]
  omega

@[simp] theorem zext_toNat (b : Byte) : (zext b).toNat = b.toNat := by
  have := b.isLt
  simp [zext]
  omega

/-- Every opcode byte has an entry: sixteen rows of sixteen (R100). -/
theorem opcodeMap_total : opcodeMap.map List.length = List.replicate 16 16 := by decide

/-- An instruction is the instruction of its parts. -/
@[simp] theorem Instr.ofParts_parts (i : Instr) : Instr.ofParts i.mnemonic i.operand = some i := by
  cases i <;> rfl

theorem decodeTable_opcode (i : Instr) : decodeTable i.opcode = .row i.mnemonic i.mode := Laws.TableRow.all i

/-- The operand bytes of a mode are as many as the table of R84 says. -/
theorem Operand.bytes_length (f : AbsIndexed) (o : Operand) : (o.bytes f).length = o.mode.streamBytes f := by
  cases o with
  | acc => rfl
  | imm v => rfl
  | mem m => cases m <;> cases f <;> rfl

/-- Taking back the operand bytes of a well-formed instruction gives its operand. -/
theorem takeOperand_bytes (f : AbsIndexed) (i : Instr) (rest : List Byte) (h : i.wf f = true) :
    takeOperand f i.mode (i.operandBytes f ++ rest) = some (i.operand, rest) := by
  unfold Instr.mode Instr.operandBytes
  unfold Instr.wf at h
  cases ho : i.operand with
  | none => rfl
  | some o =>
    simp only [ho] at h
    cases o with
    | acc => rfl
    | imm v => rfl
    | mem m =>
      cases m <;> cases f <;> simp_all [Operand.mode, MemOperand.mode, Operand.bytes, takeOperand, addrBytes,
        indexedBaseBytes, takeIndexedBase, Operand.wf, indexedBaseFits]
      all_goals
        apply BitVec.eq_of_toNat_eq
        simp [loByte, BitVec.extractLsb'_toNat]
        omega

/-- An instruction made of parts has those parts. -/
theorem Instr.ofParts_eq_some {mn : Mnemonic} {o : Option Operand} {i : Instr} (h : Instr.ofParts mn o = some i) :
    i.mnemonic = mn ∧ i.operand = o := by
  unfold Instr.ofParts at h
  cases mn <;> simp only at h <;> split at h <;> cases h <;> exact ⟨rfl, rfl⟩

/-- An operand of each mode, all bits zero. -/
def Mode.zeroOperand : Mode → Option Operand
  | .imp => none
  | .acc => some .acc
  | .imm => some (.imm 0)
  | .zp => some (.mem (.zp 0))
  | .zpX => some (.mem (.zpX 0))
  | .zpY => some (.mem (.zpY 0))
  | .abs => some (.mem (.abs 0))
  | .absX => some (.mem (.absX 0))
  | .absY => some (.mem (.absY 0))
  | .rel => some (.mem (.rel 0))
  | .indX => some (.mem (.indX 0))
  | .indY => some (.mem (.indY 0))
  | .ind => some (.mem (.ind 0))

/-- The opcode depends on the mnemonic and the mode alone. -/
theorem opcode_of_parts (i : Instr) :
    (Instr.ofParts i.mnemonic i.mode.zeroOperand).map Instr.opcode = some i.opcode := by
  cases i <;> rfl

/-- The opcode a row of the decoder table stands at is its instruction's. -/
theorem opcode_of_table (n : Fin 256) (mn : Mnemonic) (mode : Mode) (h : decodeTable (BitVec.ofFin n) = .row mn mode) :
    (Instr.ofParts mn mode.zeroOperand).map Instr.opcode = some (BitVec.ofFin n) := by
  have key : ∀ n : Fin 256, (match decodeTable (BitVec.ofFin n) with
      | .illegal => true
      | .row mn mode => decide ((Instr.ofParts mn mode.zeroOperand).map Instr.opcode = some (BitVec.ofFin n))) = true := by
    decide +kernel
  have := key n
  rw [h] at this
  simpa using this

/-- No two opcode bytes have one row (R101). -/
theorem opcode_of_row {op : Byte} {mn : Mnemonic} {mode : Mode} {i : Instr} (h : decodeTable op = .row mn mode)
    (h1 : i.mnemonic = mn) (h2 : i.mode = mode) : i.opcode = op := by
  have hi := opcode_of_parts i
  rw [h1, h2, opcode_of_table op.toFin mn mode h] at hi
  simpa using hi.symm

/-- What taking an operand gives has the mode asked for, and is well-formed; its bytes are the ones taken. -/
theorem takeOperand_eq_some {f : AbsIndexed} {mode : Mode} {bs rest : List Byte} {i : Instr}
    (h : takeOperand f mode bs = some (i.operand, rest)) :
    i.mode = mode ∧ i.wf f = true ∧ bs = i.operandBytes f ++ rest := by
  unfold Instr.mode Instr.wf Instr.operandBytes
  generalize i.operand = o at h
  unfold takeOperand at h
  split at h <;> simp at h
  all_goals try (obtain ⟨rfl, rfl⟩ := h; simp [Operand.mode, MemOperand.mode, Operand.wf, Operand.bytes, addrBytes])
  all_goals
    obtain ⟨a, h1, rfl⟩ := h
    cases f <;> unfold takeIndexedBase at h1 <;> split at h1 <;> simp at h1 <;> obtain ⟨rfl, rfl⟩ := h1 <;>
      simp_all [Operand.mode, MemOperand.mode, Operand.wf, Operand.bytes, indexedBaseBytes, addrBytes, indexedBaseFits]
    all_goals exact ⟨BitVec.isLt _, by apply BitVec.eq_of_toNat_eq; simp [loByte, BitVec.extractLsb'_toNat]; omega⟩

/-- All that decoding an opcode byte and the bytes after it can give. -/
theorem decode_cons_eq_ok {f : AbsIndexed} {op : Byte} {bs rest : List Byte} {i : Instr}
    (h : decode f (op :: bs) = .ok (i, rest)) : i.opcode = op ∧ takeOperand f i.mode bs = some (i.operand, rest) := by
  simp only [decode] at h
  split at h
  · cases h
  · rename_i mn mode ht
    split at h
    · cases h
    · rename_i o r hto
      split at h
      · cases h
      · rename_i j hp
        cases h
        obtain ⟨h1, rfl⟩ := Instr.ofParts_eq_some hp
        have hm := (takeOperand_eq_some hto).1
        exact ⟨opcode_of_row ht h1 hm, by rw [hm]; exact hto⟩

/-- The operand bytes the fetch unit takes for an opcode are those of its instruction's mode. -/
theorem operandCount_opcode (f : AbsIndexed) (i : Instr) : operandCount f i.opcode = i.mode.streamBytes f := by
  rw [operandCount, decodeTable_opcode]

/-- An encoding is as long as the instruction (R84). -/
theorem encode_length (f : AbsIndexed) (i : Instr) : (encode f i).length = i.length f := by
  unfold encode Instr.length Instr.operandBytes Instr.mode
  cases i.operand with
  | none => rfl
  | some o => simp [Operand.bytes_length]; omega

end Sys2Proof
end

