-- ==== Sys2Proof/Laws/Flags.lean ====
section
/-! SUPPORT. What each flag is after each flag computation. -/

namespace Sys2Proof.Machine

/-- One bit of P under `set_flag` (R28). -/
theorem setFlag_bit (p : Byte) (i : Fin 8) (b : Bool) (k : Nat) :
    (setFlag p i b).getLsbD k = if k = 7 - i.val then b else p.getLsbD k := by
  have hk : ∀ j : Nat, j < 8 → (flagMask i).getLsbD j = decide (j = 7 - i.val) := by
    revert i; decide
  unfold setFlag
  by_cases h8 : k < 8
  · cases b <;> by_cases h : k = 7 - i.val <;>
      simp only [Bool.false_eq_true, if_false, if_true, BitVec.getLsbD_and, BitVec.getLsbD_or, BitVec.getLsbD_not,
        hk k h8, h8, decide_true] <;> simp [h]
  · have : k ≠ 7 - i.val := by omega
    cases b <;> simp [this, BitVec.getLsbD_of_ge _ _ (Nat.le_of_not_lt h8)]

/-- `get_flag` after `set_flag` (R28). -/
theorem getFlag_setFlag (p : Byte) (i j : Fin 8) (b : Bool) :
    getFlag (setFlag p i b) j = if j = i then b else getFlag p j := by
  unfold getFlag
  rw [setFlag_bit]
  have : (7 - j.val = 7 - i.val) ↔ j = i := by omega
  simp [this]

@[simp] theorem Flag.index_inj (f g : Flag) : f.index = g.index ↔ f = g := by
  cases f <;> cases g <;> decide

/-- Two flag bytes with the same flags are the same byte (R26: one bit per flag). -/
theorem flags_ext {p q : Byte} (h : ∀ f : Flag, getFlag p f.index = getFlag q f.index) : p = q := by
  apply BitVec.eq_of_getLsbD_eq
  intro k hk
  have hN := h .N; have hV := h .V; have hU := h .U; have hB := h .B
  have hD := h .D; have hI := h .I; have hZ := h .Z; have hC := h .C
  simp only [getFlag, Flag.index] at hN hV hU hB hD hI hZ hC
  rcases k with _ | _ | _ | _ | _ | _ | _ | _ | k
  · exact hC
  · exact hZ
  · exact hI
  · exact hD
  · exact hB
  · exact hU
  · exact hV
  · exact hN
  · omega

theorem getFlag_setNZ (p v : Byte) (f : Flag) :
    getFlag (setNZ p v) f.index = if f = .Z then decide (v = 0) else if f = .N then v.msb else getFlag p f.index := by
  simp only [setNZ, getFlag_setFlag, Flag.index_inj]

theorem getFlag_sumFlags (p : Byte) (s : Sum8) (f : Flag) :
    getFlag (sumFlags p s) f.index =
      if f = .Z then decide (s.r = 0) else if f = .N then s.r.msb else if f = .V then s.v
      else if f = .C then s.c else getFlag p f.index := by
  simp only [sumFlags, getFlag_setNZ, getFlag_setFlag, Flag.index_inj]

theorem getFlag_compareFlags (p reg m : Byte) (f : Flag) :
    getFlag (compareFlags p reg m) f.index =
      if f = .N then (reg - m).msb else if f = .Z then decide (reg = m)
      else if f = .C then decide (reg.toNat ≥ m.toNat) else getFlag p f.index := by
  simp only [compareFlags, getFlag_setFlag, Flag.index_inj]

theorem getFlag_bitTestFlags (p acc m : Byte) (f : Flag) :
    getFlag (bitTestFlags p acc m) f.index =
      if f = .Z then decide (acc &&& m = 0) else if f = .V then m.getLsbD 6
      else if f = .N then m.getLsbD 7 else getFlag p f.index := by
  simp only [bitTestFlags, getFlag_setFlag, Flag.index_inj]

theorem getFlag_shiftFlags (p r : Byte) (out : Bool) (f : Flag) :
    getFlag (shiftFlags p r out) f.index =
      if f = .Z then decide (r = 0) else if f = .N then r.msb else if f = .C then out else getFlag p f.index := by
  simp only [shiftFlags, getFlag_setNZ, getFlag_setFlag, Flag.index_inj]

/-- The pushed copy of P has U and B set and agrees with P elsewhere (R29, R201). -/
theorem getFlag_pushedStatus (p : Byte) (f : Flag) :
    getFlag (pushedStatus p) f.index = if f = .U ∨ f = .B then true else getFlag p f.index := by
  cases f <;> simp [getFlag, pushedStatus, Flag.index]

/-- Pulling keeps U and B and takes the rest from the pulled byte (R29, R203). -/
theorem getFlag_pulledStatus (p v : Byte) (f : Flag) :
    getFlag (pulledStatus p v) f.index = if f = .U ∨ f = .B then getFlag p f.index else getFlag v f.index := by
  cases f <;> simp [getFlag, pulledStatus, Flag.index]

end Sys2Proof.Machine
end

