-- ==== Sys2Proof/Laws/Memory.lean ====
section
/-! SUPPORT. What memory and the bus can do, said once: a byte reads as last written, a write leaves every other byte
alone, the canonical form is kept, and what one bus access changes. -/

namespace Sys2Proof.Machine

/-! ### Memory -/

theorem Memory.wfFrom_mono {lo lo' : Nat} {m : List Host.Cell} (h : lo' ≤ lo) (hm : Memory.wfFrom lo m = true) :
    Memory.wfFrom lo' m = true := by
  cases m with
  | nil => rfl
  | cons c rest =>
    simp only [Memory.wfFrom, Bool.and_eq_true, decide_eq_true_eq] at hm ⊢
    exact ⟨⟨⟨by omega, hm.1.1.2⟩, hm.1.2⟩, hm.2⟩

/-- Below the first listed address every byte reads as unlisted. -/
theorem Memory.read_below {lo a : Nat} {m : List Host.Cell} (hm : Memory.wfFrom lo m = true) (h : a < lo) :
    Memory.read m a = Memory.unlisted := by
  induction m generalizing lo with
  | nil => rfl
  | cons c rest ih =>
    simp only [Memory.wfFrom, Bool.and_eq_true, decide_eq_true_eq] at hm
    simp only [Memory.read]
    rw [if_neg (by omega)]
    exact ih hm.2 (by omega)

theorem Memory.read_cons_same (a : Nat) (v : Byte) {rest : List Host.Cell} (hm : Memory.wfFrom (a + 1) rest = true) :
    Memory.read (Memory.cons a v rest) a = v := by
  unfold Memory.cons
  split
  · rename_i h; rw [Memory.read_below hm (by omega), h]
  · simp [Memory.read]

theorem Memory.read_cons_other {a c : Nat} (v : Byte) (rest : List Host.Cell) (h : c ≠ a) :
    Memory.read (Memory.cons a v rest) c = Memory.read rest c := by
  unfold Memory.cons
  split
  · rfl
  · simp [Memory.read, h]

theorem Memory.wfFrom_cons {lo a : Nat} {v : Byte} {rest : List Host.Cell} (hlo : lo ≤ a) (ha : a < 0x10000)
    (hm : Memory.wfFrom (a + 1) rest = true) : Memory.wfFrom lo (Memory.cons a v rest) = true := by
  unfold Memory.cons
  split
  · exact Memory.wfFrom_mono (by omega) hm
  · rename_i h; simp [Memory.wfFrom, hlo, ha, h, hm]

/-- Read after write at the same address. -/
theorem Memory.read_write_same {lo : Nat} (a : Nat) (v : Byte) {m : List Host.Cell} (hm : Memory.wfFrom lo m = true) :
    Memory.read (Memory.write a v m) a = v := by
  induction m generalizing lo with
  | nil => exact Memory.read_cons_same a v rfl
  | cons c rest ih =>
    simp only [Memory.wfFrom, Bool.and_eq_true, decide_eq_true_eq] at hm
    simp only [Memory.write]
    split
    · exact Memory.read_cons_same a v (by simp only [Memory.wfFrom, Bool.and_eq_true, decide_eq_true_eq]; exact ⟨⟨⟨by omega, hm.1.1.2⟩, hm.1.2⟩, hm.2⟩)
    · split
      · rename_i h1 h2; subst h2; exact Memory.read_cons_same _ v hm.2
      · rename_i h1 h2; simp only [Memory.read]; rw [if_neg h2]; exact ih hm.2

/-- A write leaves every other address alone. -/
theorem Memory.read_write_other {lo a c : Nat} (v : Byte) {m : List Host.Cell} (hm : Memory.wfFrom lo m = true)
    (h : c ≠ a) : Memory.read (Memory.write a v m) c = Memory.read m c := by
  induction m generalizing lo with
  | nil => exact Memory.read_cons_other v [] h
  | cons d rest ih =>
    simp only [Memory.wfFrom, Bool.and_eq_true, decide_eq_true_eq] at hm
    simp only [Memory.write]
    split
    · exact Memory.read_cons_other v _ h
    · split
      · rename_i h1 h2
        rw [Memory.read_cons_other v _ h]
        simp only [Memory.read]
        rw [if_neg (by omega)]
      · simp only [Memory.read]; rw [ih hm.2]

theorem Memory.write_wfFrom {lo a : Nat} (v : Byte) {m : List Host.Cell} (hm : Memory.wfFrom lo m = true) (hlo : lo ≤ a)
    (ha : a < 0x10000) : Memory.wfFrom lo (Memory.write a v m) = true := by
  induction m generalizing lo with
  | nil => exact Memory.wfFrom_cons hlo ha rfl
  | cons c rest ih =>
    have hm' := hm
    simp only [Memory.wfFrom, Bool.and_eq_true, decide_eq_true_eq] at hm
    simp only [Memory.write]
    split
    · exact Memory.wfFrom_cons hlo ha (by simp only [Memory.wfFrom, Bool.and_eq_true, decide_eq_true_eq]; exact ⟨⟨⟨by omega, hm.1.1.2⟩, hm.1.2⟩, hm.2⟩)
    · split
      · rename_i h1 h2; subst h2; exact Memory.wfFrom_cons hlo ha hm.2
      · simp only [Memory.wfFrom, Bool.and_eq_true, decide_eq_true_eq]
        exact ⟨⟨⟨hm.1.1.1, hm.1.1.2⟩, hm.1.2⟩, ih hm.2 (by omega)⟩

/-- Every write keeps the canonical form. -/
theorem Memory.write_wf {m : List Host.Cell} (a : Addr) (v : Byte) (hm : Memory.wf m = true) :
    Memory.wf (Memory.write a.toNat v m) = true :=
  Memory.write_wfFrom v hm (by omega) a.isLt

/-! ### The bus -/

section
variable (b : Bus) (a c : Addr) (v : Byte) (e : BusEvent)

@[simp] theorem Bus.logged_mem : (b.logged e).mem = b.mem := rfl
@[simp] theorem Bus.logged_map : (b.logged e).map = b.map := rfl
@[simp] theorem Bus.logged_log : (b.logged e).log = e :: b.log := rfl
@[simp] theorem Bus.stored_mem : (b.stored a v).mem = Memory.write a.toNat v b.mem := rfl
@[simp] theorem Bus.stored_map : (b.stored a v).map = b.map := rfl
@[simp] theorem Bus.stored_log : (b.stored a v).log = b.log := rfl
@[simp] theorem Bus.peek_logged : (b.logged e).peek c = b.peek c := rfl
@[simp] theorem Bus.kindAt_logged : (b.logged e).kindAt c = b.kindAt c := rfl
@[simp] theorem Bus.kindAt_stored : (b.stored a v).kindAt c = b.kindAt c := rfl

variable {b}

/-- The address map decides the kind of an address, nothing else on the bus does. -/
theorem Bus.kindAt_of_map {b' : Bus} (h : b'.map = b.map) : b'.kindAt c = b.kindAt c := by
  simp [Bus.kindAt, h]

theorem Bus.peek_stored_same (hm : Memory.wf b.mem = true) : (b.stored a v).peek a = v :=
  Memory.read_write_same _ v hm

theorem Bus.peek_stored_other {a c : Addr} (hm : Memory.wf b.mem = true) (h : c ≠ a) :
    (b.stored a v).peek c = b.peek c :=
  Memory.read_write_other v hm (fun he => h (BitVec.eq_of_toNat_eq he))

variable {a v}

/-- All a read can do: log itself. -/
theorem Bus.read_eq_some {b' : Bus} (h : b.read a = some (v, b')) : b.answer a = some v ∧ b' = b.logged (.read a v) := by
  unfold Bus.read at h
  cases hv : b.answer a with
  | none => simp [hv] at h
  | some w =>
    rw [hv] at h
    obtain ⟨rfl, rfl⟩ := by simpa using h
    exact ⟨rfl, rfl⟩

/-- A read succeeds just when the bus has an answer. -/
theorem Bus.read_iff {b' : Bus} : b.read a = some (v, b') ↔ b.answer a = some v ∧ b' = b.logged (.read a v) := by
  constructor
  · exact Bus.read_eq_some
  · rintro ⟨h, rfl⟩; simp [Bus.read, h]

theorem Bus.read_eq_none : b.read a = none ↔ b.answer a = none := by
  unfold Bus.read
  cases b.answer a <;> simp

/-- A read of an address that holds a stored, readable byte. -/
theorem Bus.read_stored (h : b.kindAt a = .ram ∨ b.kindAt a = .rom) :
    b.read a = some (b.peek a, b.logged (.read a (b.peek a))) := by
  unfold Bus.read Bus.answer
  rcases h with h | h <;> simp [h]

/-- All a write can do: store the byte at its address, or leave memory alone where a device takes it; and log itself. -/
theorem Bus.write_eq_some {b' : Bus} (h : b.write a v = some b') :
    (b' = (b.stored a v).logged (.write a v) ∧ (b.kindAt a = .ram ∨ b.kindAt a = .writeOnly)) ∨
    (b' = b.logged (.write a v) ∧ b.kindAt a = .device) := by
  unfold Bus.write at h
  cases hk : b.kindAt a <;> simp only [hk] at h
  · exact .inl ⟨(Option.some.inj h).symm, .inl rfl⟩
  · cases h
  · exact .inl ⟨(Option.some.inj h).symm, .inr rfl⟩
  · cases h
  · split at h
    · exact .inr ⟨(Option.some.inj h).symm, rfl⟩
    · cases h

/-- A write to RAM succeeds. -/
theorem Bus.write_ram (h : b.kindAt a = .ram) : b.write a v = some ((b.stored a v).logged (.write a v)) := by
  simp [Bus.write, h]

theorem Bus.write_map {b' : Bus} (h : b.write a v = some b') : b'.map = b.map := by
  rcases Bus.write_eq_some h with ⟨rfl, -⟩ | ⟨rfl, -⟩ <;> rfl

theorem Bus.write_log {b' : Bus} (h : b.write a v = some b') : b'.log = .write a v :: b.log := by
  rcases Bus.write_eq_some h with ⟨rfl, -⟩ | ⟨rfl, -⟩ <;> rfl

theorem Bus.write_wf {b' : Bus} (h : b.write a v = some b') (hm : Memory.wf b.mem = true) : Memory.wf b'.mem = true := by
  rcases Bus.write_eq_some h with ⟨rfl, -⟩ | ⟨rfl, -⟩
  · exact Memory.write_wf a v hm
  · exact hm

/-- A write reaches no other byte. -/
theorem Bus.write_peek_other {b' : Bus} {c : Addr} (h : b.write a v = some b') (hm : Memory.wf b.mem = true)
    (hc : c ≠ a) : b'.peek c = b.peek c := by
  rcases Bus.write_eq_some h with ⟨rfl, -⟩ | ⟨rfl, -⟩
  · exact Bus.peek_stored_other v hm hc
  · rfl

end

end Sys2Proof.Machine
end

