-- ==== Sys2Proof/Laws/State.lean ====
section
/-! SUPPORT. One lemma for each field under each register update, so that no later proof unfolds an update of State. -/

namespace Sys2Proof.Machine

section
variable (s : State)

@[simp] theorem State.setPc_pc (v : Addr) : (s.setPc v).pc = v := rfl
@[simp] theorem State.setPc_sp (v : Addr) : (s.setPc v).sp = s.sp := rfl
@[simp] theorem State.setPc_a (v : Addr) : (s.setPc v).a = s.a := rfl
@[simp] theorem State.setPc_x (v : Addr) : (s.setPc v).x = s.x := rfl
@[simp] theorem State.setPc_y (v : Addr) : (s.setPc v).y = s.y := rfl
@[simp] theorem State.setPc_p (v : Addr) : (s.setPc v).p = s.p := rfl
@[simp] theorem State.setPc_cfg (v : Addr) : (s.setPc v).cfg = s.cfg := rfl
@[simp] theorem State.setPc_bus (v : Addr) : (s.setPc v).bus = s.bus := rfl

@[simp] theorem State.setSp_pc (v : Byte) : (s.setSp v).pc = s.pc := rfl
@[simp] theorem State.setSp_sp (v : Byte) : (s.setSp v).sp = v := rfl
@[simp] theorem State.setSp_a (v : Byte) : (s.setSp v).a = s.a := rfl
@[simp] theorem State.setSp_x (v : Byte) : (s.setSp v).x = s.x := rfl
@[simp] theorem State.setSp_y (v : Byte) : (s.setSp v).y = s.y := rfl
@[simp] theorem State.setSp_p (v : Byte) : (s.setSp v).p = s.p := rfl
@[simp] theorem State.setSp_cfg (v : Byte) : (s.setSp v).cfg = s.cfg := rfl
@[simp] theorem State.setSp_bus (v : Byte) : (s.setSp v).bus = s.bus := rfl

@[simp] theorem State.setA_pc (v : Byte) : (s.setA v).pc = s.pc := rfl
@[simp] theorem State.setA_sp (v : Byte) : (s.setA v).sp = s.sp := rfl
@[simp] theorem State.setA_a (v : Byte) : (s.setA v).a = v := rfl
@[simp] theorem State.setA_x (v : Byte) : (s.setA v).x = s.x := rfl
@[simp] theorem State.setA_y (v : Byte) : (s.setA v).y = s.y := rfl
@[simp] theorem State.setA_p (v : Byte) : (s.setA v).p = s.p := rfl
@[simp] theorem State.setA_cfg (v : Byte) : (s.setA v).cfg = s.cfg := rfl
@[simp] theorem State.setA_bus (v : Byte) : (s.setA v).bus = s.bus := rfl

@[simp] theorem State.setX_pc (v : Byte) : (s.setX v).pc = s.pc := rfl
@[simp] theorem State.setX_sp (v : Byte) : (s.setX v).sp = s.sp := rfl
@[simp] theorem State.setX_a (v : Byte) : (s.setX v).a = s.a := rfl
@[simp] theorem State.setX_x (v : Byte) : (s.setX v).x = v := rfl
@[simp] theorem State.setX_y (v : Byte) : (s.setX v).y = s.y := rfl
@[simp] theorem State.setX_p (v : Byte) : (s.setX v).p = s.p := rfl
@[simp] theorem State.setX_cfg (v : Byte) : (s.setX v).cfg = s.cfg := rfl
@[simp] theorem State.setX_bus (v : Byte) : (s.setX v).bus = s.bus := rfl

@[simp] theorem State.setY_pc (v : Byte) : (s.setY v).pc = s.pc := rfl
@[simp] theorem State.setY_sp (v : Byte) : (s.setY v).sp = s.sp := rfl
@[simp] theorem State.setY_a (v : Byte) : (s.setY v).a = s.a := rfl
@[simp] theorem State.setY_x (v : Byte) : (s.setY v).x = s.x := rfl
@[simp] theorem State.setY_y (v : Byte) : (s.setY v).y = v := rfl
@[simp] theorem State.setY_p (v : Byte) : (s.setY v).p = s.p := rfl
@[simp] theorem State.setY_cfg (v : Byte) : (s.setY v).cfg = s.cfg := rfl
@[simp] theorem State.setY_bus (v : Byte) : (s.setY v).bus = s.bus := rfl

@[simp] theorem State.setP_pc (v : Byte) : (s.setP v).pc = s.pc := rfl
@[simp] theorem State.setP_sp (v : Byte) : (s.setP v).sp = s.sp := rfl
@[simp] theorem State.setP_a (v : Byte) : (s.setP v).a = s.a := rfl
@[simp] theorem State.setP_x (v : Byte) : (s.setP v).x = s.x := rfl
@[simp] theorem State.setP_y (v : Byte) : (s.setP v).y = s.y := rfl
@[simp] theorem State.setP_p (v : Byte) : (s.setP v).p = v := rfl
@[simp] theorem State.setP_cfg (v : Byte) : (s.setP v).cfg = s.cfg := rfl
@[simp] theorem State.setP_bus (v : Byte) : (s.setP v).bus = s.bus := rfl

@[simp] theorem State.setBus_pc (v : Bus) : (s.setBus v).pc = s.pc := rfl
@[simp] theorem State.setBus_sp (v : Bus) : (s.setBus v).sp = s.sp := rfl
@[simp] theorem State.setBus_a (v : Bus) : (s.setBus v).a = s.a := rfl
@[simp] theorem State.setBus_x (v : Bus) : (s.setBus v).x = s.x := rfl
@[simp] theorem State.setBus_y (v : Bus) : (s.setBus v).y = s.y := rfl
@[simp] theorem State.setBus_p (v : Bus) : (s.setBus v).p = s.p := rfl
@[simp] theorem State.setBus_cfg (v : Bus) : (s.setBus v).cfg = s.cfg := rfl
@[simp] theorem State.setBus_bus (v : Bus) : (s.setBus v).bus = v := rfl

@[simp] theorem State.setPc_setPc (v w : Addr) : (s.setPc v).setPc w = s.setPc w := rfl
@[simp] theorem State.setPc_self : s.setPc s.pc = s := rfl
@[simp] theorem State.setSp_setSp (v w : Byte) : (s.setSp v).setSp w = s.setSp w := rfl
@[simp] theorem State.setSp_self : s.setSp s.sp = s := rfl
@[simp] theorem State.setA_setA (v w : Byte) : (s.setA v).setA w = s.setA w := rfl
@[simp] theorem State.setA_self : s.setA s.a = s := rfl
@[simp] theorem State.setX_setX (v w : Byte) : (s.setX v).setX w = s.setX w := rfl
@[simp] theorem State.setX_self : s.setX s.x = s := rfl
@[simp] theorem State.setY_setY (v w : Byte) : (s.setY v).setY w = s.setY w := rfl
@[simp] theorem State.setY_self : s.setY s.y = s := rfl
@[simp] theorem State.setP_setP (v w : Byte) : (s.setP v).setP w = s.setP w := rfl
@[simp] theorem State.setP_self : s.setP s.p = s := rfl
@[simp] theorem State.setBus_setBus (v w : Bus) : (s.setBus v).setBus w = s.setBus w := rfl
@[simp] theorem State.setBus_self : s.setBus s.bus = s := rfl

/-! Access by register name. -/

@[simp] theorem State.get_A : s.get .A = s.a := rfl
@[simp] theorem State.get_X : s.get .X = s.x := rfl
@[simp] theorem State.get_Y : s.get .Y = s.y := rfl
@[simp] theorem State.get_SP : s.get .SP = s.sp := rfl
@[simp] theorem State.get_P : s.get .P = s.p := rfl

@[simp] theorem State.set_A (v : Byte) : s.set .A v = s.setA v := rfl
@[simp] theorem State.set_X (v : Byte) : s.set .X v = s.setX v := rfl
@[simp] theorem State.set_Y (v : Byte) : s.set .Y v = s.setY v := rfl
@[simp] theorem State.set_SP (v : Byte) : s.set .SP v = s.setSp v := rfl
@[simp] theorem State.set_P (v : Byte) : s.set .P v = s.setP v := rfl

@[simp] theorem State.set_pc (r : Reg) (v : Byte) : (s.set r v).pc = s.pc := by cases r <;> rfl
@[simp] theorem State.set_cfg (r : Reg) (v : Byte) : (s.set r v).cfg = s.cfg := by cases r <;> rfl
@[simp] theorem State.set_bus (r : Reg) (v : Byte) : (s.set r v).bus = s.bus := by cases r <;> rfl

/-- A register reads what was last written to it, and a write reaches no other register (R21: no two registers alias). -/
theorem State.get_set (r q : Reg) (v : Byte) : (s.set r v).get q = if q = r then v else s.get q := by
  cases r <;> cases q <;> rfl

@[simp] theorem State.setFlag_pc (f : Flag) (b : Bool) : (s.setFlag f b).pc = s.pc := rfl
@[simp] theorem State.setFlag_sp (f : Flag) (b : Bool) : (s.setFlag f b).sp = s.sp := rfl
@[simp] theorem State.setFlag_a (f : Flag) (b : Bool) : (s.setFlag f b).a = s.a := rfl
@[simp] theorem State.setFlag_x (f : Flag) (b : Bool) : (s.setFlag f b).x = s.x := rfl
@[simp] theorem State.setFlag_y (f : Flag) (b : Bool) : (s.setFlag f b).y = s.y := rfl
@[simp] theorem State.setFlag_cfg (f : Flag) (b : Bool) : (s.setFlag f b).cfg = s.cfg := rfl
@[simp] theorem State.setFlag_bus (f : Flag) (b : Bool) : (s.setFlag f b).bus = s.bus := rfl
@[simp] theorem State.setNZ_pc (v : Byte) : (s.setNZ v).pc = s.pc := rfl
@[simp] theorem State.setNZ_sp (v : Byte) : (s.setNZ v).sp = s.sp := rfl
@[simp] theorem State.setNZ_a (v : Byte) : (s.setNZ v).a = s.a := rfl
@[simp] theorem State.setNZ_x (v : Byte) : (s.setNZ v).x = s.x := rfl
@[simp] theorem State.setNZ_y (v : Byte) : (s.setNZ v).y = s.y := rfl
@[simp] theorem State.setNZ_cfg (v : Byte) : (s.setNZ v).cfg = s.cfg := rfl
@[simp] theorem State.setNZ_bus (v : Byte) : (s.setNZ v).bus = s.bus := rfl

@[simp] theorem State.setFlag_p (f : Flag) (b : Bool) : (s.setFlag f b).p = Machine.setFlag s.p f.index b := rfl
@[simp] theorem State.setNZ_p (v : Byte) : (s.setNZ v).p = Machine.setNZ s.p v := rfl

end

end Sys2Proof.Machine
end

