-- ==== Sys2Proof/Laws/Ops.lean ====
section
/-! SUPPORT. What each shared operation of Machine/Ops.lean can do, said once: when it succeeds and with what, what it fails
with, and what it leaves alone. -/

namespace Sys2Proof.Machine

/-! ### Sequencing -/

section
variable {α β : Type}

@[simp] theorem Res.andThen_ok (v : α) (s : State) (k : α → State → Res β) : (Res.ok v s).andThen k = k v s := rfl
@[simp] theorem Res.andThen_fail (f : Fault) (k : α → State → Res β) : (Res.fail f : Res α).andThen k = .fail f := rfl
@[simp] theorem Res.finish_ok (u : Unit) (s : State) : (Res.ok u s).finish = .next s := rfl
@[simp] theorem Res.finish_fail (f : Fault) : (Res.fail f : Res Unit).finish = .fault f := rfl

/-- A sequence succeeds just when both parts do. -/
theorem Res.andThen_eq_ok {r : Res α} {k : α → State → Res β} {w : β} {u : State} :
    r.andThen k = .ok w u ↔ ∃ v t, r = .ok v t ∧ k v t = .ok w u := by
  cases r <;> simp

/-- A sequence fails in its first part, or in its second after the first succeeded. -/
theorem Res.andThen_eq_fail {r : Res α} {k : α → State → Res β} {f : Fault} :
    r.andThen k = .fail f ↔ r = .fail f ∨ ∃ v t, r = .ok v t ∧ k v t = .fail f := by
  cases r <;> simp

theorem Res.finish_eq_next {r : Res Unit} {t : State} : r.finish = .next t ↔ r = .ok () t := by
  cases r <;> simp [Res.finish]

theorem Res.finish_eq_fault {r : Res Unit} {f : Fault} : r.finish = .fault f ↔ r = .fail f := by
  cases r <;> simp [Res.finish]

/-- `Q` holds of the state a part ends in, whether it succeeds or fails. -/
def Res.Ends (Q : State → Prop) : Res α → Prop
  | .ok _ t => Q t
  | .fail f => Q f.left

theorem Res.Ends.andThen {Q : State → Prop} {r : Res α} {k : α → State → Res β} (h : r.Ends Q)
    (hk : ∀ v t, r = .ok v t → Q t → (k v t).Ends Q) : (r.andThen k).Ends Q := by
  cases r with
  | ok v t => exact hk v t rfl h
  | fail f => exact h

theorem Res.Ends.mono {Q Q' : State → Prop} {r : Res α} (h : r.Ends Q) (hq : ∀ t, Q t → Q' t) : r.Ends Q' := by
  cases r with
  | ok v t => exact hq t h
  | fail f => exact hq f.left h

theorem Res.Ends.ok {Q : State → Prop} {r : Res α} {v : α} {t : State} (h : r.Ends Q) (hr : r = .ok v t) : Q t := by
  subst hr; exact h

theorem Res.Ends.fail {Q : State → Prop} {r : Res α} {f : Fault} (h : r.Ends Q) (hr : r = .fail f) : Q f.left := by
  subst hr; exact h

end

/-! ### The flags of a state -/

@[simp] theorem State.flag_setPc (s : State) (v : Addr) (f : Flag) : (s.setPc v).flag f = s.flag f := rfl
@[simp] theorem State.flag_setSp (s : State) (v : Byte) (f : Flag) : (s.setSp v).flag f = s.flag f := rfl
@[simp] theorem State.flag_setA (s : State) (v : Byte) (f : Flag) : (s.setA v).flag f = s.flag f := rfl
@[simp] theorem State.flag_setX (s : State) (v : Byte) (f : Flag) : (s.setX v).flag f = s.flag f := rfl
@[simp] theorem State.flag_setY (s : State) (v : Byte) (f : Flag) : (s.setY v).flag f = s.flag f := rfl
@[simp] theorem State.flag_setBus (s : State) (b : Bus) (f : Flag) : (s.setBus b).flag f = s.flag f := rfl

theorem State.flag_setFlag (s : State) (f g : Flag) (b : Bool) :
    (s.setFlag f b).flag g = if g = f then b else s.flag g := by
  simp [State.flag, getFlag_setFlag]

theorem State.flag_setNZ (s : State) (v : Byte) (g : Flag) :
    (s.setNZ v).flag g = if g = .Z then decide (v = 0) else if g = .N then v.msb else s.flag g := by
  simp [State.flag, getFlag_setNZ]

/-! ### The bus -/

/-- All a read can do. -/
theorem memRead_eq_ok {a : Addr} {s t : State} {v : Byte} :
    memRead a s = .ok v t ↔ s.bus.answer a = some v ∧ t = s.setBus (s.bus.logged (.read a v)) := by
  unfold memRead Bus.read
  cases s.bus.answer a with
  | none => simp
  | some w => simp only [Res.ok.injEq, Option.some.injEq]; constructor <;> (rintro ⟨rfl, rfl⟩; exact ⟨rfl, rfl⟩)

/-- A read fails with BusError at its own address, changing nothing (R51, R230). -/
theorem memRead_eq_fail {a : Addr} {s : State} {f : Fault} :
    memRead a s = .fail f ↔ s.bus.answer a = none ∧ f = .busError a .read s := by
  unfold memRead Bus.read
  cases s.bus.answer a with
  | none => simp [eq_comm]
  | some w => simp

/-- A write succeeds just when the bus accepts it. -/
theorem memWrite_eq_ok {a : Addr} {v : Byte} {s t : State} {u : Unit} :
    memWrite a v s = .ok u t ↔ ∃ b, s.bus.write a v = some b ∧ t = s.setBus b := by
  unfold memWrite
  cases s.bus.write a v <;> simp [eq_comm]

/-- A write fails with BusError at its own address, changing nothing (R53, R230). -/
theorem memWrite_eq_fail {a : Addr} {v : Byte} {s : State} {f : Fault} :
    memWrite a v s = .fail f ↔ s.bus.write a v = none ∧ f = .busError a .write s := by
  unfold memWrite
  cases s.bus.write a v <;> simp [eq_comm]

theorem memRead_of_some {a : Addr} {s : State} {v : Byte} {b : Bus} (h : s.bus.read a = some (v, b)) :
    memRead a s = .ok v (s.setBus b) := by simp only [memRead, h]

theorem memRead_of_none {a : Addr} {s : State} (h : s.bus.read a = none) : memRead a s = .fail (.busError a .read s) := by
  simp only [memRead, h]

theorem memWrite_of_some {a : Addr} {s : State} {v : Byte} {b : Bus} (h : s.bus.write a v = some b) :
    memWrite a v s = .ok () (s.setBus b) := by simp only [memWrite, h]

theorem memWrite_of_none {a : Addr} {s : State} {v : Byte} (h : s.bus.write a v = none) :
    memWrite a v s = .fail (.busError a .write s) := by simp only [memWrite, h]

/-! ### The fetch unit -/

/-- All an instruction-stream fetch can do (R82). -/
theorem fetchByte_eq_ok {s t : State} {v : Byte} :
    fetchByte s = .ok v t ↔
      s.bus.answer s.pc = some v ∧ t = (s.setBus (s.bus.logged (.read s.pc v))).setPc (s.pc + 1) := by
  unfold fetchByte
  simp only [Res.andThen_eq_ok, memRead_eq_ok]
  constructor
  · rintro ⟨w, u, ⟨hw, rfl⟩, h⟩; cases h; exact ⟨hw, rfl⟩
  · rintro ⟨hv, rfl⟩; exact ⟨v, _, ⟨hv, rfl⟩, rfl⟩

theorem fetchByte_eq_fail {s : State} {f : Fault} :
    fetchByte s = .fail f ↔ s.bus.answer s.pc = none ∧ f = .busError s.pc .read s := by
  unfold fetchByte
  simp [Res.andThen_eq_fail, memRead_eq_fail]

theorem fetchByte_of_some {s : State} {v : Byte} {b : Bus} (h : s.bus.read s.pc = some (v, b)) :
    fetchByte s = .ok v ((s.setBus b).setPc (s.pc + 1)) := by
  simp [fetchByte, memRead_of_some h]

theorem fetchByte_of_none {s : State} (h : s.bus.read s.pc = none) : fetchByte s = .fail (.busError s.pc .read s) := by
  simp [fetchByte, memRead_of_none h]

/-- All that fetching `n` bytes can do: `n` reads, `pc` moved past them. -/
theorem fetchBytes_eq_ok {n : Nat} {s t : State} {bs : List Byte} (h : fetchBytes n s = .ok bs t) :
    bs.length = n ∧ t.bus.log.length = s.bus.log.length + n ∧ t.pc = s.pc + BitVec.ofNat 16 n ∧ t.cfg = s.cfg := by
  induction n generalizing s bs with
  | zero => cases h; simp
  | succ n ih =>
    obtain ⟨b, u, h1, h2⟩ := Res.andThen_eq_ok.1 h
    obtain ⟨bs, v, h3, h4⟩ := Res.andThen_eq_ok.1 h2
    cases h4
    obtain ⟨-, rfl⟩ := fetchByte_eq_ok.1 h1
    obtain ⟨h5, h6, h7, h8⟩ := ih h3
    refine ⟨by simp [h5], by simp [h6]; omega, ?_, by simpa using h8⟩
    rw [h7]; apply BitVec.eq_of_toNat_eq; simp; omega

/-- A failing byte of a run of bytes leaves `pc` at it (R82). -/
theorem fetchBytes_eq_fail {n : Nat} {s : State} {f : Fault} (h : fetchBytes n s = .fail f) :
    f = .busError f.left.pc .read f.left := by
  induction n generalizing s with
  | zero => cases h
  | succ n ih =>
    rcases Res.andThen_eq_fail.1 h with h | ⟨b, u, h1, h2⟩
    · obtain ⟨-, rfl⟩ := fetchByte_eq_fail.1 h; rfl
    · rcases Res.andThen_eq_fail.1 h2 with h | ⟨_, _, _, h⟩
      · exact ih h
      · cases h

/-! ### The stack -/

/-- All a push can do (R61). -/
theorem push_eq_ok {v : Byte} {s t : State} {u : Unit} :
    push v s = .ok u t ↔ ∃ b, s.bus.write s.stackAddr v = some b ∧ t = (s.setBus b).setSp (s.sp - 1) := by
  unfold push
  simp only [Res.andThen_eq_ok, memWrite_eq_ok]
  constructor
  · rintro ⟨_, w, ⟨b, hb, rfl⟩, h⟩; cases h; exact ⟨b, hb, rfl⟩
  · rintro ⟨b, hb, rfl⟩; exact ⟨(), _, ⟨b, hb, rfl⟩, rfl⟩

/-- A push fails before SP changes (R61). -/
theorem push_eq_fail {v : Byte} {s : State} {f : Fault} :
    push v s = .fail f ↔ s.bus.write s.stackAddr v = none ∧ f = .busError s.stackAddr .write s := by
  unfold push
  simp [Res.andThen_eq_fail, memWrite_eq_fail]

/-- All a pull can do (R62). -/
theorem pull_eq_ok {v : Byte} {s t : State} :
    pull s = .ok v t ↔ s.bus.answer (s.setSp (s.sp + 1)).stackAddr = some v ∧
      t = (s.setSp (s.sp + 1)).setBus (s.bus.logged (.read (s.setSp (s.sp + 1)).stackAddr v)) := by
  unfold pull
  simp [memRead_eq_ok]

/-- A pull fails after SP was incremented (R62). -/
theorem pull_eq_fail {s : State} {f : Fault} :
    pull s = .fail f ↔ s.bus.answer (s.setSp (s.sp + 1)).stackAddr = none ∧
      f = .busError (s.setSp (s.sp + 1)).stackAddr .read (s.setSp (s.sp + 1)) := by
  unfold pull
  simp [memRead_eq_fail]

/-! ### What every operation keeps

`R` is a property of states that register writes, completed reads and completed writes keep; then every operation below
keeps it, wherever it ends. -/

/-- A property that no single access and no register write can break. -/
structure Stable (Q : State → Prop) : Prop where
  setPc : ∀ s v, Q s → Q (s.setPc v)
  setSp : ∀ s v, Q s → Q (s.setSp v)
  read : ∀ s a v, s.bus.answer a = some v → Q s → Q (s.setBus (s.bus.logged (.read a v)))
  write : ∀ s a v b, s.bus.write a v = some b → Q s → Q (s.setBus b)

section
variable {Q : State → Prop} (hQ : Stable Q)
include hQ

theorem Stable.memRead (a : Addr) {s : State} (h : Q s) : (memRead a s).Ends Q := by
  cases hr : Machine.memRead a s with
  | ok v t => obtain ⟨ha, rfl⟩ := memRead_eq_ok.1 hr; exact hQ.read s a v ha h
  | fail f => obtain ⟨-, rfl⟩ := memRead_eq_fail.1 hr; exact h

theorem Stable.memWrite (a : Addr) (v : Byte) {s : State} (h : Q s) : (memWrite a v s).Ends Q := by
  cases hr : Machine.memWrite a v s with
  | ok u t => obtain ⟨b, hb, rfl⟩ := memWrite_eq_ok.1 hr; exact hQ.write s a v b hb h
  | fail f => obtain ⟨-, rfl⟩ := memWrite_eq_fail.1 hr; exact h

theorem Stable.fetchByte {s : State} (h : Q s) : (fetchByte s).Ends Q :=
  (hQ.memRead _ h).andThen fun _ t _ ht => hQ.setPc t _ ht

theorem Stable.fetchBytes (n : Nat) {s : State} (h : Q s) : (fetchBytes n s).Ends Q := by
  induction n generalizing s with
  | zero => exact h
  | succ n ih => exact (hQ.fetchByte h).andThen fun _ t _ ht => (ih ht).andThen fun _ u _ hu => hu

theorem Stable.fetchInstr {s : State} (h : Q s) : (fetchInstr s).Ends Q := by
  refine (hQ.fetchByte h).andThen fun _ t _ ht => (hQ.fetchBytes _ ht).andThen fun _ u _ hu => ?_
  split <;> exact hu

theorem Stable.push (v : Byte) {s : State} (h : Q s) : (push v s).Ends Q :=
  (hQ.memWrite _ v h).andThen fun _ t _ ht => hQ.setSp t _ ht

theorem Stable.pull {s : State} (h : Q s) : (pull s).Ends Q := hQ.memRead _ (hQ.setSp s _ h)

theorem Stable.pushWord (w : Addr) {s : State} (h : Q s) : (pushWord w s).Ends Q :=
  (hQ.push _ h).andThen fun _ _ _ ht => hQ.push _ ht

theorem Stable.pullWord {s : State} (h : Q s) : (pullWord s).Ends Q :=
  (hQ.pull h).andThen fun _ _ _ ht => (hQ.pull ht).andThen fun _ _ _ hu => hu

end

end Sys2Proof.Machine
end

