-- ==== Sys2Proof/Laws/Operands.lean ====
section
/-! SUPPORT. What the resolver and the Operand References can do, said once. -/

namespace Sys2Proof.Machine

/-- Two pointer bytes, read one after the other. -/
theorem readPair_eq_ok {a1 a2 c : Addr} {k : Byte → Byte → Addr} {s u : State} :
    readPair a1 a2 k s = .ok c u ↔ ∃ b1 b2 t, memRead a1 s = .ok b1 t ∧ memRead a2 t = .ok b2 u ∧ c = k b1 b2 := by
  unfold readPair
  simp only [Res.andThen_eq_ok, Res.ok.injEq]
  constructor
  · rintro ⟨b1, t, h1, b2, v, h2, rfl, rfl⟩; exact ⟨b1, b2, t, h1, h2, rfl⟩
  · rintro ⟨b1, b2, t, h1, h2, rfl⟩; exact ⟨b1, t, h1, b2, u, h2, rfl, rfl⟩

/-- A pointer read fails in its first byte, or in its second after the first was read (R95). -/
theorem readPair_eq_fail {a1 a2 : Addr} {k : Byte → Byte → Addr} {s : State} {f : Fault} :
    readPair a1 a2 k s = .fail f ↔
      memRead a1 s = .fail f ∨ ∃ b1 t, memRead a1 s = .ok b1 t ∧ memRead a2 t = .fail f := by
  unfold readPair
  simp [Res.andThen_eq_fail]

/-- A reference to memory is what a memory operand resolves to, and nothing else is. -/
theorem resolve_mem {m : MemOperand} {s t : State} {r : Ref} :
    resolve (.mem m) s = .ok r t ↔ ∃ a, resolveAddr m s = .ok a t ∧ r = .mem a := by
  simp only [resolve, Res.andThen_eq_ok, Res.ok.injEq]
  constructor
  · rintro ⟨a, u, h, rfl, rfl⟩; exact ⟨a, h, rfl⟩
  · rintro ⟨a, h, rfl⟩; exact ⟨a, t, h, rfl, rfl⟩

/-- A property that reads cannot break holds after resolution, wherever it ends. -/
theorem resolveAddr_ends {Q : State → Prop}
    (hread : ∀ s a v, s.bus.answer a = some v → Q s → Q (s.setBus (s.bus.logged (.read a v))))
    (m : MemOperand) {s : State} (h : Q s) : (resolveAddr m s).Ends Q := by
  have hr : ∀ a {s : State}, Q s → (memRead a s).Ends Q := by
    intro a s h
    cases hr : memRead a s with
    | ok v t => obtain ⟨ha, rfl⟩ := memRead_eq_ok.1 hr; exact hread s a v ha h
    | fail f => obtain ⟨-, rfl⟩ := memRead_eq_fail.1 hr; exact h
  have hp : ∀ a1 a2 k, (readPair a1 a2 k s).Ends Q := fun a1 a2 k =>
    (hr a1 h).andThen fun _ _ _ ht => (hr a2 ht).andThen fun _ _ _ hu => hu
  cases m <;> first | exact h | exact hp _ _ _

theorem resolve_ends {Q : State → Prop}
    (hread : ∀ s a v, s.bus.answer a = some v → Q s → Q (s.setBus (s.bus.logged (.read a v))))
    (o : Operand) {s : State} (h : Q s) : (resolve o s).Ends Q := by
  cases o with
  | acc => exact h
  | imm v => exact h
  | mem m => exact (resolveAddr_ends hread m h).andThen fun _ _ _ ht => ht

theorem readRef_ends {Q : State → Prop}
    (hread : ∀ s a v, s.bus.answer a = some v → Q s → Q (s.setBus (s.bus.logged (.read a v))))
    (r : Ref) {s : State} (h : Q s) : (readRef r s).Ends Q := by
  cases r with
  | reg r => exact h
  | lit v => exact h
  | mem a =>
    cases hr : memRead a s with
    | ok v t => obtain ⟨ha, rfl⟩ := memRead_eq_ok.1 hr; simp only [readRef, hr]; exact hread s a v ha h
    | fail f => obtain ⟨-, rfl⟩ := memRead_eq_fail.1 hr; simp only [readRef, hr]; exact h

theorem readOperand_ends {Q : State → Prop}
    (hread : ∀ s a v, s.bus.answer a = some v → Q s → Q (s.setBus (s.bus.logged (.read a v))))
    (o : Operand) {s : State} (h : Q s) : (readOperand o s).Ends Q :=
  (resolve_ends hread o h).andThen fun r _ _ ht => readRef_ends hread r ht

/-- What reading leaves alone: everything but the bus history, which gains reads only. -/
def ReadOnlyStep (s t : State) : Prop := t = s.setBus t.bus ∧ OnlyReads s t

theorem ReadOnlyStep.refl (s : State) : ReadOnlyStep s s := ⟨rfl, rfl, rfl, [], rfl⟩

theorem ReadOnlyStep.read {s t : State} (a : Addr) (v : Byte) (h : ReadOnlyStep s t) :
    ReadOnlyStep s (t.setBus (t.bus.logged (.read a v))) := by
  obtain ⟨h1, h2, h3, ev, h4⟩ := h
  refine ⟨?_, by simpa using h2, by simpa using h3, ev ++ [(a, v)], ?_⟩
  · rw [h1]; rfl
  · simp only [Accesses] at h4 ⊢
    simp [h4]

/-- Resolution writes no register and no memory (R86). -/
theorem resolve_readOnly (o : Operand) (s : State) : (resolve o s).Ends (ReadOnlyStep s) :=
  resolve_ends (fun _ a v _ h => h.read a v) o (.refl s)

theorem resolveAddr_readOnly (m : MemOperand) (s : State) : (resolveAddr m s).Ends (ReadOnlyStep s) :=
  resolveAddr_ends (fun _ a v _ h => h.read a v) m (.refl s)

/-- Nor does reading the operand (R55). -/
theorem readOperand_readOnly (o : Operand) (s : State) : (readOperand o s).Ends (ReadOnlyStep s) :=
  readOperand_ends (fun _ a v _ h => h.read a v) o (.refl s)

/-- What is the same after reads only. -/
theorem ReadOnlyStep.same {s t : State} (h : ReadOnlyStep s t) :
    t.pc = s.pc ∧ t.sp = s.sp ∧ t.a = s.a ∧ t.x = s.x ∧ t.y = s.y ∧ t.p = s.p ∧ t.cfg = s.cfg ∧
    (∀ c, t.peek c = s.peek c) ∧ (∀ c, t.bus.kindAt c = s.bus.kindAt c) := by
  obtain ⟨h1, h2, h3, -⟩ := h
  refine ⟨by rw [h1]; rfl, by rw [h1]; rfl, by rw [h1]; rfl, by rw [h1]; rfl, by rw [h1]; rfl, by rw [h1]; rfl,
    by rw [h1]; rfl, fun c => ?_, fun c => Bus.kindAt_of_map c h3⟩
  simp [State.peek, Bus.peek, h2]

/-- How many reads resolution makes (R84, R86). -/
theorem resolve_log {o : Operand} {s t : State} {r : Ref} (h : resolve o s = .ok r t) :
    t.bus.log.length = s.bus.log.length + (match o.mode with
      | .indX | .indY | .ind => 2
      | .imp | .acc | .imm | .abs | .zp | .rel | .zpX | .zpY | .absX | .absY => 0) := by
  have hp : ∀ {a1 a2 k a}, readPair a1 a2 k s = .ok a t → t.bus.log.length = s.bus.log.length + 2 := by
    intro a1 a2 k a h
    obtain ⟨b1, b2, u, h1, h2, -⟩ := readPair_eq_ok.1 h
    rw [memRead_eq_ok] at h1 h2
    rw [h2.2, h1.2]; rfl
  cases o with
  | acc => cases h; rfl
  | imm v => cases h; rfl
  | mem m =>
    obtain ⟨a, h, -⟩ := resolve_mem.1 h
    cases m <;> first | (exact hp h) | (cases h; rfl)

end Sys2Proof.Machine
end

