-- ==== Sys2Proof/Laws/Exec.lean ====
section
/-! SUPPORT. The 151 meanings, said once by mnemonic: exec is the shared operation of the instruction's mnemonic on its
operand. Proofs about many instructions split on the 56 mnemonics instead. -/

namespace Sys2Proof.Machine

/-- The shared operation of each mnemonic. An operand the opcode map never pairs with the mnemonic (R105) does nothing here;
exec_eq_byMnemonic holds because no instruction has one. -/
def byMnemonic (mn : Mnemonic) (o : Option Operand) (s : State) : Result :=
  match mn with
  | .LDA => match o with
    | some o => loadRegister .A o s
    | none => .next s
  | .LDX => match o with
    | some o => loadRegister .X o s
    | none => .next s
  | .LDY => match o with
    | some o => loadRegister .Y o s
    | none => .next s
  | .INC => match o with
    | some (.mem m) => addToMemory 1 (.mem m) s
    | _ => .next s
  | .DEC => match o with
    | some (.mem m) => addToMemory (-1) (.mem m) s
    | _ => .next s
  | .INX => addToRegister 1 .X s
  | .INY => addToRegister 1 .Y s
  | .DEX => addToRegister (-1) .X s
  | .DEY => addToRegister (-1) .Y s
  | .SEC => writeFlag .C true s
  | .SED => writeFlag .D true s
  | .SEI => writeFlag .I true s
  | .CLC => writeFlag .C false s
  | .CLD => writeFlag .D false s
  | .CLI => writeFlag .I false s
  | .CLV => writeFlag .V false s
  | .ADC => match o with
    | some o => addWithCarry o s
    | none => .next s
  | .SBC => match o with
    | some o => subtractWithBorrow o s
    | none => .next s
  | .AND => match o with
    | some o => combineAccumulator (· &&& ·) o s
    | none => .next s
  | .ORA => match o with
    | some o => combineAccumulator (· ||| ·) o s
    | none => .next s
  | .EOR => match o with
    | some o => combineAccumulator (· ^^^ ·) o s
    | none => .next s
  | .ASL => match o with
    | some .acc => shiftOperand aslByte .acc s
    | some (.mem m) => shiftOperand aslByte (.mem m) s
    | _ => .next s
  | .LSR => match o with
    | some .acc => shiftOperand lsrByte .acc s
    | some (.mem m) => shiftOperand lsrByte (.mem m) s
    | _ => .next s
  | .ROL => match o with
    | some .acc => shiftOperand rolByte .acc s
    | some (.mem m) => shiftOperand rolByte (.mem m) s
    | _ => .next s
  | .ROR => match o with
    | some .acc => shiftOperand rorByte .acc s
    | some (.mem m) => shiftOperand rorByte (.mem m) s
    | _ => .next s
  | .CMP => match o with
    | some o => compareRegister .A o s
    | none => .next s
  | .CPX => match o with
    | some o => compareRegister .X o s
    | none => .next s
  | .CPY => match o with
    | some o => compareRegister .Y o s
    | none => .next s
  | .BIT => match o with
    | some (.mem m) => bitTest (.mem m) s
    | _ => .next s
  | .BPL => match o with
    | some (.mem (.rel d)) => branchIf .N false d s
    | _ => .next s
  | .BMI => match o with
    | some (.mem (.rel d)) => branchIf .N true d s
    | _ => .next s
  | .BVC => match o with
    | some (.mem (.rel d)) => branchIf .V false d s
    | _ => .next s
  | .BVS => match o with
    | some (.mem (.rel d)) => branchIf .V true d s
    | _ => .next s
  | .BCC => match o with
    | some (.mem (.rel d)) => branchIf .C false d s
    | _ => .next s
  | .BCS => match o with
    | some (.mem (.rel d)) => branchIf .C true d s
    | _ => .next s
  | .BNE => match o with
    | some (.mem (.rel d)) => branchIf .Z false d s
    | _ => .next s
  | .BEQ => match o with
    | some (.mem (.rel d)) => branchIf .Z true d s
    | _ => .next s
  | .JMP => match o with
    | some (.mem m) => jumpTo m s
    | _ => .next s
  | .PHA => execPha s
  | .PHP => execPhp s
  | .PLA => execPla s
  | .PLP => execPlp s
  | .JSR => match o with
    | some (.mem (.abs a)) => execJsr a s
    | _ => .next s
  | .RTS => execRts s
  | .RTI => execRti s
  | .BRK => execBrk s
  | .STA => match o with
    | some (.mem m) => storeRegister .A (.mem m) s
    | _ => .next s
  | .STX => match o with
    | some (.mem m) => storeRegister .X (.mem m) s
    | _ => .next s
  | .STY => match o with
    | some (.mem m) => storeRegister .Y (.mem m) s
    | _ => .next s
  | .TAX => transferRegister .A .X s
  | .TAY => transferRegister .A .Y s
  | .TXA => transferRegister .X .A s
  | .TYA => transferRegister .Y .A s
  | .TSX => transferRegister .SP .X s
  | .TXS => execTxs s
  | .NOP => execNop s

/-- Every instruction runs the shared operation of its mnemonic on its operand. -/
theorem exec_eq_byMnemonic (i : Instr) (s : State) : exec i s = byMnemonic i.mnemonic i.operand s := by
  cases i <;> rfl

/-- Every row of the decoder table with this mnemonic is one of `forms`. -/
def rowsAreAmong (mn : Mnemonic) (forms : List (Byte × Mode)) : Bool :=
  (List.range 256).all fun n =>
    match decodeTable (BitVec.ofNat 8 n) with
    | .row m mode => decide (m ≠ mn) || decide ((BitVec.ofNat 8 n, mode) ∈ forms)
    | .illegal => true

/-- The rows of a mnemonic, found by going through the decoder table once. -/
theorem hasForms_of_scan {mn : Mnemonic} {forms : List (Byte × Mode)} (h : rowsAreAmong mn forms = true)
    (h' : ∀ e ∈ forms, decodeTable e.1 = .row mn e.2) : HasForms mn forms := by
  refine ⟨fun i hi => ?_, h'⟩
  have hi' := List.all_eq_true.1 h i.opcode.toNat (List.mem_range.2 i.opcode.isLt)
  simpa [decodeTable_opcode, hi] using hi'

end Sys2Proof.Machine
end

