-- ==== Sys2Proof/Laws/Effects.lean ====
section
/-! SUPPORT. What an instruction can change, said once for all of them: a property that the reads, the register writes and the
stores of its mnemonic keep holds of the state it ends in, whether it completes or fails. -/

namespace Sys2Proof.Machine

/-- `Q` holds of the state an instruction or a dispatch ends in. -/
def resultEnds (Q : State → Prop) : Result → Prop
  | .next t => Q t
  | .fault f => Q f.left
  | .refused _ => False

theorem finish_ends {Q : State → Prop} {r : Res Unit} (h : r.Ends Q) : resultEnds Q r.finish := by
  cases r <;> exact h

theorem resultEnds_of_endsIn {Q : State → Prop} {r : Result} {t : State} (h : resultEnds Q r) (ht : EndsIn r t) : Q t := by
  rcases ht with rfl | ⟨f, rfl, rfl⟩ <;> exact h

/-! ### No computation on P touches U or B (R29) -/

/-- The flag bytes `p` and `q` agree on U and B. -/
def SameUB (p q : Byte) : Prop := getFlag q Flag.U.index = getFlag p Flag.U.index ∧ getFlag q Flag.B.index = getFlag p Flag.B.index

theorem SameUB.setFlag {f : Flag} (p : Byte) (b : Bool) (hU : f ≠ .U) (hB : f ≠ .B) : SameUB p (setFlag p f.index b) := by
  constructor <;> rw [getFlag_setFlag, if_neg] <;> simp only [Flag.index_inj] <;> exact fun h => by simp_all

theorem SameUB.setNZ (p v : Byte) : SameUB p (setNZ p v) := by simp [SameUB, getFlag_setNZ]
theorem SameUB.sumFlags (p : Byte) (x : Sum8) : SameUB p (sumFlags p x) := by simp [SameUB, getFlag_sumFlags]
theorem SameUB.compareFlags (p reg m : Byte) : SameUB p (compareFlags p reg m) := by simp [SameUB, getFlag_compareFlags]
theorem SameUB.bitTestFlags (p acc m : Byte) : SameUB p (bitTestFlags p acc m) := by simp [SameUB, getFlag_bitTestFlags]
theorem SameUB.shiftFlags (p r : Byte) (out : Bool) : SameUB p (shiftFlags p r out) := by simp [SameUB, getFlag_shiftFlags]
theorem SameUB.pulledStatus (p v : Byte) : SameUB p (pulledStatus p v) := by simp [SameUB, getFlag_pulledStatus]

/-! ### The registers and the memory each mnemonic may write -/

/-- The instructions whose A may differ afterwards (R22). -/
def mayWriteA (mn : Mnemonic) (o : Option Operand) : Bool :=
  match mn with
  | .LDA | .ADC | .SBC | .AND | .ORA | .EOR | .PLA | .TXA | .TYA => true
  | .ASL | .LSR | .ROL | .ROR => decide (o = some .acc)
  | _ => false

/-- The mnemonics that may write X (R22). -/
def mayWriteX : Mnemonic → Bool
  | .LDX | .INX | .DEX | .TAX | .TSX => true
  | _ => false

/-- The mnemonics that may write Y (R22). -/
def mayWriteY : Mnemonic → Bool
  | .LDY | .INY | .DEY | .TAY => true
  | _ => false

/-- The mnemonics that may write SP (R22, R23). -/
def mayWriteSp : Mnemonic → Bool
  | .TXS | .PHA | .PHP | .PLA | .PLP | .JSR | .RTS | .RTI | .BRK => true
  | _ => false

/-- The mnemonics that may write P (R22, R31). -/
def mayWriteP : Mnemonic → Bool
  | .STA | .STX | .STY | .TXS | .NOP | .PHA | .PHP | .JSR | .RTS | .JMP | .BPL | .BMI | .BVC | .BVS | .BCC | .BCS | .BNE
  | .BEQ => false
  | _ => true

/-- The control transfers (R22, R25). -/
def mayWritePc : Mnemonic → Bool
  | .BPL | .BMI | .BVC | .BVS | .BCC | .BCS | .BNE | .BEQ | .JMP | .JSR | .RTS | .RTI | .BRK => true
  | _ => false

/-- The forms that store (R53, R111). -/
def mayStore (mn : Mnemonic) (o : Option Operand) : Bool :=
  match mn with
  | .STA | .STX | .STY | .INC | .DEC | .PHA | .PHP | .JSR | .BRK => true
  | .ASL | .LSR | .ROL | .ROR => decide (o ≠ some .acc)
  | _ => false

/-- A property of states that reads keep, and whatever else an instruction of this mnemonic and operand may do. -/
structure Keeps (mn : Mnemonic) (o : Option Operand) (Q : State → Prop) : Prop where
  read : ∀ s a v, s.bus.answer a = some v → Q s → Q (s.setBus (s.bus.logged (.read a v)))
  write : mayStore mn o = true → ∀ s a v b, s.bus.write a v = some b → Q s → Q (s.setBus b)
  setA : mayWriteA mn o = true → ∀ s v, Q s → Q (s.setA v)
  setX : mayWriteX mn = true → ∀ s v, Q s → Q (s.setX v)
  setY : mayWriteY mn = true → ∀ s v, Q s → Q (s.setY v)
  setSp : mayWriteSp mn = true → ∀ s v, Q s → Q (s.setSp v)
  setP : mayWriteP mn = true → ∀ s p, SameUB s.p p → Q s → Q (s.setP p)
  setPc : mayWritePc mn = true → ∀ s v, Q s → Q (s.setPc v)

/-! ### The shared operations -/

section
variable {Q : State → Prop} (hr : ∀ s a v, s.bus.answer a = some v → Q s → Q (s.setBus (s.bus.logged (.read a v))))
include hr

theorem memRead_ends (a : Addr) {s : State} (h : Q s) : (memRead a s).Ends Q := by
  cases hm : memRead a s with
  | ok v t => obtain ⟨ha, rfl⟩ := memRead_eq_ok.1 hm; exact hr s a v ha h
  | fail f => obtain ⟨-, rfl⟩ := memRead_eq_fail.1 hm; exact h

theorem pull_ends {s : State} (hsp : ∀ s v, Q s → Q (s.setSp v)) (h : Q s) : (pull s).Ends Q :=
  memRead_ends hr _ (hsp s _ h)

theorem pullWord_ends {s : State} (hsp : ∀ s v, Q s → Q (s.setSp v)) (h : Q s) : (pullWord s).Ends Q :=
  (pull_ends hr hsp h).andThen fun _ _ _ ht => (pull_ends hr hsp ht).andThen fun _ _ _ hu => hu

theorem pullStatus_ends {s : State} (hsp : ∀ s v, Q s → Q (s.setSp v)) (hp : ∀ s p, SameUB s.p p → Q s → Q (s.setP p))
    (h : Q s) : (pullStatus s).Ends Q :=
  (pull_ends hr hsp h).andThen fun v t _ ht => hp t _ (.pulledStatus t.p v) ht

omit hr in
theorem memWrite_ends (hw : ∀ s a v b, s.bus.write a v = some b → Q s → Q (s.setBus b)) (a : Addr) (v : Byte) {s : State}
    (h : Q s) : (memWrite a v s).Ends Q := by
  cases hm : memWrite a v s with
  | ok u t => obtain ⟨b, hb, rfl⟩ := memWrite_eq_ok.1 hm; exact hw s a v b hb h
  | fail f => obtain ⟨-, rfl⟩ := memWrite_eq_fail.1 hm; exact h

omit hr in
theorem push_ends (hw : ∀ s a v b, s.bus.write a v = some b → Q s → Q (s.setBus b)) (hsp : ∀ s v, Q s → Q (s.setSp v))
    (v : Byte) {s : State} (h : Q s) : (push v s).Ends Q :=
  (memWrite_ends hw _ v h).andThen fun _ t _ ht => hsp t _ ht

omit hr in
theorem pushWord_ends (hw : ∀ s a v b, s.bus.write a v = some b → Q s → Q (s.setBus b)) (hsp : ∀ s v, Q s → Q (s.setSp v))
    (w : Addr) {s : State} (h : Q s) : (pushWord w s).Ends Q :=
  (push_ends hw hsp _ h).andThen fun _ _ _ ht => push_ends hw hsp _ ht

theorem loadRegister_ends (r : Reg) (o : Operand) {s : State} (hs : ∀ s v, Q s → Q (s.set r v))
    (hp : ∀ s p, SameUB s.p p → Q s → Q (s.setP p)) (h : Q s) : resultEnds Q (loadRegister r o s) :=
  finish_ends ((readOperand_ends hr o h).andThen fun v t _ ht => hp (t.set r v) _ (.setNZ _ v) (hs t v ht))

theorem addToAccumulator_ends (f : Byte → Byte) (o : Operand) {s : State} (hs : ∀ s v, Q s → Q (s.setA v))
    (hp : ∀ s p, SameUB s.p p → Q s → Q (s.setP p)) (h : Q s) : resultEnds Q (addToAccumulator f o s) :=
  finish_ends ((readOperand_ends hr o h).andThen fun _ t _ ht => hp (t.setA _) _ (.sumFlags t.p _) (hs t _ ht))

theorem combineAccumulator_ends (op : Byte → Byte → Byte) (o : Operand) {s : State} (hs : ∀ s v, Q s → Q (s.setA v))
    (hp : ∀ s p, SameUB s.p p → Q s → Q (s.setP p)) (h : Q s) : resultEnds Q (combineAccumulator op o s) :=
  finish_ends ((readOperand_ends hr o h).andThen fun _ t _ ht => hp (t.setA _) _ (.setNZ _ _) (hs t _ ht))

theorem compareRegister_ends (r : Reg) (o : Operand) {s : State} (hp : ∀ s p, SameUB s.p p → Q s → Q (s.setP p))
    (h : Q s) : resultEnds Q (compareRegister r o s) :=
  finish_ends ((readOperand_ends hr o h).andThen fun _ t _ ht => hp t _ (.compareFlags _ _ _) ht)

theorem bitTest_ends (o : Operand) {s : State} (hp : ∀ s p, SameUB s.p p → Q s → Q (s.setP p)) (h : Q s) :
    resultEnds Q (bitTest o s) :=
  finish_ends ((readOperand_ends hr o h).andThen fun _ t _ ht => hp t _ (.bitTestFlags _ _ _) ht)

/-- A memory operand read, computed on and written back. -/
theorem modifyMem_ends (m : MemOperand) (f : State → Byte → Byte × (Byte → Byte)) {s : State}
    (hw : ∀ s a v b, s.bus.write a v = some b → Q s → Q (s.setBus b))
    (hf : ∀ u v p, SameUB p ((f u v).2 p)) (hp : ∀ s p, SameUB s.p p → Q s → Q (s.setP p)) (h : Q s) :
    (modifyOperand (.mem m) f s).Ends Q := by
  refine (resolve_ends hr (.mem m) h).andThen fun ref t hres ht => ?_
  obtain ⟨a, -, rfl⟩ := resolve_mem.1 hres
  exact (memRead_ends hr a ht).andThen fun v u _ hu => (memWrite_ends hw a _ hu).andThen fun _ w _ hw' => hp w _ (hf u v w.p) hw'

omit hr in
theorem modifyAcc_ends (f : State → Byte → Byte × (Byte → Byte)) {s : State} (hs : ∀ s v, Q s → Q (s.setA v))
    (hf : ∀ u v p, SameUB p ((f u v).2 p)) (hp : ∀ s p, SameUB s.p p → Q s → Q (s.setP p)) (h : Q s) :
    (modifyOperand .acc f s).Ends Q :=
  hp (s.setA _) _ (hf s s.a s.p) (hs s _ h)

theorem addToMemory_ends (d : Byte) (m : MemOperand) {s : State}
    (hw : ∀ s a v b, s.bus.write a v = some b → Q s → Q (s.setBus b)) (hp : ∀ s p, SameUB s.p p → Q s → Q (s.setP p))
    (h : Q s) : resultEnds Q (addToMemory d (.mem m) s) :=
  finish_ends (modifyMem_ends hr m (fun _ v => (v + d, fun p => Machine.setNZ p (v + d))) hw
    (fun _ v p => .setNZ p (v + d)) hp h)

/-- What a shift computes from the state it reads in and the byte read. -/
def shiftCompute (f : Bool → Byte → Shifted) (u : State) (v : Byte) : Byte × (Byte → Byte) :=
  ((f (u.flag .C) v).r, fun p => shiftFlags p (f (u.flag .C) v).r (f (u.flag .C) v).out)

theorem shiftMem_ends (f : Bool → Byte → Shifted) (m : MemOperand) {s : State}
    (hw : ∀ s a v b, s.bus.write a v = some b → Q s → Q (s.setBus b)) (hp : ∀ s p, SameUB s.p p → Q s → Q (s.setP p))
    (h : Q s) : resultEnds Q (shiftOperand f (.mem m) s) :=
  finish_ends (modifyMem_ends hr m (shiftCompute f) hw (fun _ _ p => .shiftFlags p _ _) hp h)

omit hr in
theorem shiftAcc_ends (f : Bool → Byte → Shifted) {s : State} (hs : ∀ s v, Q s → Q (s.setA v))
    (hp : ∀ s p, SameUB s.p p → Q s → Q (s.setP p)) (h : Q s) : resultEnds Q (shiftOperand f .acc s) :=
  finish_ends (modifyAcc_ends (shiftCompute f) hs (fun _ _ p => .shiftFlags p _ _) hp h)

theorem storeRegister_ends (r : Reg) (m : MemOperand) {s : State}
    (hw : ∀ s a v b, s.bus.write a v = some b → Q s → Q (s.setBus b)) (h : Q s) :
    resultEnds Q (storeRegister r (.mem m) s) := by
  refine finish_ends ((resolve_ends hr (.mem m) h).andThen fun ref t hres ht => ?_)
  obtain ⟨a, -, rfl⟩ := resolve_mem.1 hres
  exact memWrite_ends hw a _ ht

omit hr in
theorem branchIf_ends (f : Flag) (b : Bool) (off : Byte) {s : State} (hpc : ∀ s v, Q s → Q (s.setPc v)) (h : Q s) :
    resultEnds Q (branchIf f b off s) := by
  refine finish_ends (r := .ok () (if s.flag f = b then s.setPc _ else s)) ?_
  show Q (if _ then _ else _)
  split
  · exact hpc s _ h
  · exact h

theorem jumpTo_ends (m : MemOperand) {s : State} (hpc : ∀ s v, Q s → Q (s.setPc v)) (h : Q s) :
    resultEnds Q (jumpTo m s) :=
  finish_ends ((resolveAddr_ends hr m h).andThen fun _ t _ ht => hpc t _ ht)

end

/-- All an instruction can change: `Q` holds wherever it ends, if its mnemonic keeps `Q`. -/
theorem byMnemonic_ends {mn : Mnemonic} {o : Option Operand} {Q : State → Prop} {s : State} (k : Keeps mn o Q) (h : Q s) :
    resultEnds Q (byMnemonic mn o s) := by
  have hr := k.read
  cases mn
  case LDA => cases o with | none => exact h | some o => exact loadRegister_ends hr .A o (k.setA rfl) (k.setP rfl) h
  case LDX => cases o with | none => exact h | some o => exact loadRegister_ends hr .X o (k.setX rfl) (k.setP rfl) h
  case LDY => cases o with | none => exact h | some o => exact loadRegister_ends hr .Y o (k.setY rfl) (k.setP rfl) h
  case INC => rcases o with _ | _ | _ | m; exacts [h, h, h, addToMemory_ends hr _ m (k.write rfl) (k.setP rfl) h]
  case DEC => rcases o with _ | _ | _ | m; exacts [h, h, h, addToMemory_ends hr _ m (k.write rfl) (k.setP rfl) h]
  case INX => exact k.setP rfl (s.setX _) _ (.setNZ _ _) (k.setX rfl s _ h)
  case INY => exact k.setP rfl (s.setY _) _ (.setNZ _ _) (k.setY rfl s _ h)
  case DEX => exact k.setP rfl (s.setX _) _ (.setNZ _ _) (k.setX rfl s _ h)
  case DEY => exact k.setP rfl (s.setY _) _ (.setNZ _ _) (k.setY rfl s _ h)
  case SEC => exact k.setP rfl s _ (.setFlag s.p _ (by decide) (by decide)) h
  case SED => exact k.setP rfl s _ (.setFlag s.p _ (by decide) (by decide)) h
  case SEI => exact k.setP rfl s _ (.setFlag s.p _ (by decide) (by decide)) h
  case CLC => exact k.setP rfl s _ (.setFlag s.p _ (by decide) (by decide)) h
  case CLD => exact k.setP rfl s _ (.setFlag s.p _ (by decide) (by decide)) h
  case CLI => exact k.setP rfl s _ (.setFlag s.p _ (by decide) (by decide)) h
  case CLV => exact k.setP rfl s _ (.setFlag s.p _ (by decide) (by decide)) h
  case ADC => cases o with | none => exact h | some o => exact addToAccumulator_ends hr _ o (k.setA rfl) (k.setP rfl) h
  case SBC => cases o with | none => exact h | some o => exact addToAccumulator_ends hr _ o (k.setA rfl) (k.setP rfl) h
  case AND => cases o with | none => exact h | some o => exact combineAccumulator_ends hr _ o (k.setA rfl) (k.setP rfl) h
  case ORA => cases o with | none => exact h | some o => exact combineAccumulator_ends hr _ o (k.setA rfl) (k.setP rfl) h
  case EOR => cases o with | none => exact h | some o => exact combineAccumulator_ends hr _ o (k.setA rfl) (k.setP rfl) h
  case ASL => 
    rcases o with _ | _ | _ | m
    exacts [h, shiftAcc_ends _ (k.setA rfl) (k.setP rfl) h, h, shiftMem_ends hr _ m (k.write rfl) (k.setP rfl) h]
  case LSR => 
    rcases o with _ | _ | _ | m
    exacts [h, shiftAcc_ends _ (k.setA rfl) (k.setP rfl) h, h, shiftMem_ends hr _ m (k.write rfl) (k.setP rfl) h]
  case ROL => 
    rcases o with _ | _ | _ | m
    exacts [h, shiftAcc_ends _ (k.setA rfl) (k.setP rfl) h, h, shiftMem_ends hr _ m (k.write rfl) (k.setP rfl) h]
  case ROR => 
    rcases o with _ | _ | _ | m
    exacts [h, shiftAcc_ends _ (k.setA rfl) (k.setP rfl) h, h, shiftMem_ends hr _ m (k.write rfl) (k.setP rfl) h]
  case CMP => cases o with | none => exact h | some o => exact compareRegister_ends hr .A o (k.setP rfl) h
  case CPX => cases o with | none => exact h | some o => exact compareRegister_ends hr .X o (k.setP rfl) h
  case CPY => cases o with | none => exact h | some o => exact compareRegister_ends hr .Y o (k.setP rfl) h
  case BIT => rcases o with _ | _ | _ | m; exacts [h, h, h, bitTest_ends hr (.mem m) (k.setP rfl) h]
  case BPL => rcases o with _ | _ | _ | m; exacts [h, h, h, by cases m <;> first | exact h | exact branchIf_ends _ _ _ (k.setPc rfl) h]
  case BMI => rcases o with _ | _ | _ | m; exacts [h, h, h, by cases m <;> first | exact h | exact branchIf_ends _ _ _ (k.setPc rfl) h]
  case BVC => rcases o with _ | _ | _ | m; exacts [h, h, h, by cases m <;> first | exact h | exact branchIf_ends _ _ _ (k.setPc rfl) h]
  case BVS => rcases o with _ | _ | _ | m; exacts [h, h, h, by cases m <;> first | exact h | exact branchIf_ends _ _ _ (k.setPc rfl) h]
  case BCC => rcases o with _ | _ | _ | m; exacts [h, h, h, by cases m <;> first | exact h | exact branchIf_ends _ _ _ (k.setPc rfl) h]
  case BCS => rcases o with _ | _ | _ | m; exacts [h, h, h, by cases m <;> first | exact h | exact branchIf_ends _ _ _ (k.setPc rfl) h]
  case BNE => rcases o with _ | _ | _ | m; exacts [h, h, h, by cases m <;> first | exact h | exact branchIf_ends _ _ _ (k.setPc rfl) h]
  case BEQ => rcases o with _ | _ | _ | m; exacts [h, h, h, by cases m <;> first | exact h | exact branchIf_ends _ _ _ (k.setPc rfl) h]
  case JMP => rcases o with _ | _ | _ | m; exacts [h, h, h, jumpTo_ends hr m (k.setPc rfl) h]
  case PHA => exact finish_ends (push_ends (k.write rfl) (k.setSp rfl) _ h)
  case PHP => exact finish_ends (push_ends (k.write rfl) (k.setSp rfl) _ h)
  case PLA => 
    exact finish_ends ((pull_ends hr (k.setSp rfl) h).andThen fun v t _ ht =>
      k.setP rfl (t.setA v) _ (.setNZ _ v) (k.setA rfl t v ht))
  case PLP => exact finish_ends (pullStatus_ends hr (k.setSp rfl) (k.setP rfl) h)
  case JSR => 
    rcases o with _ | _ | _ | m
    exacts [h, h, h, by
      cases m <;> first
        | exact h
        | exact finish_ends ((pushWord_ends (k.write rfl) (k.setSp rfl) _ h).andThen fun _ t _ ht => k.setPc rfl t _ ht)]
  case RTS => exact finish_ends ((pullWord_ends hr (k.setSp rfl) h).andThen fun _ t _ ht => k.setPc rfl t _ ht)
  case RTI => 
    exact finish_ends ((pullStatus_ends hr (k.setSp rfl) (k.setP rfl) h).andThen fun _ t _ ht =>
      (pullWord_ends hr (k.setSp rfl) ht).andThen fun _ u _ hu => k.setPc rfl u _ hu)
  case BRK => 
    exact finish_ends ((pushWord_ends (k.write rfl) (k.setSp rfl) _ h).andThen fun _ t _ ht =>
      (push_ends (k.write rfl) (k.setSp rfl) _ ht).andThen fun _ u _ hu =>
      (memRead_ends hr _ (k.setP rfl u _ (.setFlag u.p true (by decide) (by decide)) hu)).andThen fun _ v _ hv =>
      (memRead_ends hr _ hv).andThen fun _ w _ hw => k.setPc rfl w _ hw)
  case STA => rcases o with _ | _ | _ | m; exacts [h, h, h, storeRegister_ends hr _ m (k.write rfl) h]
  case STX => rcases o with _ | _ | _ | m; exacts [h, h, h, storeRegister_ends hr _ m (k.write rfl) h]
  case STY => rcases o with _ | _ | _ | m; exacts [h, h, h, storeRegister_ends hr _ m (k.write rfl) h]
  case TAX => exact k.setP rfl (s.setX _) _ (.setNZ _ _) (k.setX rfl s _ h)
  case TAY => exact k.setP rfl (s.setY _) _ (.setNZ _ _) (k.setY rfl s _ h)
  case TXA => exact k.setP rfl (s.setA _) _ (.setNZ _ _) (k.setA rfl s _ h)
  case TYA => exact k.setP rfl (s.setA _) _ (.setNZ _ _) (k.setA rfl s _ h)
  case TSX => exact k.setP rfl (s.setX _) _ (.setNZ _ _) (k.setX rfl s _ h)
  case TXS => exact k.setSp rfl s _ h
  case NOP => exact h

/-- All an instruction can change. -/
theorem exec_ends {i : Instr} {Q : State → Prop} {s : State} (k : Keeps i.mnemonic i.operand Q) (h : Q s) :
    resultEnds Q (exec i s) := by
  rw [exec_eq_byMnemonic]
  exact byMnemonic_ends k h

/-- The map stays and the history only grows, whatever the instruction. -/
theorem keepsMapExtendsLog (i : Instr) (s : State) :
    Keeps i.mnemonic i.operand (fun t => t.bus.map = s.bus.map ∧ ∃ events, t.bus.log = events ++ s.bus.log) := by
  constructor
  case read => rintro t a v - ⟨h1, ev, h2⟩; exact ⟨h1, .read a v :: ev, by simp [h2]⟩
  case write => rintro - t a v b hb ⟨h, ev, h2⟩; exact ⟨(Bus.write_map hb).trans h, .write a v :: ev, by simp [Bus.write_log hb, h2]⟩
  all_goals intros; assumption

/-- What every instruction and the fetch keep, a dispatch keeps. -/
theorem step_ends {Q : State → Prop} {s : State} (k : ∀ i : Instr, Keeps i.mnemonic i.operand Q)
    (hpc : ∀ s v, Q s → Q (s.setPc v)) (h : Q s) : resultEnds Q (step s) := by
  have hf : ∀ {s : State}, Q s → (fetchByte s).Ends Q := fun h =>
    (memRead_ends (k .nop).read _ h).andThen fun _ t _ ht => hpc t _ ht
  have hn : ∀ (n : Nat) {s : State}, Q s → (fetchBytes n s).Ends Q := by
    intro n
    induction n with
    | zero => exact fun h => h
    | succ n ih => exact fun h => (hf h).andThen fun _ _ _ ht => (ih ht).andThen fun _ _ _ hu => hu
  have hi : (fetchInstr s).Ends Q :=
    (hf h).andThen fun _ _ _ ht => (hn _ ht).andThen fun _ u _ hu => by split <;> exact hu
  unfold step
  cases hs : fetchInstr s with
  | ok i t => exact exec_ends (k i) (hi.ok hs)
  | fail f => exact hi.fail hs

end Sys2Proof.Machine
end

