-- ==== Sys2Proof/Laws/Faults.lean ====
section
/-! SUPPORT. How an instruction can fail, said once for all of them: with BusError, at an access the bus refuses in the state it
leaves. -/

namespace Sys2Proof.Machine

/-- A BusError whose access the bus refuses in the state left. -/
def IsRefusedAccess (f : Fault) : Prop :=
  ∃ a dir t, f = .busError a dir t ∧ (dir = .read → t.bus.read a = none) ∧ (dir = .write → ∃ v, t.bus.write a v = none)

/-- Every way this part can fail is a refused access. -/
def Res.Honest {α : Type} (r : Res α) : Prop := ∀ f, r = .fail f → IsRefusedAccess f

section
variable {α β : Type}

theorem Res.Honest.ok (v : α) (s : State) : (Res.ok v s).Honest := fun _ h => by cases h

theorem Res.Honest.andThen {r : Res α} {k : α → State → Res β} (h : r.Honest) (hk : ∀ v t, (k v t).Honest) :
    (r.andThen k).Honest := by
  cases r with
  | ok v t => exact hk v t
  | fail f => exact fun g hg => h g (by simpa using hg)

theorem finish_honest {r : Res Unit} (h : r.Honest) (f : Fault) (hf : r.finish = .fault f) : IsRefusedAccess f :=
  h f (Res.finish_eq_fault.1 hf)

end

theorem memRead_honest (a : Addr) (s : State) : (memRead a s).Honest := by
  intro f hf
  obtain ⟨ha, rfl⟩ := memRead_eq_fail.1 hf
  exact ⟨a, .read, s, rfl, fun _ => Bus.read_eq_none.2 ha, fun h => by cases h⟩

theorem memWrite_honest (a : Addr) (v : Byte) (s : State) : (memWrite a v s).Honest := by
  intro f hf
  obtain ⟨ha, rfl⟩ := memWrite_eq_fail.1 hf
  exact ⟨a, .write, s, rfl, fun h => (by cases h), fun _ => ⟨v, ha⟩⟩

theorem push_honest (v : Byte) (s : State) : (push v s).Honest := (memWrite_honest _ v s).andThen fun _ _ => .ok _ _

theorem pushWord_honest (w : Addr) (s : State) : (pushWord w s).Honest := (push_honest _ s).andThen fun _ t => push_honest _ t

theorem pull_honest (s : State) : (pull s).Honest := memRead_honest _ _

theorem pullWord_honest (s : State) : (pullWord s).Honest :=
  (pull_honest s).andThen fun _ t => (pull_honest t).andThen fun _ _ => .ok _ _

theorem pullStatus_honest (s : State) : (pullStatus s).Honest := (pull_honest s).andThen fun _ _ => .ok _ _

theorem resolveAddr_honest (m : MemOperand) (s : State) : (resolveAddr m s).Honest := by
  have hp : ∀ a1 a2 k, (readPair a1 a2 k s).Honest := fun a1 a2 _ =>
    (memRead_honest a1 s).andThen fun _ t => (memRead_honest a2 t).andThen fun _ _ => .ok _ _
  cases m <;> first | exact .ok _ _ | exact hp _ _ _

theorem resolve_honest (o : Operand) (s : State) : (resolve o s).Honest := by
  cases o with
  | acc => exact .ok _ _
  | imm v => exact .ok _ _
  | mem m => exact (resolveAddr_honest m s).andThen fun _ _ => .ok _ _

theorem readRef_honest (r : Ref) (s : State) : (readRef r s).Honest := by
  cases r with
  | reg r => exact .ok _ _
  | lit v => exact .ok _ _
  | mem a => exact memRead_honest a s

theorem readOperand_honest (o : Operand) (s : State) : (readOperand o s).Honest :=
  (resolve_honest o s).andThen fun r t => readRef_honest r t

/-- A failing read is a BusError of a read (R230). -/
theorem memRead_isReadError {a : Addr} {s : State} {f : Fault} (h : memRead a s = .fail f) : IsReadError f :=
  ⟨a, s, (memRead_eq_fail.1 h).2⟩

/-- Resolution fails only at a read (R86, R95). -/
theorem resolveAddr_isReadError {m : MemOperand} {s : State} {f : Fault} (h : resolveAddr m s = .fail f) : IsReadError f := by
  have hp : ∀ {a1 a2 k}, readPair a1 a2 k s = .fail f → IsReadError f := by
    intro a1 a2 k h
    rcases readPair_eq_fail.1 h with h | ⟨_, _, _, h⟩ <;> exact memRead_isReadError h
  cases m <;> first | exact hp h | cases h

/-- Reading an operand fails only at a read (R55, R86). -/
theorem readOperand_isReadError {o : Operand} {s : State} {f : Fault} (h : readOperand o s = .fail f) : IsReadError f := by
  rcases Res.andThen_eq_fail.1 h with h | ⟨r, t, -, h⟩
  · cases o with
    | acc => cases h
    | imm v => cases h
    | mem m =>
      rcases Res.andThen_eq_fail.1 h with h | ⟨_, _, _, h⟩
      · exact resolveAddr_isReadError h
      · cases h
  · cases r with
    | reg r => cases h
    | lit v => cases h
    | mem a => exact memRead_isReadError h

theorem modifyMem_honest (m : MemOperand) (f : State → Byte → Byte × (Byte → Byte)) (s : State) :
    (modifyOperand (.mem m) f s).Honest := by
  intro g hg
  unfold modifyOperand at hg
  rcases Res.andThen_eq_fail.1 hg with h | ⟨ref, t, hres, h⟩
  · exact resolve_honest _ s g h
  · obtain ⟨a, -, rfl⟩ := resolve_mem.1 hres
    exact ((memRead_honest a t).andThen fun _ u => (memWrite_honest a _ u).andThen fun _ _ => .ok _ _) g h

theorem storeRegister_honest (r : Reg) (m : MemOperand) (s : State) (f : Fault)
    (h : storeRegister r (.mem m) s = .fault f) : IsRefusedAccess f := by
  rcases Res.andThen_eq_fail.1 (Res.finish_eq_fault.1 h) with h | ⟨ref, t, hres, h⟩
  · exact resolve_honest _ s f h
  · obtain ⟨a, -, rfl⟩ := resolve_mem.1 hres
    exact memWrite_honest a _ t f h

/-- A meaning that reads its operand and then only computes. -/
theorem readThen_honest {o : Operand} {s : State} {k : Byte → State → Res Unit} (hk : ∀ v t, ∃ u, k v t = .ok () u) (f : Fault)
    (h : ((readOperand o s).andThen k).finish = .fault f) : IsRefusedAccess f :=
  finish_honest ((readOperand_honest o s).andThen fun v t => by obtain ⟨u, hu⟩ := hk v t; rw [hu]; exact .ok _ _) f h

/-- Every fault of an instruction is a refused access (R230, R235; R232: no LiteralWrite). -/
theorem byMnemonic_fault {mn : Mnemonic} {o : Option Operand} {s : State} {f : Fault} (h : byMnemonic mn o s = .fault f) :
    IsRefusedAccess f := by
  cases mn
  case LDA => cases o with | none => cases h | some o => exact readThen_honest (fun _ _ => ⟨_, rfl⟩) f h
  case LDX => cases o with | none => cases h | some o => exact readThen_honest (fun _ _ => ⟨_, rfl⟩) f h
  case LDY => cases o with | none => cases h | some o => exact readThen_honest (fun _ _ => ⟨_, rfl⟩) f h
  case ADC => cases o with | none => cases h | some o => exact readThen_honest (fun _ _ => ⟨_, rfl⟩) f h
  case SBC => cases o with | none => cases h | some o => exact readThen_honest (fun _ _ => ⟨_, rfl⟩) f h
  case AND => cases o with | none => cases h | some o => exact readThen_honest (fun _ _ => ⟨_, rfl⟩) f h
  case ORA => cases o with | none => cases h | some o => exact readThen_honest (fun _ _ => ⟨_, rfl⟩) f h
  case EOR => cases o with | none => cases h | some o => exact readThen_honest (fun _ _ => ⟨_, rfl⟩) f h
  case CMP => cases o with | none => cases h | some o => exact readThen_honest (fun _ _ => ⟨_, rfl⟩) f h
  case CPX => cases o with | none => cases h | some o => exact readThen_honest (fun _ _ => ⟨_, rfl⟩) f h
  case CPY => cases o with | none => cases h | some o => exact readThen_honest (fun _ _ => ⟨_, rfl⟩) f h
  case INC => rcases o with _ | _ | _ | m; exacts [(nomatch h), (nomatch h), (nomatch h), finish_honest (modifyMem_honest m _ s) f h]
  case DEC => rcases o with _ | _ | _ | m; exacts [(nomatch h), (nomatch h), (nomatch h), finish_honest (modifyMem_honest m _ s) f h]
  case ASL => rcases o with _ | _ | _ | m; exacts [(nomatch h), (nomatch h), (nomatch h), finish_honest (modifyMem_honest m _ s) f h]
  case LSR => rcases o with _ | _ | _ | m; exacts [(nomatch h), (nomatch h), (nomatch h), finish_honest (modifyMem_honest m _ s) f h]
  case ROL => rcases o with _ | _ | _ | m; exacts [(nomatch h), (nomatch h), (nomatch h), finish_honest (modifyMem_honest m _ s) f h]
  case ROR => rcases o with _ | _ | _ | m; exacts [(nomatch h), (nomatch h), (nomatch h), finish_honest (modifyMem_honest m _ s) f h]
  case INX => cases h
  case INY => cases h
  case DEX => cases h
  case DEY => cases h
  case SEC => cases h
  case SED => cases h
  case SEI => cases h
  case CLC => cases h
  case CLD => cases h
  case CLI => cases h
  case CLV => cases h
  case TAX => cases h
  case TAY => cases h
  case TXA => cases h
  case TYA => cases h
  case TSX => cases h
  case TXS => cases h
  case NOP => cases h
  case BIT => rcases o with _ | _ | _ | m; exacts [(nomatch h), (nomatch h), (nomatch h), readThen_honest (fun _ _ => ⟨_, rfl⟩) f h]
  case BPL => rcases o with _ | _ | _ | m; exacts [(nomatch h), (nomatch h), (nomatch h), by cases m <;> cases h]
  case BMI => rcases o with _ | _ | _ | m; exacts [(nomatch h), (nomatch h), (nomatch h), by cases m <;> cases h]
  case BVC => rcases o with _ | _ | _ | m; exacts [(nomatch h), (nomatch h), (nomatch h), by cases m <;> cases h]
  case BVS => rcases o with _ | _ | _ | m; exacts [(nomatch h), (nomatch h), (nomatch h), by cases m <;> cases h]
  case BCC => rcases o with _ | _ | _ | m; exacts [(nomatch h), (nomatch h), (nomatch h), by cases m <;> cases h]
  case BCS => rcases o with _ | _ | _ | m; exacts [(nomatch h), (nomatch h), (nomatch h), by cases m <;> cases h]
  case BNE => rcases o with _ | _ | _ | m; exacts [(nomatch h), (nomatch h), (nomatch h), by cases m <;> cases h]
  case BEQ => rcases o with _ | _ | _ | m; exacts [(nomatch h), (nomatch h), (nomatch h), by cases m <;> cases h]
  case JMP => 
    rcases o with _ | _ | _ | m
    exacts [(nomatch h), (nomatch h), (nomatch h), finish_honest ((resolveAddr_honest m s).andThen fun _ _ => .ok _ _) f h]
  case PHA => exact finish_honest (push_honest _ s) f h
  case PHP => exact finish_honest (push_honest _ s) f h
  case PLA => exact finish_honest ((pull_honest s).andThen fun _ _ => .ok _ _) f h
  case PLP => exact finish_honest (pullStatus_honest s) f h
  case JSR => 
    rcases o with _ | _ | _ | m
    exacts [(nomatch h), (nomatch h), (nomatch h), by
      cases m <;> first
        | cases h
        | exact finish_honest ((pushWord_honest _ s).andThen fun _ _ => .ok _ _) f h]
  case RTS => exact finish_honest ((pullWord_honest s).andThen fun _ _ => .ok _ _) f h
  case RTI => 
    exact finish_honest ((pullStatus_honest s).andThen fun _ t => (pullWord_honest t).andThen fun _ _ => .ok _ _) f h
  case BRK => 
    exact finish_honest ((pushWord_honest _ s).andThen fun _ t => (push_honest _ t).andThen fun _ u =>
      (memRead_honest _ _).andThen fun _ v => (memRead_honest _ v).andThen fun _ _ => .ok _ _) f h
  case STA => rcases o with _ | _ | _ | m; exacts [(nomatch h), (nomatch h), (nomatch h), storeRegister_honest _ m s f h]
  case STX => rcases o with _ | _ | _ | m; exacts [(nomatch h), (nomatch h), (nomatch h), storeRegister_honest _ m s f h]
  case STY => rcases o with _ | _ | _ | m; exacts [(nomatch h), (nomatch h), (nomatch h), storeRegister_honest _ m s f h]

theorem exec_fault {i : Instr} {s : State} {f : Fault} (h : exec i s = .fault f) : IsRefusedAccess f := by
  rw [exec_eq_byMnemonic] at h
  exact byMnemonic_fault h

/-- Every fault of the fetch is a refused access or an illegal opcode (R82, R103). -/
theorem fetchInstr_fault {s : State} {f : Fault} (h : fetchInstr s = .fail f) :
    IsRefusedAccess f ∨ ∃ op t, f = .illegalOpcode op t := by
  have h1 : ∀ s, (fetchByte s).Honest := fun s => (memRead_honest s.pc s).andThen fun _ _ => .ok _ _
  have hn : ∀ (n : Nat) s, (fetchBytes n s).Honest := by
    intro n
    induction n with
    | zero => exact fun s => .ok _ _
    | succ n ih => exact fun s => (h1 s).andThen fun _ t => (ih t).andThen fun _ _ => .ok _ _
  rcases Res.andThen_eq_fail.1 h with h | ⟨op, t, -, h⟩
  · exact .inl (h1 s f h)
  · rcases Res.andThen_eq_fail.1 h with h | ⟨bs, u, -, h⟩
    · exact .inl (hn _ t f h)
    · split at h
      · cases h
      · exact .inr ⟨op, u, by cases h; rfl⟩

/-- Every fault of a dispatch is a refused access or an illegal opcode (R233). -/
theorem step_fault {s : State} {f : Fault} (h : step s = .fault f) : IsRefusedAccess f ∨ ∃ op t, f = .illegalOpcode op t := by
  unfold step at h
  cases hf : fetchInstr s with
  | ok i t => rw [hf] at h; exact .inl (exec_fault h)
  | fail g => rw [hf] at h; cases h; exact fetchInstr_fault hf

end Sys2Proof.Machine
end

