-- ==== Sys2Proof/Laws/Frames.lean ====
section
/-! SUPPORT. Frames: how what one part of an instruction leaves alone adds up, and what a read-modify-write does in full. -/

namespace Sys2Proof.Machine

theorem State.flag_setP (s : State) (p : Byte) (f : Flag) : (s.setP p).flag f = getFlag p f.index := rfl

theorem State.flag_set (s : State) (r : Reg) (hr : r ≠ .P) (v : Byte) (f : Flag) : (s.set r v).flag f = s.flag f := by
  cases r <;> first | rfl | contradiction

/-- Reads alone change nothing a frame speaks of. -/
theorem ReadOnlyStep.frame {s t : State} (h : ReadOnlyStep s t) : Frame [] [] [] s t ∧ OnlyReads s t := by
  refine ⟨?_, h.2⟩
  obtain ⟨h1, h2, h3, h4, h5, h6, h7, h8, h9⟩ := h.same
  refine ⟨fun r _ _ => ?_, fun f _ => ?_, ⟨h.2.2.1, fun c _ => h8 c⟩, h7, h1⟩
  · cases r <;> simp [*]
  · simp [State.flag, h6]

/-- A frame from the state the reads ended in is a frame from where they began. -/
theorem Frame.afterReads {rs : List Reg} {fs : List Flag} {as : List Addr} {s t u : State} (h : ReadOnlyStep s t)
    (h2 : Frame rs fs as t u) : Frame rs fs as s u := by
  obtain ⟨⟨a1, a2, ⟨a3, a3'⟩, a4, a5⟩, -⟩ := h.frame
  obtain ⟨b1, b2, ⟨b3, b3'⟩, b4, b5⟩ := h2
  exact ⟨fun r h1 h2 => (b1 r h1 h2).trans (a1 r h1 (by simp)), fun f hf => (b2 f hf).trans (a2 f (by simp)),
    ⟨b3.trans a3, fun c hc => (b3' c hc).trans (a3' c (by simp))⟩, b4.trans a4, b5.trans a5⟩

/-- Writing P on top of a frame. -/
theorem Frame.setP {rs : List Reg} {fs fs' : List Flag} {as : List Addr} {s t : State} {p : Byte} (h : Frame rs fs as s t)
    (hp : ∀ f, f ∉ fs' → f ∉ fs ∧ getFlag p f.index = t.flag f) : Frame rs fs' as s (t.setP p) := by
  obtain ⟨a1, a2, a3, a4, a5⟩ := h
  refine ⟨fun r h1 h2 => ?_, fun f hf => ?_, a3, a4, a5⟩
  · rw [← a1 r h1 h2]; cases r <;> first | rfl | contradiction
  · rw [State.flag_setP, (hp f hf).2, a2 f (hp f hf).1]

/-- One completed write reaches its own byte alone, and RAM then holds what was written. -/
theorem Frame.ofWrite {s : State} {a : Addr} {w : Byte} {b : Bus} (hm : Memory.wf s.bus.mem = true)
    (hw : s.bus.write a w = some b) : Frame [] [] [a] s (s.setBus b) ∧ (s.bus.kindAt a = .ram → b.peek a = w) := by
  refine ⟨⟨fun r _ _ => by cases r <;> rfl, fun f _ => rfl, ⟨Bus.write_map hw, fun c hc => ?_⟩, rfl, rfl⟩, fun hk => ?_⟩
  · exact Bus.write_peek_other hw hm (by simpa using hc)
  · rw [Bus.write_ram hk] at hw; cases hw
    rw [Bus.peek_logged, Bus.peek_stored_same _ _ hm]

/-- A read-modify-write of memory is one read and one write at the resolved address, then P (R111). -/
theorem modifyOperand_mem {m : MemOperand} {f : State → Byte → Byte × (Byte → Byte)} {s t : State} {a : Addr}
    (h : resolveAddr m s = .ok a t) :
    modifyOperand (.mem m) f s = (memRead a t).andThen fun v u =>
      (memWrite a (f u v).1 u).andThen fun _ w => .ok () (w.setP ((f u v).2 w.p)) := by
  have : resolve (.mem m) s = .ok (.mem a) t := resolve_mem.2 ⟨a, h, rfl⟩
  simp only [modifyOperand, this, Res.andThen_ok, readRef, writeRef]

/-- All a read-modify-write of memory does, once its address is resolved (R111): the read fails, or the write fails with the
flags unwritten, or the byte and P are written and nothing else. `g` is the result from C and the byte, `fl` the new P. -/
theorem modifyOperand_spec {m : MemOperand} {s t : State} {a : Addr} (hm : Memory.wf s.bus.mem = true)
    (h : resolveAddr m s = .ok a t) (g : Bool → Byte → Byte) (fl : Byte → Bool → Byte → Byte) {r : Result}
    (hr : r = (modifyOperand (.mem m) (fun u v => (g (u.flag .C) v, fun p => fl p (u.flag .C) v)) s).finish) :
    (t.bus.read a = none → r = .fault (.busError a .read t)) ∧
    (∀ (v : Byte) (b1 : Bus), t.bus.read a = some (v, b1) →
      (b1.write a (g (s.flag .C) v) = none → r = .fault (.busError a .write (t.setBus b1))) ∧
      (∀ b2 : Bus, b1.write a (g (s.flag .C) v) = some b2 →
        r = .next ((t.setBus b2).setP (fl s.p (s.flag .C) v)) ∧
        Frame [] [] [a] s (t.setBus b2) ∧ (s.bus.kindAt a = .ram → b2.peek a = g (s.flag .C) v) ∧
        Accesses [.read a v, .write a (g (s.flag .C) v)] t (t.setBus b2))) := by
  subst hr
  have ro := (resolveAddr_readOnly m s).ok h
  simp only [modifyOperand_mem h]
  refine ⟨fun hn => by simp [memRead_of_none hn], fun v b1 h1 => ?_⟩
  have ro1 : ReadOnlyStep s (t.setBus b1) := by rw [(Bus.read_eq_some h1).2]; exact ro.read a v
  have hf : (t.setBus b1).flag .C = s.flag .C := by simp only [State.flag, ro1.same.2.2.2.2.2.1]
  have hp : (t.setBus b1).p = s.p := ro1.same.2.2.2.2.2.1
  simp only [memRead_of_some h1, Res.andThen_ok, hf]
  refine ⟨fun hn => by rw [memWrite_of_none (s := t.setBus b1) hn]; rfl, fun b2 hw => ?_⟩
  obtain ⟨f1, f2⟩ := Frame.ofWrite (s := t.setBus b1) (by rw [ro1.2.1]; exact hm) hw
  refine ⟨?_, f1.afterReads ro1, fun hk => f2 (by rw [ro1.same.2.2.2.2.2.2.2.2]; exact hk), ?_⟩
  · rw [memWrite_of_some (s := t.setBus b1) hw]; simp only [State.setBus_p] at hp; simp [hp]
  · have := Bus.write_log hw
    rw [(Bus.read_eq_some h1).2] at this
    simpa [Accesses] using this

/-- A branch: the condition decides `pc`, nothing else changes (R190). -/
theorem branchIf_eq (f : Flag) (b : Bool) (off : Byte) (s : State) :
    branchIf f b off s = .next (s.setPc (if s.flag f = b then s.pc - 1 + sext off else s.pc)) := by
  simp [branchIf, resolveAddr]; split <;> rfl

end Sys2Proof.Machine
end

