-- ==== Sys2Proof/Laws/Stack.lean ====
section
/-! SUPPORT. Stack addresses as offsets from SP, and pushing and pulling at them. -/

namespace Sys2Proof.Machine

/-- A stack slot is the stack address SP would have after moving there. -/
theorem StackSlot.eq {s : State} {k : Int} {a : Addr} (h : StackSlot s k a) :
    a = (s.setSp (s.sp + BitVec.ofInt 8 k)).stackAddr := by
  apply BitVec.eq_of_toNat_eq
  unfold StackSlot at h
  simp only [State.stackAddr, wordOf_toNat, State.setSp_sp, State.setSp_cfg, BitVec.toNat_add, BitVec.toNat_ofInt]
  omega

/-- Every offset has its slot. -/
theorem StackSlot.exists (s : State) (k : Int) : ∃ a, StackSlot s k a := by
  refine ⟨(s.setSp (s.sp + BitVec.ofInt 8 k)).stackAddr, ?_⟩
  unfold StackSlot
  simp only [State.stackAddr, wordOf_toNat, State.setSp_sp, State.setSp_cfg, BitVec.toNat_add, BitVec.toNat_ofInt]
  omega

/-- Slots at offsets that differ mod 256 are different addresses. -/
theorem StackSlot.ne {s : State} {k j : Int} {a b : Addr} (ha : StackSlot s k a) (hb : StackSlot s j b)
    (h : k % 256 ≠ j % 256) : a ≠ b := by
  rintro rfl; unfold StackSlot at ha hb; omega

/-- A slot seen from a state whose SP has moved. -/
theorem StackSlot.shift {s t : State} {k j : Int} {a : Addr} (h : StackSlot s k a) (hc : t.cfg = s.cfg)
    (hs : ((t.sp.toNat : Int) + j) % 256 = ((s.sp.toNat : Int) + k) % 256) : StackSlot t j a := by
  unfold StackSlot at *
  rw [hc, hs, h]

/-- The slot at offset `k` is the stack address of any state whose SP stands there. -/
theorem StackSlot.stackAddr {s t : State} {k : Int} (hc : t.cfg = s.cfg) (hs : t.sp = s.sp + BitVec.ofInt 8 k) :
    StackSlot s k t.stackAddr := by
  obtain ⟨a, ha⟩ := StackSlot.exists s k
  have : a = t.stackAddr := by rw [ha.eq]; simp [State.stackAddr, hc, hs]
  rwa [← this]

/-- All a push that completes does: SP moves, the byte is stored at the stack address, and no other byte changes. -/
theorem push_stores {v : Byte} {s t : State} {u : Unit} (h : push v s = .ok u t) (hm : Memory.wf s.bus.mem = true) :
    Memory.wf t.bus.mem = true ∧ t.bus.map = s.bus.map ∧ t = (s.setBus t.bus).setSp (s.sp - 1) ∧
    (s.bus.kindAt s.stackAddr = .ram → t.peek s.stackAddr = v) ∧ ∀ c, c ≠ s.stackAddr → t.peek c = s.peek c := by
  obtain ⟨b, hb, rfl⟩ := push_eq_ok.1 h
  refine ⟨Bus.write_wf hb hm, Bus.write_map hb, rfl, fun hk => ?_, fun c hc => Bus.write_peek_other hb hm hc⟩
  rw [Bus.write_ram hk] at hb
  cases hb
  exact Bus.peek_stored_same _ _ hm

theorem push_of_some {s : State} {a : Addr} {v : Byte} {b : Bus} (ha : StackSlot s 0 a) (h : s.bus.write a v = some b) :
    push v s = .ok () ((s.setBus b).setSp (s.sp - 1)) := by
  have : a = s.stackAddr := by simpa using ha.eq
  subst this
  exact push_eq_ok.2 ⟨b, h, rfl⟩

theorem push_of_none {s : State} {a : Addr} {v : Byte} (ha : StackSlot s 0 a) (h : s.bus.write a v = none) :
    push v s = .fail (.busError a .write s) := by
  have : a = s.stackAddr := by simpa using ha.eq
  subst this
  exact push_eq_fail.2 ⟨h, rfl⟩

theorem pull_of_some {s : State} {a : Addr} {v : Byte} {b : Bus} (ha : StackSlot s 1 a) (h : s.bus.read a = some (v, b)) :
    pull s = .ok v ((s.setBus b).setSp (s.sp + 1)) := by
  have := ha.eq; subst this
  obtain ⟨h1, rfl⟩ := Bus.read_eq_some h
  exact pull_eq_ok.2 ⟨h1, rfl⟩

theorem pull_of_none {s : State} {a : Addr} (ha : StackSlot s 1 a) (h : s.bus.read a = none) :
    pull s = .fail (.busError a .read (s.setSp (s.sp + 1))) := by
  have := ha.eq; subst this
  exact pull_eq_fail.2 ⟨Bus.read_eq_none.1 h, rfl⟩

/-- SP after `k` pushes, as a number (R61). -/
theorem sp_sub_toNat (s : State) (k : Nat) (_hk : k < 256) :
    ((s.sp - BitVec.ofNat 8 k).toNat : Int) = (s.sp.toNat - k : Int) % 256 := by
  have := s.sp.isLt
  simp only [BitVec.toNat_sub, BitVec.toNat_ofNat]; omega

/-- SP after `k` pulls, as a number (R62). -/
theorem sp_add_toNat (s : State) (k : Nat) : ((s.sp + BitVec.ofNat 8 k).toNat : Int) = (s.sp.toNat + k : Int) % 256 := by
  have := s.sp.isLt
  simp only [BitVec.toNat_add, BitVec.toNat_ofNat]; omega

/-- The two bytes of a 16-bit value, given as numbers (R63). -/
theorem bytes_of_word {w : Addr} {hi lo : Byte} (h : 256 * hi.toNat + lo.toNat = w.toNat) : hi = hiByte w ∧ lo = loByte w := by
  have := hi.isLt; have := lo.isLt; have := w.isLt
  constructor <;> apply BitVec.eq_of_toNat_eq <;>
    simp [loByte, hiByte, BitVec.extractLsb'_toNat, Nat.shiftRight_eq_div_pow] <;> omega

/-- A branch offset as a number (R92). -/
theorem sext_toNat (b : Byte) : ((sext b).toNat : Int) = b.toInt % 65536 := by
  revert b; decide +kernel

end Sys2Proof.Machine
end

