-- ==== Sys2Proof/Tests/Slice0.lean ====
section
/-! SUPPORT. The model's own tests. Expected values are the spec's: the vectors of 95_test_vectors.md (named in each
docstring) and the encodings of opcode_table.json. The witnesses at the end show that the hypotheses of the statements can be
met. -/

namespace Sys2Proof.Tests
open Sys2Proof.Machine

/-! ### Well-formedness: an ill-formed term for the one check -/

/-- Under `source_one_byte` an indexed base has one byte (R94): 0x0100 does not fit, in either indexed mode; 0x00FF does. -/
theorem test_wf_absX_refused : (Instr.ldaAbsX 0x0100).wf .sourceOneByte = false := by decide
theorem test_wf_absY_refused : (Instr.ldxAbsY 0x0100).wf .sourceOneByte = false := by decide
theorem test_wf_boundary : (Instr.ldaAbsX 0x00FF).wf .sourceOneByte = true ∧ (Instr.ldaAbsX 0x0100).wf .twoByte = true := by decide

/-! ### Decoding -/

/-- The instruction and the bytes left over. -/
def decoded (f : AbsIndexed) (bs : List Byte) : Option (Instr × List Byte) :=
  match decode f bs with
  | .ok r => some r
  | .error _ => none

/-- Every word decodes to its instruction, and the instruction encodes to that word. -/
def allDecode (l : List (List Byte × Instr)) : Bool :=
  l.all fun e => decide (decoded .twoByte e.1 = some (e.2, [])) && decide (encode .twoByte e.2 = e.1)

/-- The Load rows, each written out bit by bit from opcode_table.json, operand bytes low byte first (R63, R90). -/
theorem test_decode_Load : allDecode
    [
    ([0b10100001, 0x9C], .ldaIndX 0x9C), ([0b10100101, 0x9C], .ldaZp 0x9C), ([0b10101001, 0x9C], .ldaImm 0x9C),
    ([0b10101101, 0x34, 0x92], .ldaAbs 0x9234), ([0b10110001, 0x9C], .ldaIndY 0x9C), ([0b10110101, 0x9C], .ldaZpX 0x9C),
    ([0b10111001, 0x34, 0x92], .ldaAbsY 0x9234), ([0b10111101, 0x34, 0x92], .ldaAbsX 0x9234),
    ([0b10100010, 0x9C], .ldxImm 0x9C), ([0b10100110, 0x9C], .ldxZp 0x9C), ([0b10101110, 0x34, 0x92], .ldxAbs 0x9234),
    ([0b10110110, 0x9C], .ldxZpY 0x9C), ([0b10111110, 0x34, 0x92], .ldxAbsY 0x9234), ([0b10100000, 0x9C], .ldyImm 0x9C),
    ([0b10100100, 0x9C], .ldyZp 0x9C), ([0b10101100, 0x34, 0x92], .ldyAbs 0x9234), ([0b10110100, 0x9C], .ldyZpX 0x9C),
    ([0b10111100, 0x34, 0x92], .ldyAbsX 0x9234)] = true := by decide +kernel

/-- The IncDec rows, each written out bit by bit from opcode_table.json, operand bytes low byte first (R63, R90). -/
theorem test_decode_IncDec : allDecode
    [
    ([0b11100110, 0x9C], .incZp 0x9C), ([0b11101110, 0x34, 0x92], .incAbs 0x9234), ([0b11110110, 0x9C], .incZpX 0x9C),
    ([0b11111110, 0x34, 0x92], .incAbsX 0x9234), ([0b11000110, 0x9C], .decZp 0x9C),
    ([0b11001110, 0x34, 0x92], .decAbs 0x9234), ([0b11010110, 0x9C], .decZpX 0x9C),
    ([0b11011110, 0x34, 0x92], .decAbsX 0x9234), ([0b11101000], .inx), ([0b11001000], .iny), ([0b11001010], .dex),
    ([0b10001000], .dey)] = true := by decide +kernel

/-- The Flag rows, each written out bit by bit from opcode_table.json, operand bytes low byte first (R63, R90). -/
theorem test_decode_Flag : allDecode
    [
    ([0b00111000], .sec), ([0b11111000], .sed), ([0b01111000], .sei), ([0b00011000], .clc), ([0b11011000], .cld),
    ([0b01011000], .cli), ([0b10111000], .clv)] = true := by decide +kernel

/-- The Arith rows, each written out bit by bit from opcode_table.json, operand bytes low byte first (R63, R90). -/
theorem test_decode_Arith : allDecode
    [
    ([0b01100001, 0x9C], .adcIndX 0x9C), ([0b01100101, 0x9C], .adcZp 0x9C), ([0b01101001, 0x9C], .adcImm 0x9C),
    ([0b01101101, 0x34, 0x92], .adcAbs 0x9234), ([0b01110001, 0x9C], .adcIndY 0x9C), ([0b01110101, 0x9C], .adcZpX 0x9C),
    ([0b01111001, 0x34, 0x92], .adcAbsY 0x9234), ([0b01111101, 0x34, 0x92], .adcAbsX 0x9234),
    ([0b11100001, 0x9C], .sbcIndX 0x9C), ([0b11100101, 0x9C], .sbcZp 0x9C), ([0b11101001, 0x9C], .sbcImm 0x9C),
    ([0b11101101, 0x34, 0x92], .sbcAbs 0x9234), ([0b11110001, 0x9C], .sbcIndY 0x9C), ([0b11110101, 0x9C], .sbcZpX 0x9C),
    ([0b11111001, 0x34, 0x92], .sbcAbsY 0x9234), ([0b11111101, 0x34, 0x92], .sbcAbsX 0x9234)] = true := by decide +kernel

/-- The Logic rows, each written out bit by bit from opcode_table.json, operand bytes low byte first (R63, R90). -/
theorem test_decode_Logic : allDecode
    [
    ([0b00100001, 0x9C], .andIndX 0x9C), ([0b00100101, 0x9C], .andZp 0x9C), ([0b00101001, 0x9C], .andImm 0x9C),
    ([0b00101101, 0x34, 0x92], .andAbs 0x9234), ([0b00110001, 0x9C], .andIndY 0x9C), ([0b00110101, 0x9C], .andZpX 0x9C),
    ([0b00111001, 0x34, 0x92], .andAbsY 0x9234), ([0b00111101, 0x34, 0x92], .andAbsX 0x9234),
    ([0b00000001, 0x9C], .oraIndX 0x9C), ([0b00000101, 0x9C], .oraZp 0x9C), ([0b00001001, 0x9C], .oraImm 0x9C),
    ([0b00001101, 0x34, 0x92], .oraAbs 0x9234), ([0b00010001, 0x9C], .oraIndY 0x9C), ([0b00010101, 0x9C], .oraZpX 0x9C),
    ([0b00011001, 0x34, 0x92], .oraAbsY 0x9234), ([0b00011101, 0x34, 0x92], .oraAbsX 0x9234),
    ([0b01000001, 0x9C], .eorIndX 0x9C), ([0b01000101, 0x9C], .eorZp 0x9C), ([0b01001001, 0x9C], .eorImm 0x9C),
    ([0b01001101, 0x34, 0x92], .eorAbs 0x9234), ([0b01010001, 0x9C], .eorIndY 0x9C), ([0b01010101, 0x9C], .eorZpX 0x9C),
    ([0b01011001, 0x34, 0x92], .eorAbsY 0x9234), ([0b01011101, 0x34, 0x92], .eorAbsX 0x9234)] = true := by decide +kernel

/-- The Shift rows, each written out bit by bit from opcode_table.json, operand bytes low byte first (R63, R90). -/
theorem test_decode_Shift : allDecode
    [
    ([0b00000110, 0x9C], .aslZp 0x9C), ([0b00001010], .aslA), ([0b00001110, 0x34, 0x92], .aslAbs 0x9234),
    ([0b00010110, 0x9C], .aslZpX 0x9C), ([0b00011110, 0x34, 0x92], .aslAbsX 0x9234), ([0b01000110, 0x9C], .lsrZp 0x9C),
    ([0b01001010], .lsrA), ([0b01001110, 0x34, 0x92], .lsrAbs 0x9234), ([0b01010110, 0x9C], .lsrZpX 0x9C),
    ([0b01011110, 0x34, 0x92], .lsrAbsX 0x9234), ([0b00100110, 0x9C], .rolZp 0x9C), ([0b00101010], .rolA),
    ([0b00101110, 0x34, 0x92], .rolAbs 0x9234), ([0b00110110, 0x9C], .rolZpX 0x9C),
    ([0b00111110, 0x34, 0x92], .rolAbsX 0x9234), ([0b01100110, 0x9C], .rorZp 0x9C), ([0b01101010], .rorA),
    ([0b01101110, 0x34, 0x92], .rorAbs 0x9234), ([0b01110110, 0x9C], .rorZpX 0x9C),
    ([0b01111110, 0x34, 0x92], .rorAbsX 0x9234)] = true := by decide +kernel

/-- The Compare rows, each written out bit by bit from opcode_table.json, operand bytes low byte first (R63, R90). -/
theorem test_decode_Compare : allDecode
    [
    ([0b11000001, 0x9C], .cmpIndX 0x9C), ([0b11000101, 0x9C], .cmpZp 0x9C), ([0b11001001, 0x9C], .cmpImm 0x9C),
    ([0b11001101, 0x34, 0x92], .cmpAbs 0x9234), ([0b11010001, 0x9C], .cmpIndY 0x9C), ([0b11010101, 0x9C], .cmpZpX 0x9C),
    ([0b11011001, 0x34, 0x92], .cmpAbsY 0x9234), ([0b11011101, 0x34, 0x92], .cmpAbsX 0x9234),
    ([0b11100000, 0x9C], .cpxImm 0x9C), ([0b11100100, 0x9C], .cpxZp 0x9C), ([0b11101100, 0x34, 0x92], .cpxAbs 0x9234),
    ([0b11000000, 0x9C], .cpyImm 0x9C), ([0b11000100, 0x9C], .cpyZp 0x9C), ([0b11001100, 0x34, 0x92], .cpyAbs 0x9234),
    ([0b00100100, 0x9C], .bitZp 0x9C), ([0b00101100, 0x34, 0x92], .bitAbs 0x9234)] = true := by decide +kernel

/-- The Branch rows, each written out bit by bit from opcode_table.json, operand bytes low byte first (R63, R90). -/
theorem test_decode_Branch : allDecode
    [
    ([0b00010000, 0x9C], .bpl 0x9C), ([0b00110000, 0x9C], .bmi 0x9C), ([0b01010000, 0x9C], .bvc 0x9C),
    ([0b01110000, 0x9C], .bvs 0x9C), ([0b10010000, 0x9C], .bcc 0x9C), ([0b10110000, 0x9C], .bcs 0x9C),
    ([0b11010000, 0x9C], .bne 0x9C), ([0b11110000, 0x9C], .beq 0x9C), ([0b01001100, 0x34, 0x92], .jmpAbs 0x9234),
    ([0b01101100, 0x34, 0x92], .jmpInd 0x9234)] = true := by decide +kernel

/-- The Stack rows, each written out bit by bit from opcode_table.json, operand bytes low byte first (R63, R90). -/
theorem test_decode_Stack : allDecode
    [
    ([0b01001000], .pha), ([0b00001000], .php), ([0b01101000], .pla), ([0b00101000], .plp),
    ([0b00100000, 0x34, 0x92], .jsr 0x9234), ([0b01100000], .rts), ([0b01000000], .rti), ([0b00000000], .brk)] = true := by decide +kernel

/-- The StoreTransfer rows, each written out bit by bit from opcode_table.json, operand bytes low byte first (R63, R90). -/
theorem test_decode_StoreTransfer : allDecode
    [
    ([0b10000001, 0x9C], .staIndX 0x9C), ([0b10000101, 0x9C], .staZp 0x9C), ([0b10001101, 0x34, 0x92], .staAbs 0x9234),
    ([0b10010001, 0x9C], .staIndY 0x9C), ([0b10010101, 0x9C], .staZpX 0x9C), ([0b10011001, 0x34, 0x92], .staAbsY 0x9234),
    ([0b10011101, 0x34, 0x92], .staAbsX 0x9234), ([0b10000110, 0x9C], .stxZp 0x9C),
    ([0b10001110, 0x34, 0x92], .stxAbs 0x9234), ([0b10010110, 0x9C], .stxZpY 0x9C), ([0b10000100, 0x9C], .styZp 0x9C),
    ([0b10001100, 0x34, 0x92], .styAbs 0x9234), ([0b10010100, 0x9C], .styZpX 0x9C), ([0b10101010], .tax),
    ([0b10101000], .tay), ([0b10001010], .txa), ([0b10011000], .tya), ([0b10111010], .tsx), ([0b10011010], .txs),
    ([0b11101010], .nop)] = true := by decide +kernel

/-- Under `source_one_byte` Absolute,X and Absolute,Y take one address byte; JMP, JSR and Absolute still take two (R94). -/
theorem test_decode_source_one_byte :
    decoded .sourceOneByte [0xBD, 0x9C, 0xEA] = some (.ldaAbsX 0x009C, [0xEA]) ∧
    decoded .sourceOneByte [0xBE, 0x9C] = some (.ldxAbsY 0x009C, []) ∧
    decoded .sourceOneByte [0xAD, 0x34, 0x92] = some (.ldaAbs 0x9234, []) := by decide

/-- Bytes that are no instruction: none, an illegal opcode (R102), a missing operand byte. -/
theorem test_decode_refuses :
    decode .twoByte [] = .error .empty ∧ decode .twoByte [0x02] = .error (.illegal 0x02) ∧
    decode .twoByte [0xAD, 0x34] = .error (.truncated 0xAD) := ⟨rfl, rfl, rfl⟩

/-- A table word has the opcode in bits 7..0; operand bits above `nbits` are 0. -/
theorem test_decode_table_word :
    decodeTableWord 8 0xEA = some .nop ∧ decodeTableWord 16 0x9CA9 = some (.ldaImm 0x9C) ∧
    decodeTableWord 24 0x92344C = some (.jmpAbs 0x9234) ∧ decodeTableWord 8 0xFFFFAD = some (.ldaAbs 0) ∧
    decodeTableWord 8 0x02 = none := by decide

/-! ### Single dispatches (95_test_vectors.md) -/

/-- A start state of 95_test_vectors.md: registers 0 unless given, the instruction at `pc`, further bytes as cells. -/
def start (pc : Addr) (bytes : List Byte) (cells : List (Addr × Byte)) (a : Byte := 0) (x : Byte := 0) (y : Byte := 0)
    (sp : Byte := 0) (p : Byte := 0) (cfg : Config := Config.default) (map : List Region := []) : State :=
  let bus := cells.foldl (fun b c => b.stored c.1 c.2) (placeBytes pc bytes Bus.initial)
  { pc := pc, sp := sp, a := a, x := x, y := y, p := p, cfg := cfg, bus := { bus with map := map } }

/-- What a vector states of the end of a dispatch: the result, `pc`, A X Y SP P, and the bytes at some addresses. -/
def seen (cells : List Addr) (r : Result) : Option (DispatchResult × Addr × List Byte × List Byte) :=
  let view (res : DispatchResult) (t : State) := (res, t.pc, [t.a, t.x, t.y, t.sp, t.p], cells.map t.peek)
  match r with
  | .next t => some (view .ok t)
  | .fault f => some (view f.report f.left)
  | .refused _ => none

/-- The word placed for the next fetch is what the next step runs, also from reset. -/
theorem test_withFetchWord : seen [] (step (State.reset.withFetchWord 16 0x05A9)) =
    some (.ok, 0x0002, [0x05, 0x00, 0x00, 0x00, 0x00], []) := by decide

/-- Property 1 of 95_test_vectors.md at its two ends: index 0 is bit 7, index 7 is bit 0 (R28). -/
theorem test_set_flag : setFlag 0x00 0 true = 0x80 ∧ setFlag 0xFF 7 false = 0xFE ∧ setFlag 0xFF 3 false = 0xEF := by decide

/-- 30_encoding.md R121: the offset of `BNE loop` in program P2; and the ends of the range. -/
theorem test_branchOffset : branchOffset 0x0003 0x0002 = some 0xFE ∧ branchOffset 0x0300 0x0380 = some 0x7F ∧
    branchOffset 0x0300 0x0381 = none ∧ branchOffset 0x0300 0x0281 = some 0x80 ∧ branchOffset 0x0300 0x0280 = none := by decide

/-- 30_encoding.md R120: operand syntax by mode. -/
theorem test_assembler : asmInstr .twoByte (.ldaIndX 0x0F) = "LDA ($0F,X)" ∧ asmInstr .twoByte (.jmpInd 0x12FF) = "JMP ($12FF)" ∧
    asmInstr .twoByte (.ldaImm 0x05) = "LDA #$05" ∧ asmInstr .twoByte .aslA = "ASL A" := by decide

/-- R122: `ASL` alone is `ASL A`; `INX` is itself; `LDA` alone is nothing. -/
theorem test_assembler_bare : asmBare .ASL = some .aslA ∧ asmBare .ROR = some .rorA ∧ asmBare .INX = some .inx ∧
    asmBare .LDA = none := by decide

/-- 70_reset_and_hazards.md R276: a run ends at STOP_PC before the dispatch there, and at FUEL. -/
theorem test_run_ends : (runUntil (some 0x0001) 9 (start 0x0000 [0xE8, 0x02] [])).map Prod.fst = some .stopPc ∧
    (runUntil none 1 (start 0x0000 [0xE8, 0x02] [])).map Prod.fst = some .fuel ∧
    (runUntil none 9 (start 0x0000 [0xE8, 0x02] [])).map Prod.fst = some (.error (.illegalOpcode 0x02)) := by decide

/-- E1 (R93): LDA zp,X wraps in page 0 (§8 example). -/
theorem test_E1 : seen [] (step (start 0x0200 [0xB5, 0xFF] [(0x0001, 0x5A)] (x := 0x02))) =
    some (.ok, 0x0202, [0x5A, 0x02, 0x00, 0x00, 0x00], []) := by decide

/-- E3 (R94): LDA abs,X, two_byte, 16-bit wrap. -/
theorem test_E3 : seen [] (step (start 0x0200 [0xBD, 0xFF, 0xFF] [(0x0000, 0x22)] (x := 0x01))) =
    some (.ok, 0x0203, [0x22, 0x01, 0x00, 0x00, 0x00], []) := by decide

/-- E4 (R94): LDA abs,X, source_one_byte: 2 bytes, no wrap. -/
theorem test_E4 : seen [] (step (start 0x0200 [0xBD, 0xFF] [(0x0101, 0x33)] (x := 0x02) (cfg := { Config.default with absIndexed := .sourceOneByte }))) =
    some (.ok, 0x0202, [0x33, 0x02, 0x00, 0x00, 0x00], []) := by decide

/-- E5 (R95): LDA (zp,X), little_endian, both pointer reads wrap. -/
theorem test_E5 : seen [] (step (start 0x0200 [0xA1, 0xFF] [(0x0000, 0x34), (0x0001, 0x12), (0x1234, 0x77), (0x4600, 0x99)] (x := 0x01))) =
    some (.ok, 0x0202, [0x77, 0x01, 0x00, 0x00, 0x00], []) := by decide

/-- E6 (R95): LDA (zp,X), source_sum. -/
theorem test_E6 : seen [] (step (start 0x0200 [0xA1, 0xFF] [(0x0000, 0x34), (0x0001, 0x12), (0x1234, 0x77), (0x4600, 0x99)] (x := 0x01) (cfg := { Config.default with indirectCombine := .sourceSum }))) =
    some (.ok, 0x0202, [0x99, 0x01, 0x00, 0x00, 0x80], []) := by decide

/-- E7 (R96): LDA (zp),Y, little_endian, 16-bit wrap to 0x0010. -/
theorem test_E7 : seen [] (step (start 0x0200 [0xB1, 0x10] [(0x0010, 0xF0), (0x0011, 0xFF), (0xEF20, 0x01)] (y := 0x20))) =
    some (.ok, 0x0202, [0xF0, 0x00, 0x20, 0x00, 0x80], []) := by decide

/-- E8 (R96): LDA (zp),Y, source_sum, 0xEF20. -/
theorem test_E8 : seen [] (step (start 0x0200 [0xB1, 0x10] [(0x0010, 0xF0), (0x0011, 0xFF), (0xEF20, 0x01)] (y := 0x20) (cfg := { Config.default with indirectCombine := .sourceSum }))) =
    some (.ok, 0x0202, [0x01, 0x00, 0x20, 0x00, 0x00], []) := by decide

/-- E9 (R97): JMP (ind), pointer page wrap. -/
theorem test_E9 : seen [] (step (start 0x0200 [0x6C, 0xFF, 0x12] [(0x1200, 0x12), (0x12FF, 0x34), (0x1300, 0x56)])) =
    some (.ok, 0x1234, [0x00, 0x00, 0x00, 0x00, 0x00], []) := by decide

/-- E10 (R92): Relative: offset byte at 0x8000, offset 0xFF (§8). -/
theorem test_E10 : seen [] (step (start 0x7FFF [0xD0, 0xFF] [])) =
    some (.ok, 0x7FFF, [0x00, 0x00, 0x00, 0x00, 0x00], []) := by decide

/-- E11 (R82): Operand fetch fails: pc stays at the failing byte. -/
theorem test_E11 : seen [] (step (start 0x0200 [0xA9] [] (a := 0x11) (map := [⟨0x0201, 1, .writeOnly⟩]))) =
    some (.busError 0x0201 .read, 0x0201, [0x11, 0x00, 0x00, 0x00, 0x00], []) := by decide

/-- E12 (R83): Opcode fetch fails. -/
theorem test_E12 : seen [] (step (start 0x0300 [] [] (map := [⟨0x0300, 1, .writeOnly⟩]))) =
    some (.busError 0x0300 .read, 0x0300, [0x00, 0x00, 0x00, 0x00, 0x00], []) := by decide

/-- E13 (R103): Illegal opcode 0x02. -/
theorem test_E13 : seen [] (step (start 0x0200 [0x02] [])) =
    some (.illegalOpcode 0x02, 0x0201, [0x00, 0x00, 0x00, 0x00, 0x00], []) := by decide

/-- E15 (R24): pc wraps: NOP at 0xFFFF. -/
theorem test_E15 : seen [] (step (start 0xFFFF [0xEA] [])) =
    some (.ok, 0x0000, [0x00, 0x00, 0x00, 0x00, 0x00], []) := by decide

/-- LD3 (R131): LDA #0x7F (§8). -/
theorem test_LD3 : seen [] (step (start 0x0200 [0xA9, 0x7F] [] (p := 0x82))) =
    some (.ok, 0x0202, [0x7F, 0x00, 0x00, 0x00, 0x00], []) := by decide

/-- LD4 (R132): LDX zp,Y wraps. -/
theorem test_LD4 : seen [] (step (start 0x0200 [0xB6, 0xFF] [(0x0001, 0x80)] (y := 0x02))) =
    some (.ok, 0x0202, [0x00, 0x80, 0x02, 0x00, 0x80], []) := by decide

/-- LD5 (R133): LDY abs,X. -/
theorem test_LD5 : seen [] (step (start 0x0200 [0xBC, 0x00, 0x10] [(0x1010, 0x01)] (x := 0x10))) =
    some (.ok, 0x0203, [0x00, 0x10, 0x01, 0x00, 0x00], []) := by decide

/-- LD6 (R131): LDA abs of 0x00. -/
theorem test_LD6 : seen [] (step (start 0x0200 [0xAD, 0x34, 0x12] [] (a := 0x44))) =
    some (.ok, 0x0203, [0x00, 0x00, 0x00, 0x00, 0x02], []) := by decide

/-- LD7 (R131): LDA abs, operand read fails: A and P unchanged. -/
theorem test_LD7 : seen [] (step (start 0x0200 [0xAD, 0x00, 0x90] [] (a := 0x11) (p := 0x01) (map := [⟨0x9000, 1, .writeOnly⟩]))) =
    some (.busError 0x9000 .read, 0x0203, [0x11, 0x00, 0x00, 0x00, 0x01], []) := by decide

/-- ID1 (R140): INC zp of 0xFF (§8). -/
theorem test_ID1 : seen [0x0010] (step (start 0x0200 [0xE6, 0x10] [(0x0010, 0xFF)])) =
    some (.ok, 0x0202, [0x00, 0x00, 0x00, 0x00, 0x02], [0x00]) := by decide

/-- ID2 (R141): DEC zp of 0x00. -/
theorem test_ID2 : seen [0x0010] (step (start 0x0200 [0xC6, 0x10] [(0x0010, 0x00)])) =
    some (.ok, 0x0202, [0x00, 0x00, 0x00, 0x00, 0x80], [0xFF]) := by decide

/-- ID3 (R142): INX from 0xFF. -/
theorem test_ID3 : seen [] (step (start 0x0200 [0xE8] [] (x := 0xFF))) =
    some (.ok, 0x0201, [0x00, 0x00, 0x00, 0x00, 0x02], []) := by decide

/-- ID4 (R144): DEX from 0x00 (§8). -/
theorem test_ID4 : seen [] (step (start 0x0200 [0xCA] [])) =
    some (.ok, 0x0201, [0x00, 0xFF, 0x00, 0x00, 0x80], []) := by decide

/-- ID5 (R143): INY from 0x7F. -/
theorem test_ID5 : seen [] (step (start 0x0200 [0xC8] [] (y := 0x7F))) =
    some (.ok, 0x0201, [0x00, 0x00, 0x80, 0x00, 0x80], []) := by decide

/-- ID6 (R145): DEY from 0x01. -/
theorem test_ID6 : seen [] (step (start 0x0200 [0x88] [] (y := 0x01))) =
    some (.ok, 0x0201, [0x00, 0x00, 0x00, 0x00, 0x02], []) := by decide

/-- ID7 (R140): INC abs,X. -/
theorem test_ID7 : seen [0x3002] (step (start 0x0200 [0xFE, 0x00, 0x30] [(0x3002, 0x7F)] (x := 0x02))) =
    some (.ok, 0x0203, [0x00, 0x02, 0x00, 0x00, 0x80], [0x80]) := by decide

/-- ID8 (R141): DEC abs, write fails: memory and P unchanged. -/
theorem test_ID8 : seen [] (step (start 0x0200 [0xCE, 0x00, 0x30] [(0x3000, 0x01)] (p := 0x80) (map := [⟨0x3000, 1, .rom⟩]))) =
    some (.busError 0x3000 .write, 0x0203, [0x00, 0x00, 0x00, 0x00, 0x80], []) := by decide

/-- FG1 (R151): SEC. -/
theorem test_FG1 : seen [] (step (start 0x0200 [0x38] [])) =
    some (.ok, 0x0201, [0x00, 0x00, 0x00, 0x00, 0x01], []) := by decide

/-- FG2 (R154): CLC. -/
theorem test_FG2 : seen [] (step (start 0x0200 [0x18] [] (p := 0xFF))) =
    some (.ok, 0x0201, [0x00, 0x00, 0x00, 0x00, 0xFE], []) := by decide

/-- FG3 (R152): SED. -/
theorem test_FG3 : seen [] (step (start 0x0200 [0xF8] [])) =
    some (.ok, 0x0201, [0x00, 0x00, 0x00, 0x00, 0x08], []) := by decide

/-- FG4 (R155): CLD. -/
theorem test_FG4 : seen [] (step (start 0x0200 [0xD8] [] (p := 0x08))) =
    some (.ok, 0x0201, [0x00, 0x00, 0x00, 0x00, 0x00], []) := by decide

/-- FG5 (R153): SEI. -/
theorem test_FG5 : seen [] (step (start 0x0200 [0x78] [])) =
    some (.ok, 0x0201, [0x00, 0x00, 0x00, 0x00, 0x04], []) := by decide

/-- FG6 (R156): CLI. -/
theorem test_FG6 : seen [] (step (start 0x0200 [0x58] [] (p := 0x04))) =
    some (.ok, 0x0201, [0x00, 0x00, 0x00, 0x00, 0x00], []) := by decide

/-- FG7 (R157): CLV. -/
theorem test_FG7 : seen [] (step (start 0x0200 [0xB8] [] (p := 0xC3))) =
    some (.ok, 0x0201, [0x00, 0x00, 0x00, 0x00, 0x83], []) := by decide

/-- AR3 (R161): ADC: carry and overflow together. -/
theorem test_AR3 : seen [] (step (start 0x0200 [0x69, 0x80] [] (a := 0x80))) =
    some (.ok, 0x0202, [0x00, 0x00, 0x00, 0x00, 0x43], []) := by decide

/-- AR6 (R161): ADC with D = 1 stays binary. -/
theorem test_AR6 : seen [] (step (start 0x0200 [0x69, 0x01] [] (a := 0x09) (p := 0x08))) =
    some (.ok, 0x0202, [0x0A, 0x00, 0x00, 0x00, 0x08], []) := by decide

/-- AR8 (R162): SBC: signed overflow. -/
theorem test_AR8 : seen [] (step (start 0x0200 [0xE9, 0x01] [] (a := 0x80) (p := 0x01))) =
    some (.ok, 0x0202, [0x7F, 0x00, 0x00, 0x00, 0x41], []) := by decide

/-- AR10 (R162): SBC with borrow in (C = 0). -/
theorem test_AR10 : seen [] (step (start 0x0200 [0xE9, 0x05] [] (a := 0x05))) =
    some (.ok, 0x0202, [0xFF, 0x00, 0x00, 0x00, 0x80], []) := by decide

/-- AR12 (R161): ADC zp with carry in. -/
theorem test_AR12 : seen [] (step (start 0x0200 [0x65, 0x10] [(0x0010, 0x01)] (a := 0x01) (p := 0x01))) =
    some (.ok, 0x0202, [0x03, 0x00, 0x00, 0x00, 0x00], []) := by decide

/-- LG2 (R165): AND # 0x00 gives Z. -/
theorem test_LG2 : seen [] (step (start 0x0200 [0x29, 0x00] [] (a := 0xFF))) =
    some (.ok, 0x0202, [0x00, 0x00, 0x00, 0x00, 0x02], []) := by decide

/-- LG3 (R166): ORA #. -/
theorem test_LG3 : seen [] (step (start 0x0200 [0x09, 0x80] [] (a := 0x0F))) =
    some (.ok, 0x0202, [0x8F, 0x00, 0x00, 0x00, 0x80], []) := by decide

/-- LG4 (R167): EOR #. -/
theorem test_LG4 : seen [] (step (start 0x0200 [0x49, 0x0F] [] (a := 0xFF))) =
    some (.ok, 0x0202, [0xF0, 0x00, 0x00, 0x00, 0x80], []) := by decide

/-- LG5 (R167): EOR with itself. -/
theorem test_LG5 : seen [] (step (start 0x0200 [0x49, 0xAA] [] (a := 0xAA))) =
    some (.ok, 0x0202, [0x00, 0x00, 0x00, 0x00, 0x02], []) := by decide

/-- LG6 (R165): AND abs, read fails. -/
theorem test_LG6 : seen [] (step (start 0x0200 [0x2D, 0x00, 0x20] [] (a := 0xFF) (map := [⟨0x2000, 1, .writeOnly⟩]))) =
    some (.busError 0x2000 .read, 0x0203, [0xFF, 0x00, 0x00, 0x00, 0x00], []) := by decide

/-- LG7 (R166): ORA keeps C and V. -/
theorem test_LG7 : seen [] (step (start 0x0200 [0x09, 0x00] [] (a := 0x00) (p := 0x41))) =
    some (.ok, 0x0202, [0x00, 0x00, 0x00, 0x00, 0x43], []) := by decide

/-- SH2 (R171): ASL A of 0x80. -/
theorem test_SH2 : seen [] (step (start 0x0200 [0x0A] [] (a := 0x80))) =
    some (.ok, 0x0201, [0x00, 0x00, 0x00, 0x00, 0x03], []) := by decide

/-- SH3 (R172): LSR zp. -/
theorem test_SH3 : seen [0x0020] (step (start 0x0200 [0x46, 0x20] [(0x0020, 0x02)])) =
    some (.ok, 0x0202, [0x00, 0x00, 0x00, 0x00, 0x00], [0x01]) := by decide

/-- SH4 (R172): LSR A of 0x01. -/
theorem test_SH4 : seen [] (step (start 0x0200 [0x4A] [] (a := 0x01))) =
    some (.ok, 0x0201, [0x00, 0x00, 0x00, 0x00, 0x03], []) := by decide

/-- SH5 (R173): ROL A with C = 1. -/
theorem test_SH5 : seen [] (step (start 0x0200 [0x2A] [] (a := 0x40) (p := 0x01))) =
    some (.ok, 0x0201, [0x81, 0x00, 0x00, 0x00, 0x80], []) := by decide

/-- SH6 (R173): ROL A of 0x80 with C = 0. -/
theorem test_SH6 : seen [] (step (start 0x0200 [0x2A] [] (a := 0x80))) =
    some (.ok, 0x0201, [0x00, 0x00, 0x00, 0x00, 0x03], []) := by decide

/-- SH7 (R174): ROR A with C = 1. -/
theorem test_SH7 : seen [] (step (start 0x0200 [0x6A] [] (a := 0x03) (p := 0x01))) =
    some (.ok, 0x0201, [0x81, 0x00, 0x00, 0x00, 0x81], []) := by decide

/-- SH8 (R174): ROR zp of 0x00 with C = 1. -/
theorem test_SH8 : seen [0x0020] (step (start 0x0200 [0x66, 0x20] [(0x0020, 0x00)] (p := 0x01))) =
    some (.ok, 0x0202, [0x00, 0x00, 0x00, 0x00, 0x80], [0x80]) := by decide

/-- SH9 (R171): ASL abs, write fails: memory and P unchanged. -/
theorem test_SH9 : seen [] (step (start 0x0200 [0x0E, 0x00, 0x30] [(0x3000, 0x80)] (map := [⟨0x3000, 1, .rom⟩]))) =
    some (.busError 0x3000 .write, 0x0203, [0x00, 0x00, 0x00, 0x00, 0x00], []) := by decide

/-- SH10 (R173): ROL abs,X. -/
theorem test_SH10 : seen [0x0100] (step (start 0x0200 [0x3E, 0xFF, 0x00] [(0x0100, 0x01)] (x := 0x01))) =
    some (.ok, 0x0203, [0x00, 0x01, 0x00, 0x00, 0x00], [0x02]) := by decide

/-- CP2 (R181): CMP less. -/
theorem test_CP2 : seen [] (step (start 0x0200 [0xC9, 0x20] [] (a := 0x10))) =
    some (.ok, 0x0202, [0x10, 0x00, 0x00, 0x00, 0x80], []) := by decide

/-- CP5 (R182): CPX 0x00 against 0xFF. -/
theorem test_CP5 : seen [] (step (start 0x0200 [0xE0, 0xFF] [])) =
    some (.ok, 0x0202, [0x00, 0x00, 0x00, 0x00, 0x00], []) := by decide

/-- CP6 (R183): CPY 0x00 against 0x80. -/
theorem test_CP6 : seen [] (step (start 0x0200 [0xC0, 0x80] [])) =
    some (.ok, 0x0202, [0x00, 0x00, 0x00, 0x00, 0x80], []) := by decide

/-- CP7 (R181): CMP keeps V. -/
theorem test_CP7 : seen [] (step (start 0x0200 [0xC9, 0x00] [] (p := 0x40))) =
    some (.ok, 0x0202, [0x00, 0x00, 0x00, 0x00, 0x43], []) := by decide

/-- BT1 (R184): BIT zp. -/
theorem test_BT1 : seen [] (step (start 0x0200 [0x24, 0x10] [(0x0010, 0x41)] (a := 0x01))) =
    some (.ok, 0x0202, [0x01, 0x00, 0x00, 0x00, 0x40], []) := by decide

/-- BT2 (R184): BIT abs: N and V from M, Z from A & M. -/
theorem test_BT2 : seen [] (step (start 0x0200 [0x2C, 0x00, 0x20] [(0x2000, 0xC0)] (a := 0x3F))) =
    some (.ok, 0x0203, [0x3F, 0x00, 0x00, 0x00, 0xC2], []) := by decide

/-- BT3 (R184): BIT clears N and V. -/
theorem test_BT3 : seen [] (step (start 0x0200 [0x24, 0x10] [(0x0010, 0x00)] (a := 0xFF) (p := 0xC0))) =
    some (.ok, 0x0202, [0xFF, 0x00, 0x00, 0x00, 0x02], []) := by decide

/-- BR1 (R191): BPL taken, backwards. -/
theorem test_BR1 : seen [] (step (start 0x0300 [0x10, 0xFE] [])) =
    some (.ok, 0x02FF, [0x00, 0x00, 0x00, 0x00, 0x00], []) := by decide

/-- BR2 (R192): BMI taken. -/
theorem test_BR2 : seen [] (step (start 0x0300 [0x30, 0x10] [] (p := 0x80))) =
    some (.ok, 0x0311, [0x00, 0x00, 0x00, 0x00, 0x80], []) := by decide

/-- BR3 (R192): BMI not taken. -/
theorem test_BR3 : seen [] (step (start 0x0300 [0x30, 0x10] [])) =
    some (.ok, 0x0302, [0x00, 0x00, 0x00, 0x00, 0x00], []) := by decide

/-- BR4 (R193): BVC taken. -/
theorem test_BR4 : seen [] (step (start 0x0300 [0x50, 0x04] [])) =
    some (.ok, 0x0305, [0x00, 0x00, 0x00, 0x00, 0x00], []) := by decide

/-- BR5 (R194): BVS not taken. -/
theorem test_BR5 : seen [] (step (start 0x0300 [0x70, 0x04] [])) =
    some (.ok, 0x0302, [0x00, 0x00, 0x00, 0x00, 0x00], []) := by decide

/-- BR6 (R195): BCC taken, wraps below 0x0000. -/
theorem test_BR6 : seen [] (step (start 0x0000 [0x90, 0x80] [])) =
    some (.ok, 0xFF81, [0x00, 0x00, 0x00, 0x00, 0x00], []) := by decide

/-- BR7 (R196): BCS taken, largest forward offset. -/
theorem test_BR7 : seen [] (step (start 0x0300 [0xB0, 0x7F] [] (p := 0x01))) =
    some (.ok, 0x0380, [0x00, 0x00, 0x00, 0x00, 0x01], []) := by decide

/-- BR9 (R198): BEQ to itself. -/
theorem test_BR9 : seen [] (step (start 0x0400 [0xF0, 0xFF] [] (p := 0x02))) =
    some (.ok, 0x0400, [0x00, 0x00, 0x00, 0x00, 0x02], []) := by decide

/-- BR10 (R198): BEQ offset 0x00 targets the offset byte. -/
theorem test_BR10 : seen [] (step (start 0x0300 [0xF0, 0x00] [] (p := 0x02))) =
    some (.ok, 0x0301, [0x00, 0x00, 0x00, 0x00, 0x02], []) := by decide

/-- BR12 (R197): BNE, offset read fails. -/
theorem test_BR12 : seen [] (step (start 0x0300 [0xD0] [] (map := [⟨0x0301, 1, .writeOnly⟩]))) =
    some (.busError 0x0301 .read, 0x0301, [0x00, 0x00, 0x00, 0x00, 0x00], []) := by decide

/-- JP1 (R199): JMP abs. -/
theorem test_JP1 : seen [] (step (start 0x0200 [0x4C, 0x00, 0x80] [])) =
    some (.ok, 0x8000, [0x00, 0x00, 0x00, 0x00, 0x00], []) := by decide

/-- JP2 (R199): JMP (ind). -/
theorem test_JP2 : seen [] (step (start 0x0200 [0x6C, 0x00, 0x20] [(0x2000, 0x10), (0x2001, 0x40)])) =
    some (.ok, 0x4010, [0x00, 0x00, 0x00, 0x00, 0x00], []) := by decide

/-- ST2 (R200): PHA with SP = 0x00 wraps. -/
theorem test_ST2 : seen [0x0100] (step (start 0x0200 [0x48] [] (a := 0x42))) =
    some (.ok, 0x0201, [0x42, 0x00, 0x00, 0xFF, 0x00], [0x42]) := by decide

/-- ST3 (R201): PHP sets bits 5 and 4 in the copy. -/
theorem test_ST3 : seen [0x01FF] (step (start 0x0200 [0x08] [] (sp := 0xFF) (p := 0x81))) =
    some (.ok, 0x0201, [0x00, 0x00, 0x00, 0xFE, 0x81], [0xB1]) := by decide

/-- ST6 (R202): PLA with SP = 0xFF wraps. -/
theorem test_ST6 : seen [] (step (start 0x0200 [0x68] [(0x0100, 0x00)] (a := 0x05) (sp := 0xFF))) =
    some (.ok, 0x0201, [0x00, 0x00, 0x00, 0x00, 0x02], []) := by decide

/-- ST8 (R203): PLP of 0xFF keeps U and B. -/
theorem test_ST8 : seen [] (step (start 0x0200 [0x28] [(0x01FF, 0xFF)] (sp := 0xFE))) =
    some (.ok, 0x0201, [0x00, 0x00, 0x00, 0xFF, 0xCF], []) := by decide

/-- ST9 (R204): JSR with SP = 0x00. -/
theorem test_ST9 : seen [0x0100, 0x01FF] (step (start 0x0002 [0x20, 0x10, 0x00] [(0x0100, 0xEE), (0x01FF, 0xEE)])) =
    some (.ok, 0x0010, [0x00, 0x00, 0x00, 0xFE, 0x00], [0x00, 0x04]) := by decide

/-- ST10 (R205): RTS. -/
theorem test_ST10 : seen [] (step (start 0x0010 [0x60] [(0x0100, 0x00), (0x01FF, 0x04)] (sp := 0xFE))) =
    some (.ok, 0x0005, [0x00, 0x00, 0x00, 0x00, 0x00], []) := by decide

/-- ST11 (R205): RTS of 0xFFFF wraps to 0x0000. -/
theorem test_ST11 : seen [] (step (start 0x0010 [0x60] [(0x01FE, 0xFF), (0x01FF, 0xFF)] (sp := 0xFD))) =
    some (.ok, 0x0000, [0x00, 0x00, 0x00, 0xFF, 0x00], []) := by decide

/-- ST12 (R206): RTI. -/
theorem test_ST12 : seen [] (step (start 0x0300 [0x40] [(0x01FD, 0x30), (0x01FE, 0x02), (0x01FF, 0x02)] (sp := 0xFC) (p := 0x04))) =
    some (.ok, 0x0202, [0x00, 0x00, 0x00, 0xFF, 0x00], []) := by decide

/-- ST14 (R207): BRK with flags set. -/
theorem test_ST14 : seen [0x01FD, 0x01FE, 0x01FF] (step (start 0x0200 [0x00] [(0xFFFE, 0x00), (0xFFFF, 0x03)] (sp := 0xFF) (p := 0xC3))) =
    some (.ok, 0x0300, [0x00, 0x00, 0x00, 0xFC, 0xC7], [0xF3, 0x02, 0x02]) := by decide

/-- ST15 (R204): JSR, second push fails. -/
theorem test_ST15 : seen [0x0100] (step (start 0x0200 [0x20, 0x10, 0x00] [(0x0100, 0xEE)] (map := [⟨0x01FF, 1, .rom⟩]))) =
    some (.busError 0x01FF .write, 0x0203, [0x00, 0x00, 0x00, 0xFF, 0x00], [0x02]) := by decide

/-- ST16 (R207): BRK, vector read fails. -/
theorem test_ST16 : seen [0x01FD, 0x01FE, 0x01FF] (step (start 0x0200 [0x00] [] (sp := 0xFF) (map := [⟨0xFFFE, 1, .writeOnly⟩]))) =
    some (.busError 0xFFFE .read, 0x0201, [0x00, 0x00, 0x00, 0xFC, 0x04], [0x30, 0x02, 0x02]) := by decide

/-- ST17 (R202): PLA, read fails: SP stays incremented. -/
theorem test_ST17 : seen [] (step (start 0x0200 [0x68] [] (a := 0x05) (sp := 0xFE) (map := [⟨0x01FF, 1, .writeOnly⟩]))) =
    some (.busError 0x01FF .read, 0x0201, [0x05, 0x00, 0x00, 0xFF, 0x00], []) := by decide

/-- ST18 (R200): PHA with STACK_PAGE = 0x02. -/
theorem test_ST18 : seen [0x02FF] (step (start 0x0300 [0x48] [] (a := 0x42) (sp := 0xFF) (cfg := { Config.default with stackPage := 2 }))) =
    some (.ok, 0x0301, [0x42, 0x00, 0x00, 0xFE, 0x00], [0x42]) := by decide

/-- SX1 (R210): STA zp. -/
theorem test_SX1 : seen [0x0020] (step (start 0x0200 [0x85, 0x20] [] (a := 0x01))) =
    some (.ok, 0x0202, [0x01, 0x00, 0x00, 0x00, 0x00], [0x01]) := by decide

/-- SX2 (R210): STA (zp),Y. -/
theorem test_SX2 : seen [0x3002] (step (start 0x0200 [0x91, 0x10] [(0x0011, 0x30)] (a := 0x77) (y := 0x02))) =
    some (.ok, 0x0202, [0x77, 0x00, 0x02, 0x00, 0x00], [0x77]) := by decide

/-- SX3 (R211): STX zp,Y wraps. -/
theorem test_SX3 : seen [0x0001] (step (start 0x0200 [0x96, 0xFF] [] (x := 0xAB) (y := 0x02))) =
    some (.ok, 0x0202, [0x00, 0xAB, 0x02, 0x00, 0x00], [0xAB]) := by decide

/-- SX4 (R212): STY zp,X wraps. -/
theorem test_SX4 : seen [0x0001] (step (start 0x0200 [0x94, 0xFF] [] (x := 0x02) (y := 0xCD))) =
    some (.ok, 0x0202, [0x00, 0x02, 0xCD, 0x00, 0x00], [0xCD]) := by decide

/-- SX5 (R212): STY abs. -/
theorem test_SX5 : seen [0x3000] (step (start 0x0200 [0x8C, 0x00, 0x30] [] (y := 0x5A))) =
    some (.ok, 0x0203, [0x00, 0x00, 0x5A, 0x00, 0x00], [0x5A]) := by decide

/-- SX6 (R213): TAX. -/
theorem test_SX6 : seen [] (step (start 0x0200 [0xAA] [] (a := 0x80))) =
    some (.ok, 0x0201, [0x80, 0x80, 0x00, 0x00, 0x80], []) := by decide

/-- SX7 (R214): TAY of 0x00. -/
theorem test_SX7 : seen [] (step (start 0x0200 [0xA8] [] (y := 0x05))) =
    some (.ok, 0x0201, [0x00, 0x00, 0x00, 0x00, 0x02], []) := by decide

/-- SX8 (R215): TXA. -/
theorem test_SX8 : seen [] (step (start 0x0200 [0x8A] [] (x := 0x7F) (p := 0x82))) =
    some (.ok, 0x0201, [0x7F, 0x7F, 0x00, 0x00, 0x00], []) := by decide

/-- SX9 (R216): TYA. -/
theorem test_SX9 : seen [] (step (start 0x0200 [0x98] [] (y := 0xFF))) =
    some (.ok, 0x0201, [0xFF, 0x00, 0xFF, 0x00, 0x80], []) := by decide

/-- SX10 (R217): TSX of 0x00. -/
theorem test_SX10 : seen [] (step (start 0x0200 [0xBA] [] (x := 0x09))) =
    some (.ok, 0x0201, [0x00, 0x00, 0x00, 0x00, 0x02], []) := by decide

/-- SX11 (R218): TXS writes no flag. -/
theorem test_SX11 : seen [] (step (start 0x0200 [0x9A] [] (p := 0x80))) =
    some (.ok, 0x0201, [0x00, 0x00, 0x00, 0x00, 0x80], []) := by decide

/-- SX12 (R219): NOP. -/
theorem test_SX12 : seen [] (step (start 0x0200 [0xEA] [] (a := 0x01) (x := 0x02) (y := 0x03) (sp := 0x04) (p := 0x05))) =
    some (.ok, 0x0201, [0x01, 0x02, 0x03, 0x04, 0x05], []) := by decide

/-- SX13 (R210): STA abs, write fails. -/
theorem test_SX13 : seen [] (step (start 0x0200 [0x8D, 0x00, 0x90] [] (a := 0x42) (map := [⟨0x9000, 1, .rom⟩]))) =
    some (.busError 0x9000 .write, 0x0203, [0x42, 0x00, 0x00, 0x00, 0x00], []) := by decide


/-! ### Witnesses: every hypothesis of the statements is met, each clause by a state or operand at the edge of its range -/

/-- RAM with a program byte pair at 0x0200 and a pointer that wraps in the zero page: 0x00FF, 0x0000. -/
def w0 : State := start 0x0200 [0xE6, 0x10] [(0x0010, 0x80), (0x00FF, 0x34), (0x0000, 0x12)] (a := 0x80) (x := 0xFF) (y := 0x01)
  (sp := 0x00) (p := 0x81)

/-- The same with one address mapped as `k`. -/
def wAt (a : Nat) (k : RegionKind) (pc : Addr := 0x0200) (sp : Byte := 0x00) : State :=
  start pc [0xE6, 0x10] [] (a := 0x80) (sp := sp) (p := 0x81) (map := [⟨a, 1, k⟩])

theorem witness_EncodedInstructionDecodesBack :
    (Instr.staAbsX 0x00FF).wf .sourceOneByte = true ∧ (Instr.staAbsX 0xFFFF).wf .twoByte = true := by decide

theorem witness_DecodedBytesAreTheEncoding :
    decode .sourceOneByte [0xBD, 0xFF, 0x60] = .ok (.ldaAbsX 0x00FF, [0x60]) := rfl

theorem witness_LengthAndResolverReadsByMode :
    (∃ s t, s.cfg.absIndexed = .twoByte ∧ fetchInstr s = .ok (.incZp 0x10) t) ∧
    (∃ s r t, (Instr.ldaIndX 0xFF).operand = some (.mem (.indX 0xFF)) ∧ resolve (.mem (.indX 0xFF)) s = .ok r t) :=
  ⟨⟨w0, _, rfl, rfl⟩, ⟨w0, _, _, rfl, rfl⟩⟩

theorem witness_IllegalOpcodeEndsTheDispatch :
    ∃ b, (start 0xFFFF [0xFF] []).bus.read 0xFFFF = some (0xFF, b) ∧ decodeTable 0xFF = .illegal := ⟨_, rfl, rfl⟩

theorem witness_StepRunsTheDecodedInstruction :
    (∀ k : Nat, k < (Instr.incZp 0x10).length w0.cfg.absIndexed → w0.bus.Readable (w0.pc + BitVec.ofNat 16 k)) ∧
    decode w0.cfg.absIndexed [w0.peek w0.pc, w0.peek (w0.pc + 1), w0.peek (w0.pc + 2)] = .ok (.incZp 0x10, [0x00]) :=
  ⟨fun _ _ => .inl rfl, rfl⟩

theorem witness_FetchReadsThenIncrements :
    (∃ v b, (start 0xFFFF [0xEA] []).bus.read 0xFFFF = some (v, b)) ∧ (wAt 0x0200 .unmapped).bus.read 0x0200 = none ∧
    (decodeTable 0xE6 = .row .INC .zp ∧ Mode.zp ≠ .imp ∧ Mode.zp ≠ .acc ∧
      ∃ b1, (wAt 0x0201 .unmapped).bus.read 0x0200 = some (0xE6, b1) ∧ b1.read 0x0201 = none) ∧
    (decodeTable 0xBD = .row .LDA .absX ∧ State.reset.cfg.absIndexed = .twoByte ∧
      ∃ b1 b2, (start 0xFFFE [0xBD, 0x34] [] (map := [⟨0x0000, 1, .unmapped⟩])).bus.read 0xFFFE = some (0xBD, b1) ∧
        b1.read 0xFFFF = some (0x34, b2) ∧ b2.read 0x0000 = none) :=
  ⟨⟨_, _, rfl⟩, rfl, ⟨rfl, by decide, by decide, _, rfl, rfl⟩, ⟨rfl, rfl, _, _, rfl, rfl, rfl⟩⟩

theorem witness_ProgramCounterAfterResolution :
    (∃ t o r u, fetchInstr w0 = .ok (.incZp 0x10) t ∧ (Instr.incZp 0x10).operand = some o ∧ resolve o t = .ok r u) ∧
    (∃ t, fetchInstr (wAt 0x0201 .unmapped) = .fail (.busError 0x0201 .read t)) ∧
    (∃ t f, fetchInstr (start 0x0200 [0xA1, 0x10] [] (map := [⟨0x0010, 1, .unmapped⟩])) = .ok (.ldaIndX 0x10) t ∧
      resolve (.mem (.indX 0x10)) t = .fail f) :=
  ⟨⟨_, _, _, _, rfl, rfl, rfl⟩, ⟨_, rfl⟩, ⟨_, _, rfl, rfl⟩⟩

theorem witness_ReferencesReadAndWrite :
    (∃ v b, w0.bus.read 0xFFFF = some (v, b)) ∧ (wAt 0x9000 .unmapped).bus.read 0x9000 = none ∧
    (∃ b, w0.bus.write 0xFFFF 0x00 = some b) ∧ (wAt 0x9000 .rom).bus.write 0x9000 0xFF = none :=
  ⟨⟨_, _, rfl⟩, rfl, ⟨_, rfl⟩, rfl⟩

theorem witness_DirectModesResolve :
    w0.cfg.absIndexed = .twoByte ∧ (start 0 [] [] (cfg := { Config.default with absIndexed := .sourceOneByte })).cfg.absIndexed =
      .sourceOneByte ∧ (0x00FF : Addr).toNat < 256 := by decide

/-- Indirect,X with the pointer at 0x00FF and 0x0000, and Indirect,Y the same; each read failing in turn. -/
theorem witness_IndirectModesReadTheirPointer :
    ((0x00FF : Addr).toNat = ((0x00 : Byte).toNat + w0.x.toNat) % 256 ∧
      (0x0000 : Addr).toNat = ((0x00 : Byte).toNat + w0.x.toNat + 1) % 256 ∧
      ∃ b1 b2 t u, memRead 0x00FF w0 = .ok b1 t ∧ memRead 0x0000 t = .ok b2 u) ∧
    ((0x00FF : Addr).toNat = ((0xFF : Byte).toNat + 0) % 256 ∧ (0x0000 : Addr).toNat = ((0xFF : Byte).toNat + 0 + 1) % 256) ∧
    (∃ f, memRead 0x00FF (wAt 0x00FF .unmapped) = .fail f) ∧
    (∃ b1 t f, memRead 0x00FF (wAt 0x0000 .unmapped) = .ok b1 t ∧ memRead 0x0000 t = .fail f) :=
  ⟨⟨by decide, by decide, _, _, _, _, rfl, rfl⟩, by decide, ⟨_, rfl⟩, ⟨_, _, _, rfl, rfl⟩⟩

theorem witness_ResolvingAndReadingWriteNothing :
    (∃ r t, resolve (.mem (.indY 0xFF)) w0 = .ok r t) ∧
    (∃ f, resolve (.mem (.indY 0xFF)) (wAt 0x0000 .unmapped) = .fail f) ∧
    (∃ v t, readOperand (.mem (.indY 0xFF)) w0 = .ok v t) ∧
    (∃ f, readOperand (.mem (.abs 0x9000)) (wAt 0x9000 .unmapped) = .fail f) :=
  ⟨⟨_, _, rfl⟩, ⟨_, rfl⟩, ⟨_, _, rfl⟩, ⟨_, rfl⟩⟩

theorem witness_FlagInstructionsWriteOneFlag :
    (Instr.clv, Flag.V, false) ∈ ([(.sec, .C, true), (.sed, .D, true), (.sei, .I, true), (.clc, .C, false), (.cld, .D, false),
      (.cli, .I, false), (.clv, .V, false)] : List (Instr × Flag × Bool)) := by decide

/-- The hypotheses of the statements about an instruction that reads its operand and computes. -/
theorem witness_LoadsCopyTheOperandAndSetNZ :
    ((Instr.ldaIndY 0xFF).mnemonic, Reg.A) ∈ ([(.LDA, .A), (.LDX, .X), (.LDY, .Y)] : List (Mnemonic × Reg)) ∧
    (Instr.ldaIndY 0xFF).operand = some (.mem (.indY 0xFF)) ∧
    (∃ v t, readOperand (.mem (.indY 0xFF)) w0 = .ok v t) ∧
    (∃ f, readOperand (.mem (.indY 0xFF)) (wAt 0x0000 .unmapped) = .fail f) :=
  ⟨by decide, rfl, ⟨_, _, rfl⟩, ⟨_, rfl⟩⟩

theorem witness_AdcAddsOperandAndCarry :
    (Instr.adcZp 0x10).mnemonic = .ADC ∧ (Instr.adcZp 0x10).operand = some (.mem (.zp 0x10)) ∧
    (∃ t, readOperand (.mem (.zp 0x10)) w0 = .ok 0x80 t) ∧ (∃ f, readOperand (.mem (.zp 0x10)) (wAt 0x0010 .unmapped) = .fail f) :=
  ⟨rfl, rfl, ⟨_, rfl⟩, ⟨_, rfl⟩⟩

theorem witness_SbcSubtractsOperandAndBorrow :
    (Instr.sbcZp 0x10).mnemonic = .SBC ∧ (Instr.sbcZp 0x10).operand = some (.mem (.zp 0x10)) ∧
    (∃ t, readOperand (.mem (.zp 0x10)) w0 = .ok 0x80 t) ∧ (∃ f, readOperand (.mem (.zp 0x10)) (wAt 0x0010 .unmapped) = .fail f) :=
  ⟨rfl, rfl, ⟨_, rfl⟩, ⟨_, rfl⟩⟩

theorem witness_LogicalInstructionsCombineIntoA :
    (Instr.eorImm 0xFF).mnemonic = .EOR ∧ (Instr.eorImm 0xFF).operand = some (.imm 0xFF) ∧
    (∃ t, readOperand (.imm 0xFF) w0 = .ok 0xFF t) ∧ (Instr.eorZp 0x10).operand = some (.mem (.zp 0x10)) ∧
    (∃ f, readOperand (.mem (.zp 0x10)) (wAt 0x0010 .unmapped) = .fail f) :=
  ⟨rfl, rfl, ⟨_, rfl⟩, rfl, ⟨_, rfl⟩⟩

theorem witness_CompareWritesOnlyCZN :
    ((Instr.cpxImm 0xFF).mnemonic, Reg.X) ∈ ([(.CMP, .A), (.CPX, .X), (.CPY, .Y)] : List (Mnemonic × Reg)) ∧
    (Instr.cpxImm 0xFF).operand = some (.imm 0xFF) ∧ (∃ t, readOperand (.imm 0xFF) w0 = .ok 0xFF t) ∧
    (Instr.cpxZp 0x10).operand = some (.mem (.zp 0x10)) ∧
    (∃ f, readOperand (.mem (.zp 0x10)) (wAt 0x0010 .unmapped) = .fail f) :=
  ⟨by decide, rfl, ⟨_, rfl⟩, rfl, ⟨_, rfl⟩⟩

theorem witness_BitTestReadsTheOperandsHighBits :
    (Instr.bitZp 0x10).mnemonic = .BIT ∧ (Instr.bitZp 0x10).operand = some (.mem (.zp 0x10)) ∧
    (∃ t, readOperand (.mem (.zp 0x10)) w0 = .ok 0x80 t) ∧ (∃ f, readOperand (.mem (.zp 0x10)) (wAt 0x0010 .unmapped) = .fail f) :=
  ⟨rfl, rfl, ⟨_, rfl⟩, ⟨_, rfl⟩⟩

theorem witness_RegisterIncrementsAndDecrements :
    (Instr.dey, Reg.Y, 255) ∈ ([(.inx, .X, 1), (.iny, .Y, 1), (.dex, .X, 255), (.dey, .Y, 255)] : List (Instr × Reg × Nat)) := by
  decide

/-- A read-modify-write at 0x0010: each access completes, and each fails in turn. -/
theorem witness_MemoryIncrementsAndDecrements :
    ((Instr.decZp 0x10).mnemonic, 255) ∈ ([(.INC, 1), (.DEC, 255)] : List (Mnemonic × Nat)) ∧
    (Instr.decZp 0x10).operand = some (.mem (.zp 0x10)) ∧ Memory.wf w0.bus.mem = true ∧
    (∃ t b1 b2, resolveAddr (.zp 0x10) w0 = .ok 0x0010 t ∧ t.bus.read 0x0010 = some (0x80, b1) ∧
      (0x7F : Byte).toNat = ((0x80 : Byte).toNat + 255) % 256 ∧ b1.write 0x0010 0x7F = some b2) ∧
    (∃ t, resolveAddr (.zp 0x10) (wAt 0x0010 .unmapped) = .ok 0x0010 t ∧ t.bus.read 0x0010 = none) ∧
    (∃ t b1, resolveAddr (.zp 0x10) (wAt 0x0010 .rom) = .ok 0x0010 t ∧ t.bus.read 0x0010 = some (0x00, b1) ∧
      (0xFF : Byte).toNat = ((0x00 : Byte).toNat + 255) % 256 ∧ b1.write 0x0010 0xFF = none) :=
  ⟨by decide, rfl, rfl, ⟨_, _, _, rfl, rfl, by decide, rfl⟩, ⟨_, rfl, rfl⟩, ⟨_, _, rfl, rfl, by decide, rfl⟩⟩

theorem witness_AccumulatorShifts :
    Instr.rorA ∈ ([.aslA, .lsrA, .rolA, .rorA] : List Instr) ∧ ShiftResult .ASL true 0x80 0x00 true ∧
    ShiftResult .LSR true 0x01 0x00 true ∧ ShiftResult .ROL true 0x80 0x01 true ∧
    ShiftResult Instr.rorA.mnemonic (w0.flag .C) w0.a 0xC0 false := by
  refine ⟨by decide, .inl (by decide), .inr (.inl (by decide)), .inr (.inr (.inl (by decide))), .inr (.inr (.inr (by decide)))⟩

theorem witness_MemoryShifts :
    (Instr.rolZp 0x10).mnemonic ∈ ([.ASL, .LSR, .ROL, .ROR] : List Mnemonic) ∧
    (Instr.rolZp 0x10).operand = some (.mem (.zp 0x10)) ∧ Memory.wf w0.bus.mem = true ∧
    (∃ t b1 b2, resolveAddr (.zp 0x10) w0 = .ok 0x0010 t ∧ t.bus.read 0x0010 = some (0x80, b1) ∧
      ShiftResult (Instr.rolZp 0x10).mnemonic (w0.flag .C) 0x80 0x01 true ∧ b1.write 0x0010 0x01 = some b2) ∧
    (∃ t, resolveAddr (.zp 0x10) (wAt 0x0010 .unmapped) = .ok 0x0010 t ∧ t.bus.read 0x0010 = none) ∧
    (∃ t b1, resolveAddr (.zp 0x10) (wAt 0x0010 .rom) = .ok 0x0010 t ∧ t.bus.read 0x0010 = some (0x00, b1) ∧
      ShiftResult (Instr.rolZp 0x10).mnemonic ((wAt 0x0010 .rom).flag .C) 0x00 0x01 false ∧ b1.write 0x0010 0x01 = none) :=
  ⟨by decide, rfl, rfl, ⟨_, _, _, rfl, rfl, .inr (.inr (.inl (by decide))), rfl⟩, ⟨_, rfl, rfl⟩,
    ⟨_, _, rfl, rfl, .inr (.inr (.inl (by decide))), rfl⟩⟩

/-- Taken with the largest backward offset, and not taken. -/
theorem witness_BranchesTestTheirFlag :
    (Instr.bcs 0x80, Flag.C, true) ∈ ([(.bpl 0x80, .N, false), (.bmi 0x80, .N, true), (.bvc 0x80, .V, false), (.bvs 0x80, .V, true),
      (.bcc 0x80, .C, false), (.bcs 0x80, .C, true), (.bne 0x80, .Z, false), (.beq 0x80, .Z, true)] : List (Instr × Flag × Bool)) ∧
    w0.flag .C = true ∧ State.reset.flag .C ≠ true := by decide

theorem witness_BranchDispatch :
    ((0xF0 : Byte), Flag.Z, true) ∈ ([(0x10, .N, false), (0x30, .N, true), (0x50, .V, false), (0x70, .V, true), (0x90, .C, false),
      (0xB0, .C, true), (0xD0, .Z, false), (0xF0, .Z, true)] : List (Byte × Flag × Bool)) ∧
    (∃ b1 b2, (start 0xFFFF [0xF0, 0x7F] []).bus.read 0xFFFF = some (0xF0, b1) ∧ b1.read 0x0000 = some (0x7F, b2)) ∧
    (∃ b1, (start 0xFFFF [0xF0, 0x7F] [] (map := [⟨0x0000, 1, .unmapped⟩])).bus.read 0xFFFF = some (0xF0, b1) ∧
      b1.read 0x0000 = none) :=
  ⟨by decide, ⟨_, _, rfl, rfl⟩, ⟨_, rfl, rfl⟩⟩

/-- The pointer at 0x00FF: its high byte is read at 0x0000, in the same page (R97). -/
theorem witness_JumpTakesItsTarget :
    (0x0000 : Addr).toNat = (0x00FF : Addr).toNat / 256 * 256 + ((0x00FF : Addr).toNat + 1) % 256 ∧
    (∃ lo hi b1 b2, w0.bus.read 0x00FF = some (lo, b1) ∧ b1.read 0x0000 = some (hi, b2)) ∧
    (wAt 0x00FF .unmapped).bus.read 0x00FF = none ∧
    (∃ lo b1, (wAt 0x0000 .unmapped).bus.read 0x00FF = some (lo, b1) ∧ b1.read 0x0000 = none) :=
  ⟨by decide, ⟨_, _, _, _, rfl, rfl⟩, rfl, ⟨_, _, rfl, rfl⟩⟩

theorem witness_PushInstructions :
    StackSlot w0 0 0x0100 ∧ (∃ b, w0.bus.write 0x0100 w0.a = some b) ∧ (wAt 0x0100 .rom).bus.write 0x0100 0x80 = none :=
  ⟨by unfold StackSlot; decide, ⟨_, rfl⟩, rfl⟩

theorem witness_PullAccumulator :
    StackSlot (start 0 [] [] (sp := 0xFF)) 1 0x0100 ∧ (∃ v b, (start 0 [] [] (sp := 0xFF)).bus.read 0x0100 = some (v, b)) ∧
    StackSlot (wAt 0x0100 .unmapped (sp := 0xFF)) 1 0x0100 ∧ (wAt 0x0100 .unmapped (sp := 0xFF)).bus.read 0x0100 = none :=
  ⟨by unfold StackSlot; decide, ⟨_, _, rfl⟩, by unfold StackSlot; decide, rfl⟩

theorem witness_PullStatus :
    StackSlot w0 1 0x0101 ∧ (∃ v b, w0.bus.read 0x0101 = some (v, b)) ∧
    StackSlot (wAt 0x0101 .unmapped) 1 0x0101 ∧ (wAt 0x0101 .unmapped).bus.read 0x0101 = none :=
  ⟨by unfold StackSlot; decide, ⟨_, _, rfl⟩, by unfold StackSlot; decide, rfl⟩

/-- SP is 0x00, so the second push wraps to 0x01FF; each push completes, and each fails in turn. -/
theorem witness_JsrPushesItsLastByteAndJumps :
    StackSlot w0 0 0x0100 ∧ StackSlot w0 (-1) 0x01FF ∧
    (256 * (0x01 : Byte).toNat + (0xFF : Byte).toNat : Int) = ((w0.pc.toNat : Int) - 1) % 65536 ∧
    (∃ b1 b2, w0.bus.write 0x0100 0x01 = some b1 ∧ b1.write 0x01FF 0xFF = some b2) ∧
    (wAt 0x0100 .rom).bus.write 0x0100 0x01 = none ∧
    (∃ b1, (wAt 0x01FF .rom).bus.write 0x0100 0x01 = some b1 ∧ b1.write 0x01FF 0xFF = none) :=
  ⟨by unfold StackSlot; decide, by unfold StackSlot; decide, by decide, ⟨_, _, rfl, rfl⟩, rfl, ⟨_, rfl, rfl⟩⟩

theorem witness_RtsPullsAndAddsOne :
    StackSlot w0 1 0x0101 ∧ StackSlot w0 2 0x0102 ∧
    (∃ lo hi b1 b2, w0.bus.read 0x0101 = some (lo, b1) ∧ b1.read 0x0102 = some (hi, b2)) ∧
    (wAt 0x0101 .unmapped).bus.read 0x0101 = none ∧
    (∃ lo b1, (wAt 0x0102 .unmapped).bus.read 0x0101 = some (lo, b1) ∧ b1.read 0x0102 = none) :=
  ⟨by unfold StackSlot; decide, by unfold StackSlot; decide, ⟨_, _, _, _, rfl, rfl⟩, rfl, ⟨_, _, rfl, rfl⟩⟩

theorem witness_RtiRestoresStatusThenPc :
    StackSlot w0 1 0x0101 ∧ StackSlot w0 2 0x0102 ∧ StackSlot w0 3 0x0103 ∧
    (∃ v lo hi b1 b2 b3, w0.bus.read 0x0101 = some (v, b1) ∧ b1.read 0x0102 = some (lo, b2) ∧ b2.read 0x0103 = some (hi, b3)) ∧
    (wAt 0x0101 .unmapped).bus.read 0x0101 = none ∧
    (∃ v b1, (wAt 0x0102 .unmapped).bus.read 0x0101 = some (v, b1) ∧ b1.read 0x0102 = none) ∧
    (∃ v lo b1 b2, (wAt 0x0103 .unmapped).bus.read 0x0101 = some (v, b1) ∧ b1.read 0x0102 = some (lo, b2) ∧
      b2.read 0x0103 = none) :=
  ⟨by unfold StackSlot; decide, by unfold StackSlot; decide, by unfold StackSlot; decide, ⟨_, _, _, _, _, _, rfl, rfl, rfl⟩, rfl,
    ⟨_, _, rfl, rfl⟩, ⟨_, _, _, _, rfl, rfl, rfl⟩⟩

/-- The operands of BRK's statement at `w0`, and each of its five accesses failing in turn. -/
theorem witness_BrkTakesTheTrap :
    StackSlot w0 0 0x0100 ∧ StackSlot w0 (-1) 0x01FF ∧ StackSlot w0 (-2) 0x01FE ∧
    256 * (0x02 : Byte).toNat + (0x01 : Byte).toNat = (w0.pc.toNat + 1) % 65536 ∧
    (0x85 : Byte).getLsbD 2 = true ∧ (∀ k : Nat, k ≠ 2 → (0x85 : Byte).getLsbD k = w0.p.getLsbD k) ∧
    (∃ b1 b2 b3 l b4 h b5, w0.bus.write 0x0100 0x02 = some b1 ∧ b1.write 0x01FF 0x01 = some b2 ∧
      b2.write 0x01FE (w0.p ||| 0x30) = some b3 ∧ b3.read 0xFFFE = some (l, b4) ∧ b4.read 0xFFFF = some (h, b5)) ∧
    (wAt 0x0100 .rom).bus.write 0x0100 0x02 = none ∧
    (∃ b1, (wAt 0x01FF .rom).bus.write 0x0100 0x02 = some b1 ∧ b1.write 0x01FF 0x01 = none) ∧
    (∃ b1 b2, (wAt 0x01FE .rom).bus.write 0x0100 0x02 = some b1 ∧ b1.write 0x01FF 0x01 = some b2 ∧ b2.write 0x01FE 0xB1 = none) ∧
    (wAt 0xFFFE .unmapped).bus.read 0xFFFE = none ∧ (wAt 0xFFFF .unmapped).bus.read 0xFFFF = none := by
  refine ⟨by unfold StackSlot; decide, by unfold StackSlot; decide, by unfold StackSlot; decide, by decide, by decide, ?_,
    ⟨_, _, _, _, _, _, _, rfl, rfl, rfl, rfl, rfl⟩, rfl, ⟨_, rfl, rfl⟩, ⟨_, _, rfl, rfl, rfl⟩, rfl, rfl⟩
  intro k hk
  by_cases h8 : k < 8
  · have : ∀ j : Fin 8, j.val ≠ 2 → (0x85 : Byte).getLsbD j.val = w0.p.getLsbD j.val := by decide
    exact this ⟨k, h8⟩ hk
  · rw [BitVec.getLsbD_of_ge _ _ (by omega), BitVec.getLsbD_of_ge _ _ (by omega)]

theorem witness_RtsReturnsPastTheJsr :
    Memory.wf w0.bus.mem = true ∧ StackSlot w0 0 0x0100 ∧ StackSlot w0 (-1) 0x01FF ∧ w0.bus.kindAt 0x0100 = .ram ∧
    w0.bus.kindAt 0x01FF = .ram :=
  ⟨rfl, by unfold StackSlot; decide, by unfold StackSlot; decide, rfl, rfl⟩

theorem witness_RtiUndoesBrk :
    Memory.wf w0.bus.mem = true ∧ StackSlot w0 0 0x0100 ∧ StackSlot w0 (-1) 0x01FF ∧ StackSlot w0 (-2) 0x01FE ∧
    w0.bus.kindAt 0x0100 = .ram ∧ w0.bus.kindAt 0x01FF = .ram ∧ w0.bus.kindAt 0x01FE = .ram ∧ w0.bus.Readable 0xFFFE ∧
    w0.bus.Readable 0xFFFF :=
  ⟨rfl, by unfold StackSlot; decide, by unfold StackSlot; decide, by unfold StackSlot; decide, rfl, rfl, rfl, .inl rfl, .inl rfl⟩

theorem witness_PlpRestoresWhatPhpPushed :
    Memory.wf w0.bus.mem = true ∧ StackSlot w0 0 0x0100 ∧ w0.bus.kindAt 0x0100 = .ram :=
  ⟨rfl, by unfold StackSlot; decide, rfl⟩

theorem witness_StoresWriteTheirRegister :
    ((Instr.stxZpY 0xFF).mnemonic, Reg.X) ∈ ([(.STA, .A), (.STX, .X), (.STY, .Y)] : List (Mnemonic × Reg)) ∧
    (Instr.stxZpY 0xFF).operand = some (.mem (.zpY 0xFF)) ∧ Memory.wf w0.bus.mem = true ∧
    (∃ t b, resolveAddr (.zpY 0xFF) w0 = .ok 0x0000 t ∧ t.bus.write 0x0000 (w0.get .X) = some b) ∧
    (∃ f, resolveAddr (.indY 0xFF) (wAt 0x0000 .unmapped) = .fail f) ∧
    (∃ t, resolveAddr (.abs 0x9000) (wAt 0x9000 .rom) = .ok 0x9000 t ∧ t.bus.write 0x9000 ((wAt 0x9000 .rom).get .A) = none) :=
  ⟨by decide, rfl, rfl, ⟨_, _, rfl, rfl⟩, ⟨_, rfl⟩, ⟨_, rfl, rfl⟩⟩

theorem witness_TransfersCopyAndSetNZ :
    (Instr.tsx, Reg.SP, Reg.X) ∈ ([(.tax, .A, .X), (.tay, .A, .Y), (.txa, .X, .A), (.tya, .Y, .A), (.tsx, .SP, .X)] :
      List (Instr × Reg × Reg)) := by decide

/-- An instruction that ends in a next state, and one that ends in an error; in each a register differs afterwards. -/
theorem witness_RegistersAreWrittenOnlyByTheirInstructions :
    (∃ t, EndsIn (exec .aslA w0) t ∧ t.a ≠ w0.a ∧ t.p ≠ w0.p) ∧ (∃ t, EndsIn (exec .inx w0) t ∧ t.x ≠ w0.x) ∧
    (∃ t, EndsIn (exec .iny w0) t ∧ t.y ≠ w0.y) ∧
    (∃ t, EndsIn (exec .pla (wAt 0x0101 .unmapped)) t ∧ t.sp ≠ (wAt 0x0101 .unmapped).sp) ∧
    (∃ t, EndsIn (exec (.jmpAbs 0xFFFF) w0) t ∧ t.pc ≠ w0.pc) :=
  ⟨⟨_, .inl rfl, by decide, by decide⟩, ⟨_, .inl rfl, by decide⟩, ⟨_, .inl rfl, by decide⟩, ⟨_, .inr ⟨_, rfl, rfl⟩, by decide⟩,
    ⟨_, .inl rfl, by decide⟩⟩

theorem witness_OtherFormsStoreNothing :
    (∃ t, EndsIn (exec .rorA w0) t) ∧
    Instr.rorA.mnemonic ∉ ([.STA, .STX, .STY, .INC, .DEC, .PHA, .PHP, .JSR, .BRK] : List Mnemonic) ∧
    (Instr.rorA.mnemonic ∈ ([.ASL, .LSR, .ROL, .ROR] : List Mnemonic) → Instr.rorA.mode = .acc) :=
  ⟨⟨_, .inl rfl⟩, by decide, by decide⟩

theorem witness_StoresReachOnlyTheirAddress :
    Memory.wf w0.bus.mem = true ∧ (∃ t, EndsIn (exec (.staIndY 0xFF) w0) t) ∧
    (∃ a u, resolveAddr (.indY 0xFF) w0 = .ok a u) ∧ (∃ t, EndsIn (exec .brk w0) t) ∧ (∃ t, EndsIn (exec (.jsr 0xFFFF) w0) t) ∧
    (∃ t, EndsIn (exec .php w0) t) ∧ (0x01FD : Addr) ≠ 0x0100 ∧ ¬ StackSlot w0 0 0x01FD ∧ ¬ StackSlot w0 (-1) 0x01FD ∧
    ¬ StackSlot w0 (-2) 0x01FD :=
  ⟨rfl, ⟨_, .inl rfl⟩, ⟨_, _, rfl⟩, ⟨_, .inl rfl⟩, ⟨_, .inl rfl⟩, ⟨_, .inl rfl⟩, by decide, by unfold StackSlot; decide,
    by unfold StackSlot; decide, by unfold StackSlot; decide⟩

/-- A dispatch that completes and one that ends in an error, for the statements over `EndsIn (step s) t`. -/
theorem witness_NoStepWritesUOrB :
    (∃ t, EndsIn (step w0) t) ∧ (∃ t, EndsIn (step (wAt 0x0010 .rom)) t) :=
  ⟨⟨_, .inl rfl⟩, ⟨_, .inr ⟨_, rfl, rfl⟩⟩⟩

theorem witness_StepKeepsParametersAndMap : ∃ t, EndsIn (step (wAt 0x0010 .rom)) t := ⟨_, .inr ⟨_, rfl, rfl⟩⟩

theorem witness_ReadOnlyBytesNeverChange :
    Memory.wf (wAt 0x0010 .rom).bus.mem = true ∧ (∃ t, EndsIn (step (wAt 0x0010 .rom)) t) ∧ (wAt 0x0010 .rom).bus.kindAt 0x0010 = .rom ∧
    (wAt 0x9000 .unmapped).bus.kindAt 0x9000 = .unmapped ∧ (wAt 0xFFFF .device).bus.kindAt 0xFFFF = .device :=
  ⟨rfl, ⟨_, .inr ⟨_, rfl, rfl⟩⟩, rfl, rfl, rfl⟩

/-- A failing opcode fetch makes no access: the history is what it was. -/
theorem witness_HistoryOnlyGrows :
    (∃ t, EndsIn (step w0) t) ∧
    ∃ t, EndsIn (step (wAt 0x0200 .unmapped)) t ∧ t.bus.log = (wAt 0x0200 .unmapped).bus.log :=
  ⟨⟨_, .inl rfl⟩, ⟨_, .inr ⟨_, rfl, rfl⟩, rfl⟩⟩

theorem witness_StepKeepsSoundness : w0.Inv ∧ ∃ t, step w0 = .next t := ⟨⟨rfl, fun _ _ _ h => nomatch h⟩, ⟨_, rfl⟩⟩

theorem witness_ErrorsLeaveASoundState : (wAt 0x0010 .rom).Inv ∧ ∃ f, step (wAt 0x0010 .rom) = .fault f :=
  ⟨⟨rfl, fun _ _ _ h => nomatch h⟩, ⟨_, rfl⟩⟩

theorem witness_NothingRunsAfterDestroy : ∀ (cfg : Config) (bus : Bus), HostCall.dispatch ≠ .create cfg bus :=
  fun _ _ h => nomatch h

theorem witness_BusErrorNamesARefusedAccess :
    (∃ t, step (wAt 0x0010 .unmapped) = .fault (.busError 0x0010 .read t)) ∧
    (∃ t, step (wAt 0x0010 .rom) = .fault (.busError 0x0010 .write t)) := ⟨⟨_, rfl⟩, ⟨_, rfl⟩⟩

theorem witness_EveryInstructionCompletesOnFlatMemory :
    w0.bus.Flat ∧ State.reset.bus.Flat ∧ w0.bus.NeverRefuses :=
  ⟨fun _ => rfl, fun _ => rfl, fun _ _ _ _ => ⟨nofun, nofun⟩⟩

theorem witness_DecimalAndInterruptFlagsSteerNothing :
    (Instr.adcImm 0xFF).mnemonic ∉ ([.PHP, .BRK, .PLP, .RTI] : List Mnemonic) ∧ (Instr.adcImm 0xFF).mnemonic ≠ .SED ∧
    (Instr.adcImm 0xFF).mnemonic ≠ .CLD ∧ Instr.sed.mnemonic ≠ .SEI ∧ Instr.sed.mnemonic ≠ .CLI := by decide

theorem witness_StoredByteIsFetchedNext :
    Memory.wf w0.bus.mem = true ∧ w0.bus.kindAt 0x0010 = .ram ∧
    (StoresByte (.staAbs 0xFFFF) w0 0xFFFF 0x80 ∧ ∃ t, exec (.staAbs 0xFFFF) w0 = .next t) ∧
    (StoresByte (.decZp 0x10) w0 0x0010 0x7F ∧ ∃ t, exec (.decZp 0x10) w0 = .next t) ∧
    (StoresByte (.rolZp 0x10) w0 0x0010 0x01 ∧ ∃ t, exec (.rolZp 0x10) w0 = .next t) ∧
    (StoresByte .pha w0 0x0100 0x80 ∧ ∃ t, exec .pha w0 = .next t) ∧
    (StoresByte .php w0 0x0100 0xB1 ∧ ∃ t, exec .php w0 = .next t) ∧
    (StoresByte (.jsr 0xFFFF) w0 0x0100 0x01 ∧ StoresByte (.jsr 0xFFFF) w0 0x01FF 0xFF ∧
      ∃ t, exec (.jsr 0xFFFF) w0 = .next t) ∧
    (StoresByte .brk w0 0x01FF 0x01 ∧ StoresByte .brk w0 0x01FE 0xB1 ∧ ∃ t, exec .brk w0 = .next t) :=
  ⟨rfl, rfl, ⟨.inl ⟨_, _, .A, rfl, rfl, by decide, rfl⟩, _, rfl⟩,
    ⟨.inr (.inl ⟨_, _, 255, rfl, rfl, by decide, by decide⟩), _, rfl⟩,
    ⟨.inr (.inr (.inl ⟨_, _, true, rfl, rfl, .inr (.inr (.inl (by decide)))⟩)), _, rfl⟩,
    ⟨.inr (.inr (.inr (.inl ⟨rfl, by unfold StackSlot; decide, rfl⟩))), _, rfl⟩,
    ⟨.inr (.inr (.inr (.inr (.inl ⟨rfl, by unfold StackSlot; decide, rfl⟩)))), _, rfl⟩,
    ⟨.inr (.inr (.inr (.inr (.inr (.inl ⟨0x01, 0xFF, rfl, by decide, .inl ⟨by unfold StackSlot; decide, rfl⟩⟩))))),
      .inr (.inr (.inr (.inr (.inr (.inl ⟨0x01, 0xFF, rfl, by decide, .inr ⟨by unfold StackSlot; decide, rfl⟩⟩))))), _, rfl⟩,
    ⟨.inr (.inr (.inr (.inr (.inr (.inr ⟨0x02, 0x01, rfl, by decide, .inr (.inl ⟨by unfold StackSlot; decide, rfl⟩)⟩))))),
      .inr (.inr (.inr (.inr (.inr (.inr ⟨0x02, 0x01, rfl, by decide, .inr (.inr ⟨by unfold StackSlot; decide, rfl⟩)⟩))))), _, rfl⟩⟩

/-- A branch at 0x0200 whose offset byte 0x7F reaches the farthest label, 0x0280. -/
theorem witness_BranchOffsetReachesItsLabel :
    branchOffset ((start 0x0202 [] []).pc - 2) 0x0280 = some 0x7F ∧ (start 0x0202 [] []).flag .Z = false ∧
    branchOffset ((start 0x0001 [] []).pc - 2) 0xFFFF = some 0xFF := by decide

/-- SetFlagWritesOneBit: the list of flags, the first and the last. -/
theorem witness_SetFlagWritesOneBit :
    (Flag.N, 0, 7) ∈ ([(.N, 0, 7), (.V, 1, 6), (.U, 2, 5), (.B, 3, 4), (.D, 4, 3), (.I, 5, 2), (.Z, 6, 1), (.C, 7, 0)] :
      List (Flag × Nat × Nat)) ∧ Flag.C.index.val = 7 := by decide

/-- The resolver's read fails; the operand's read fails; both succeed. -/
theorem witness_OperandIsReadWhereItResolves :
    (∃ f, resolveAddr (.indY 0xFF) (wAt 0x0000 .unmapped) = .fail f) ∧
    (∃ t, resolveAddr (.zp 0x10) (wAt 0x0010 .unmapped) = .ok 0x0010 t ∧ t.bus.read 0x0010 = none) ∧
    (∃ t b, resolveAddr (.zp 0x10) w0 = .ok 0x0010 t ∧ t.bus.read 0x0010 = some (0x80, b)) :=
  ⟨⟨_, rfl⟩, ⟨_, rfl, rfl⟩, ⟨_, _, rfl, rfl⟩⟩

end Sys2Proof.Tests
end

section
/-! PROOFS. The parameters and the address map, and the reset state (00_scope.md). -/

namespace Sys2Proof.Machine

/-- No access and no register write of any instruction touches the parameters or the address map (R7, R60). -/
theorem keepsParametersAndMap (i : Instr) (s : State) :
    Keeps i.mnemonic i.operand (fun t => t.cfg = s.cfg ∧ t.bus.map = s.bus.map) := by
  constructor
  case write => rintro - t a v b hb ⟨hcfg, hmap⟩; exact ⟨hcfg, (Bus.write_map hb).trans hmap⟩
  all_goals intros; assumption

/-- Settles O46: every instruction keeps both, and so does moving `pc`, which is all a fetch adds. -/
theorem stepKeepsParametersAndMap : Obligations.StepKeepsParametersAndMap := by
  intro s t ht
  have hkept := step_ends (keepsParametersAndMap · s) (fun _ _ h => h) ⟨rfl, rfl⟩
  exact resultEnds_of_endsIn hkept ht

/-- Where no access was made and no byte is listed, a state is sound: there is no last access to agree with. -/
theorem State.inv_of_no_access {s : State} (hmem : s.bus.mem = []) (hlog : s.bus.log = []) : s.Inv := by
  refine ⟨?_, fun a v _ hlast => ?_⟩
  · rw [hmem]; rfl
  · rw [hlog] at hlast; exact absurd hlast nofun

/-- Settles O52: a machine just created on an empty bus has listed no byte and made no access. -/
theorem resetIsSound : Obligations.ResetIsSound :=
  ⟨rfl, State.inv_of_no_access rfl rfl⟩

end Sys2Proof.Machine
end

section
/-! PROOFS. The flag byte under `set_flag`, and which instructions write each register, U and B (10_state.md). -/

namespace Sys2Proof.Machine

/-! ### `set_flag` and `get_flag` (R26 to R28) -/

/-- The table of R27, each flag with its index and its bit of P, has the model's indices, and the bits R26 gives them. -/
theorem Flag.index_and_bit : ∀ e ∈ ([(.N, 0, 7), (.V, 1, 6), (.U, 2, 5), (.B, 3, 4), (.D, 4, 3), (.I, 5, 2), (.Z, 6, 1),
    (.C, 7, 0)] : List (Flag × Nat × Nat)), e.1.index.val = e.2.1 ∧ e.2.2 = 7 - e.1.index.val := by
  decide

/-- Settles O13: one bit of P under `set_flag` is `setFlag_bit`, the host calls answer by definition, and the names follow
from the table. -/
theorem setFlagWritesOneBit : Obligations.SetFlagWritesOneBit := by
  intro p i b
  refine ⟨rfl, by simp [setFlag_bit], fun k hk => by simp [setFlag_bit, hk], fun s => ⟨rfl, rfl, ?_⟩⟩
  intro f index bit hmem
  obtain ⟨hindex, hbit⟩ := Flag.index_and_bit (f, index, bit) hmem
  exact ⟨hindex, congrArg s.p.getLsbD hbit.symm, rfl⟩

/-! ### U and B (R29) -/

/-- What an instruction may write to P leaves U and B, and its other writes leave P. -/
theorem keepsUB (i : Instr) (s : State) : Keeps i.mnemonic i.operand (fun t => SameUB s.p t.p) := by
  constructor
  case setP => rintro - t p ⟨hU', hB'⟩ ⟨hU, hB⟩; exact ⟨hU'.trans hU, hB'.trans hB⟩
  all_goals intros; assumption

/-- Settles O45: every instruction keeps U and B, and so does moving `pc`, which is all a fetch adds. -/
theorem noStepWritesUOrB : Obligations.NoStepWritesUOrB := by
  intro s t ht
  have hkept := step_ends (keepsUB · s) (fun _ _ h => h) ⟨rfl, rfl⟩
  exact resultEnds_of_endsIn hkept ht

/-! ### Which instructions write each register (R22) -/

/-- Every register of `t` that differs from `s` is one the mnemonic and operand may write. -/
structure WritesOnlyItsRegisters (mn : Mnemonic) (o : Option Operand) (s t : State) : Prop where
  a : t.a ≠ s.a → mayWriteA mn o = true
  x : t.x ≠ s.x → mayWriteX mn = true
  y : t.y ≠ s.y → mayWriteY mn = true
  sp : t.sp ≠ s.sp → mayWriteSp mn = true
  p : t.p ≠ s.p → mayWriteP mn = true
  pc : t.pc ≠ s.pc → mayWritePc mn = true

theorem WritesOnlyItsRegisters.refl (mn : Mnemonic) (o : Option Operand) (s : State) : WritesOnlyItsRegisters mn o s s := by
  constructor <;> exact fun h => absurd rfl h

/-- A register write needs the permission it asks for, and a bus access writes no register. -/
theorem keepsItsRegisters (mn : Mnemonic) (o : Option Operand) (s : State) :
    Keeps mn o (WritesOnlyItsRegisters mn o s) where
  read _ _ _ _ h := { h with }
  write _ _ _ _ _ _ h := { h with }
  setA hmay _ _ h := { h with a := fun _ => hmay }
  setX hmay _ _ h := { h with x := fun _ => hmay }
  setY hmay _ _ h := { h with y := fun _ => hmay }
  setSp hmay _ _ h := { h with sp := fun _ => hmay }
  setP hmay _ _ _ h := { h with p := fun _ => hmay }
  setPc hmay _ _ h := { h with pc := fun _ => hmay }

/-- The four instructions in Accumulator mode (R171 to R174). -/
theorem Instr.mem_of_operand_acc {i : Instr} (h : i.operand = some .acc) :
    i ∈ ([.aslA, .lsrA, .rolA, .rorA] : List Instr) := by
  revert h; cases i <;> simp [Instr.operand]

/-- R22's list for A: nine mnemonics, and whatever works on the accumulator as its operand. -/
theorem mem_or_acc_of_mayWriteA {mn : Mnemonic} {o : Option Operand} (h : mayWriteA mn o = true) :
    mn ∈ ([.LDA, .ADC, .SBC, .AND, .ORA, .EOR, .PLA, .TXA, .TYA] : List Mnemonic) ∨ o = some .acc := by
  revert h; cases mn <;> simp [mayWriteA]

theorem mem_of_mayWriteX {mn : Mnemonic} (h : mayWriteX mn = true) :
    mn ∈ ([.LDX, .INX, .DEX, .TAX, .TSX] : List Mnemonic) := by
  revert h; cases mn <;> decide

theorem mem_of_mayWriteY {mn : Mnemonic} (h : mayWriteY mn = true) : mn ∈ ([.LDY, .INY, .DEY, .TAY] : List Mnemonic) := by
  revert h; cases mn <;> decide

theorem mem_of_mayWriteSp {mn : Mnemonic} (h : mayWriteSp mn = true) :
    mn ∈ ([.TXS, .PHA, .PHP, .PLA, .PLP, .JSR, .RTS, .RTI, .BRK] : List Mnemonic) := by
  revert h; cases mn <;> decide

theorem not_mem_of_mayWriteP {mn : Mnemonic} (h : mayWriteP mn = true) :
    mn ∉ ([.STA, .STX, .STY, .TXS, .NOP, .PHA, .PHP, .JSR, .RTS, .JMP, .BPL, .BMI, .BVC, .BVS, .BCC, .BCS, .BNE, .BEQ] :
      List Mnemonic) := by
  revert h; cases mn <;> decide

theorem mem_of_mayWritePc {mn : Mnemonic} (h : mayWritePc mn = true) :
    mn ∈ ([.BPL, .BMI, .BVC, .BVS, .BCC, .BCS, .BNE, .BEQ, .JMP, .JSR, .RTS, .RTI, .BRK] : List Mnemonic) := by
  revert h; cases mn <;> decide

/-- Settles O42: an instruction ends in a state where only registers it may write differ, and R22's lists name those. -/
theorem registersAreWrittenOnlyByTheirInstructions : Obligations.RegistersAreWrittenOnlyByTheirInstructions := by
  intro i s t ht
  have hends := exec_ends (keepsItsRegisters i.mnemonic i.operand s) (.refl _ _ s)
  have h := resultEnds_of_endsIn hends ht
  exact ⟨fun ha => (mem_or_acc_of_mayWriteA (h.a ha)).imp_right Instr.mem_of_operand_acc, mem_of_mayWriteX ∘ h.x,
    mem_of_mayWriteY ∘ h.y, mem_of_mayWriteSp ∘ h.sp, not_mem_of_mayWriteP ∘ h.p, mem_of_mayWritePc ∘ h.pc⟩

end Sys2Proof.Machine
end

section
/-! PROOFS. D and I steer nothing (10_state.md R30, R32): an operation that neither tests nor computes a flag commutes with
changing it. -/

namespace Sys2Proof.Machine

/-! ### Flag computations commute with writing another flag -/

/-- The flags that instructions test or compute from their result (R31, R160, R170, R180, R184, R190). -/
def Flag.isCondition : Flag → Bool
  | .N | .V | .Z | .C => true
  | .U | .B | .D | .I => false

theorem Flag.ne_of_isCondition {f g : Flag} (hf : f.isCondition = false) (hg : g.isCondition = true) : f ≠ g := by
  rintro rfl; simp [hf] at hg

/-- Writes of two different flags commute (R28: no other bit of P changes). -/
theorem setFlag_commute {f g : Flag} (h : f ≠ g) (b c : Bool) :
    Function.Commute (setFlag · g.index c) (setFlag · f.index b) := by
  refine fun p => flags_ext fun k => ?_
  by_cases hk : k = f
  · simp [getFlag_setFlag, hk, h]
  · simp [getFlag_setFlag, hk]

section
variable {f : Flag} (hf : f.isCondition = false) (b : Bool)
include hf

theorem setCondition_commute {g : Flag} (hg : g.isCondition = true) (c : Bool) :
    Function.Commute (setFlag · g.index c) (setFlag · f.index b) := setFlag_commute (Flag.ne_of_isCondition hf hg) b c

theorem setNZ_commute (v : Byte) : Function.Commute (setNZ · v) (setFlag · f.index b) :=
  (setCondition_commute hf b rfl _).comp_left (setCondition_commute hf b rfl _)

theorem sumFlags_commute (r : Sum8) : Function.Commute (sumFlags · r) (setFlag · f.index b) :=
  (setNZ_commute hf b r.r).comp_left ((setCondition_commute hf b rfl _).comp_left (setCondition_commute hf b rfl _))

theorem compareFlags_commute (reg m : Byte) : Function.Commute (compareFlags · reg m) (setFlag · f.index b) :=
  (setCondition_commute hf b rfl _).comp_left
    ((setCondition_commute hf b rfl _).comp_left (setCondition_commute hf b rfl _))

theorem bitTestFlags_commute (acc m : Byte) : Function.Commute (bitTestFlags · acc m) (setFlag · f.index b) :=
  (setCondition_commute hf b rfl _).comp_left
    ((setCondition_commute hf b rfl _).comp_left (setCondition_commute hf b rfl _))

theorem shiftFlags_commute (r : Byte) (out : Bool) : Function.Commute (shiftFlags · r out) (setFlag · f.index b) :=
  (setNZ_commute hf b r).comp_left (setCondition_commute hf b rfl _)

/-- A condition flag reads the same whatever another flag holds. -/
theorem State.flag_setFlag_condition (s : State) {g : Flag} (hg : g.isCondition = true) :
    (s.setFlag f b).flag g = s.flag g := by
  rw [State.flag_setFlag, if_neg (Flag.ne_of_isCondition hf hg).symm]

end

/-- A register other than P reads the same whatever a flag holds. -/
theorem State.get_setFlag {r : Reg} (hr : r ≠ .P) (s : State) (f : Flag) (b : Bool) : (s.setFlag f b).get r = s.get r := by
  cases r with
  | P => exact absurd rfl hr
  | A | X | Y | SP => rfl

/-- Writing a register other than P commutes with writing a flag. -/
theorem State.set_commute {r : Reg} (hr : r ≠ .P) (f : Flag) (b : Bool) (v : Byte) :
    Function.Commute (State.set · r v) (State.setFlag · f b) := by
  cases r with
  | P => exact absurd rfl hr
  | A | X | Y | SP => exact fun _ => rfl

/-- A computation on P commutes with writing a flag in the state if it does in P. -/
theorem State.setP_commute {f : Flag} {b : Bool} {F : Byte → Byte} (h : Function.Commute F (Machine.setFlag · f.index b)) :
    Function.Commute (fun s => s.setP (F s.p)) (State.setFlag · f b) := fun s => congrArg s.setP (h s.p)

/-! ### Operations that ignore a flag -/

/-- A change of state applied to the state a fault carries. -/
def Fault.mapLeft (g : State → State) : Fault → Fault
  | .busError addr dir t => .busError addr dir (g t)
  | .illegalOpcode op t => .illegalOpcode op (g t)
  | .literalWrite t => .literalWrite (g t)

/-- A change of state applied to whatever state a part of an instruction ends in, as mapResult does for the whole. -/
def Res.mapState {α : Type} (g : State → State) : Res α → Res α
  | .ok v t => .ok v (g t)
  | .fail f => .fail (f.mapLeft g)

theorem Res.finish_mapState (g : State → State) (r : Res Unit) : (r.mapState g).finish = mapResult g r.finish := by
  rcases r with _ | _ | _ | _ <;> rfl

/-- Changing the flag `f` before this part of an instruction is as good as changing it afterwards. -/
def Ignores {α : Type} (f : Flag) (b : Bool) (m : State → Res α) : Prop :=
  Function.Semiconj m (·.setFlag f b) (Res.mapState (·.setFlag f b))

/-- Changing the flag `f` before an instruction is as good as changing it afterwards. -/
def ResultIgnores (f : Flag) (b : Bool) (m : State → Result) : Prop :=
  Function.Semiconj m (·.setFlag f b) (mapResult (·.setFlag f b))

section
variable {α β : Type} {f : Flag} {b : Bool}

/-- A sequence ignores the flag if its first part does, and its second does for every value the first part gives. -/
theorem Ignores.andThen_of_value {m : State → Res α} {k : α → State → Res β} (hm : Ignores f b m)
    (hk : ∀ v s t, m s = .ok v t → Ignores f b (k v)) : Ignores f b fun s => (m s).andThen k := by
  intro s
  show (m (s.setFlag f b)).andThen k = ((m s).andThen k).mapState _
  rw [hm s]
  cases hr : m s with
  | ok v t => exact hk v s t hr t
  | fail e => rfl

theorem Ignores.andThen {m : State → Res α} {k : α → State → Res β} (hm : Ignores f b m) (hk : ∀ v, Ignores f b (k v)) :
    Ignores f b fun s => (m s).andThen k := hm.andThen_of_value fun v _ _ _ => hk v

/-- A part that only computes the next state ignores the flag if the computation commutes with changing it. -/
theorem Ignores.ok {v : α} {u : State → State} (h : Function.Commute u (·.setFlag f b)) :
    Ignores f b fun s => .ok v (u s) := fun s => congrArg (Res.ok v) (h s)

theorem ResultIgnores.next {u : State → State} (h : Function.Commute u (·.setFlag f b)) :
    ResultIgnores f b fun s => .next (u s) := fun s => congrArg Host.Outcome.next (h s)

theorem Ignores.finish {m : State → Res Unit} (hm : Ignores f b m) : ResultIgnores f b fun s => (m s).finish := fun s =>
  (congrArg Res.finish (hm s)).trans (Res.finish_mapState _ _)

/-! ### The bus, the stack and the operands -/

theorem memRead_ignores (a : Addr) : Ignores f b (memRead a) := by
  intro s
  show memRead a (s.setFlag f b) = (memRead a s).mapState _
  unfold memRead
  rw [State.setFlag_bus]
  cases s.bus.read a <;> rfl

theorem memWrite_ignores (a : Addr) (v : Byte) : Ignores f b (memWrite a v) := by
  intro s
  show memWrite a v (s.setFlag f b) = (memWrite a v s).mapState _
  unfold memWrite
  rw [State.setFlag_bus]
  cases s.bus.write a v <;> rfl

theorem push_ignores (v : Byte) : Ignores f b (push v) := fun s =>
  (memWrite_ignores s.stackAddr v).andThen (fun _ => .ok fun _ => rfl) s

theorem pull_ignores : Ignores f b pull := fun s =>
  memRead_ignores (s.setSp (s.sp + 1)).stackAddr (s.setSp (s.sp + 1))

theorem pushWord_ignores (w : Addr) : Ignores f b (pushWord w) := (push_ignores _).andThen fun _ => push_ignores _

theorem pullWord_ignores : Ignores f b pullWord :=
  pull_ignores.andThen fun _ => pull_ignores.andThen fun _ => .ok fun _ => rfl

theorem readPair_ignores (a1 a2 : Addr) (k : Byte → Byte → Addr) : Ignores f b (readPair a1 a2 k) :=
  (memRead_ignores a1).andThen fun _ => (memRead_ignores a2).andThen fun _ => .ok fun _ => rfl

/-- Address arithmetic reads `pc`, X, Y and the parameters, no flag (R86 to R97). -/
theorem resolveAddr_ignores (m : MemOperand) : Ignores f b (resolveAddr m) := fun s => by
  cases m with
  | indX | indY | ind => exact readPair_ignores _ _ _ s
  | abs | zp | rel | zpX | zpY | absX | absY => rfl

theorem resolve_ignores (o : Operand) : Ignores f b (resolve o) := by
  cases o with
  | acc => exact fun _ => rfl
  | imm v => exact fun _ => rfl
  | mem m => exact (resolveAddr_ignores m).andThen fun _ => .ok fun _ => rfl

/-- No operand is a reference to P (R54, R86). -/
theorem ne_P_of_resolve {o : Operand} {ref : Ref} {s t : State} (h : resolve o s = .ok ref t) : ref ≠ .reg .P := by
  cases o with
  | acc => cases h; decide
  | imm v => cases h; nofun
  | mem m => obtain ⟨a, -, rfl⟩ := resolve_mem.1 h; nofun

theorem readRef_ignores {ref : Ref} (h : ref ≠ .reg .P) : Ignores f b (readRef ref) := by
  cases ref with
  | reg r => exact fun s => congrArg (Res.ok · (s.setFlag f b)) (State.get_setFlag (by simpa using h) s f b)
  | lit v => exact fun _ => rfl
  | mem a => exact memRead_ignores a

theorem writeRef_ignores {ref : Ref} (h : ref ≠ .reg .P) (v : Byte) : Ignores f b (writeRef ref v) := by
  cases ref with
  | reg r => exact .ok (State.set_commute (by simpa using h) f b v)
  | lit w => exact fun _ => rfl
  | mem a => exact memWrite_ignores a v

theorem readOperand_ignores (o : Operand) : Ignores f b (readOperand o) :=
  (resolve_ignores o).andThen_of_value fun _ _ _ h => readRef_ignores (ne_P_of_resolve h)

theorem writeOperand_ignores (o : Operand) (v : Byte) : Ignores f b (writeOperand o v) :=
  (resolve_ignores o).andThen_of_value fun _ _ _ h => writeRef_ignores (ne_P_of_resolve h) v

/-- A read-modify-write whose computation does not depend on the flag, and whose P keeps it. -/
theorem modifyOperand_ignores (o : Operand) {g : State → Byte → Byte × (Byte → Byte)}
    (hg : ∀ s v, g (s.setFlag f b) v = g s v) (hp : ∀ s v, Function.Commute (g s v).2 (setFlag · f.index b)) :
    Ignores f b (modifyOperand o g) := by
  refine (resolve_ignores o).andThen_of_value fun ref _ _ h => ?_
  refine (readRef_ignores (ne_P_of_resolve h)).andThen fun v s => ?_
  show (writeRef ref (g (s.setFlag f b) v).1 _).andThen _ = _
  rw [hg]
  exact (writeRef_ignores (ne_P_of_resolve h) _).andThen (fun _ => .ok (State.setP_commute (hp s v))) s

/-! ### The shared operations of the mnemonics -/

theorem writeFlag_ignores {g : Flag} (h : f ≠ g) (c : Bool) : ResultIgnores f b (writeFlag g c) :=
  .next (State.setP_commute (setFlag_commute h b c))

theorem storeRegister_ignores {r : Reg} (hr : r ≠ .P) (o : Operand) : ResultIgnores f b (storeRegister r o) := fun s =>
  (congrArg (fun v => (writeOperand o v (s.setFlag f b)).finish) (State.get_setFlag hr s f b)).trans
    ((writeOperand_ignores o (s.get r)).finish s)

theorem jumpTo_ignores (m : MemOperand) : ResultIgnores f b (jumpTo m) :=
  ((resolveAddr_ignores m).andThen fun _ => .ok fun _ => rfl).finish

theorem execJsr_ignores (a : Addr) : ResultIgnores f b (execJsr a) := fun s =>
  ((pushWord_ignores (s.pc - 1)).andThen fun _ => .ok fun _ => rfl).finish s

section
variable (hf : f.isCondition = false)
include hf

/-- Writing a register other than P and then N and Z. -/
theorem State.setNZ_set_commute {r : Reg} (hr : r ≠ .P) (v w : Byte) :
    Function.Commute (fun s => (s.set r v).setNZ w) (State.setFlag · f b) :=
  (State.setP_commute (setNZ_commute hf b w)).comp_left (State.set_commute hr f b v)

theorem loadRegister_ignores {r : Reg} (hr : r ≠ .P) (o : Operand) : ResultIgnores f b (loadRegister r o) :=
  ((readOperand_ignores o).andThen fun v => .ok (State.setNZ_set_commute hf hr v v)).finish

theorem combineAccumulator_ignores (op : Byte → Byte → Byte) (o : Operand) :
    ResultIgnores f b (combineAccumulator op o) := by
  refine ((readOperand_ignores o).andThen fun v t => ?_).finish
  exact congrArg (Res.ok ()) (State.setNZ_set_commute (r := .A) hf (by decide) (op t.a v) (op t.a v) t)

theorem addToAccumulator_ignores (g : Byte → Byte) (o : Operand) : ResultIgnores f b (addToAccumulator g o) := by
  refine ((readOperand_ignores o).andThen fun v t => ?_).finish
  simp only [State.flag_setFlag_condition hf b t (g := .C) rfl, State.setFlag_a]
  exact congrArg (fun p => Res.ok () ((t.setA _).setP p)) (sumFlags_commute hf b _ t.p)

theorem compareRegister_ignores {r : Reg} (hr : r ≠ .P) (o : Operand) : ResultIgnores f b (compareRegister r o) := by
  refine ((readOperand_ignores o).andThen fun v t => ?_).finish
  simp only [State.get_setFlag hr]
  exact congrArg (Res.ok ()) (State.setP_commute (compareFlags_commute hf b (t.get r) v) t)

theorem bitTest_ignores (o : Operand) : ResultIgnores f b (bitTest o) := by
  refine ((readOperand_ignores o).andThen fun v t => ?_).finish
  exact congrArg (Res.ok ()) (State.setP_commute (bitTestFlags_commute hf b t.a v) t)

theorem addToMemory_ignores (d : Byte) (o : Operand) : ResultIgnores f b (addToMemory d o) :=
  (modifyOperand_ignores o (fun _ _ => rfl) fun _ v => setNZ_commute hf b (v + d)).finish

theorem shiftOperand_ignores (g : Bool → Byte → Shifted) (o : Operand) : ResultIgnores f b (shiftOperand g o) := by
  refine (modifyOperand_ignores (g := shiftCompute g) o (fun s v => ?_) fun _ _ => shiftFlags_commute hf b _ _).finish
  simp only [shiftCompute, State.flag_setFlag_condition hf b s (g := .C) rfl]

theorem addToRegister_ignores (d : Byte) {r : Reg} (hr : r ≠ .P) : ResultIgnores f b (addToRegister d r) := fun s => by
  simp only [addToRegister, State.get_setFlag hr]
  exact congrArg Host.Outcome.next (State.setNZ_set_commute hf hr _ _ s)

theorem transferRegister_ignores {src dst : Reg} (hsrc : src ≠ .P) (hdst : dst ≠ .P) :
    ResultIgnores f b (transferRegister src dst) := fun s => by
  simp only [transferRegister, State.get_setFlag hsrc]
  exact congrArg Host.Outcome.next (State.setNZ_set_commute hf hdst _ _ s)

theorem execPla_ignores : ResultIgnores f b execPla :=
  (pull_ignores.andThen fun v => .ok (State.setNZ_set_commute (r := .A) hf (by decide) v v)).finish

theorem branchIf_ignores {g : Flag} (hg : g.isCondition = true) (c : Bool) (off : Byte) :
    ResultIgnores f b (branchIf g c off) := fun s => by
  simp only [branchIf_eq, State.flag_setFlag_condition hf b s hg]
  rfl

end

/-- Every mnemonic that neither moves the whole of P nor writes the flag ignores a flag that is no condition. -/
theorem byMnemonic_ignores {mn : Mnemonic} {o : Option Operand} (hf : f.isCondition = false)
    (hP : mn ∉ ([.PHP, .BRK, .PLP, .RTI] : List Mnemonic)) (hD : mn = .SED ∨ mn = .CLD → f ≠ .D)
    (hI : mn = .SEI ∨ mn = .CLI → f ≠ .I) : ResultIgnores f b (byMnemonic mn o) := by
  have same : ResultIgnores f b .next := fun _ => rfl
  cases mn with
  | LDA | LDX | LDY => cases o with
    | none => exact same
    | some o => exact loadRegister_ignores hf (by decide) o
  | ADC | SBC => cases o with
    | none => exact same
    | some o => exact addToAccumulator_ignores hf _ o
  | AND | ORA | EOR => cases o with
    | none => exact same
    | some o => exact combineAccumulator_ignores hf _ o
  | CMP | CPX | CPY => cases o with
    | none => exact same
    | some o => exact compareRegister_ignores hf (by decide) o
  | BIT => rcases o with _ | _ | _ | m; exacts [same, same, same, bitTest_ignores hf _]
  | INC | DEC => rcases o with _ | _ | _ | m; exacts [same, same, same, addToMemory_ignores hf _ _]
  | ASL | LSR | ROL | ROR =>
    rcases o with _ | _ | _ | m
    exacts [same, shiftOperand_ignores hf _ _, same, shiftOperand_ignores hf _ _]
  | STA | STX | STY => rcases o with _ | _ | _ | m; exacts [same, same, same, storeRegister_ignores (by decide) _]
  | INX | INY | DEX | DEY => exact addToRegister_ignores hf _ (by decide)
  | TAX | TAY | TXA | TYA | TSX => exact transferRegister_ignores hf (by decide) (by decide)
  | TXS => exact .next fun _ => rfl
  | NOP => exact same
  | SEC | CLC | CLV => exact writeFlag_ignores (Flag.ne_of_isCondition hf rfl) _
  | SED | CLD => exact writeFlag_ignores (hD (by decide)) _
  | SEI | CLI => exact writeFlag_ignores (hI (by decide)) _
  | BPL | BMI | BVC | BVS | BCC | BCS | BNE | BEQ =>
    rcases o with _ | _ | _ | m
    exacts [same, same, same, by cases m with
      | rel off => exact branchIf_ignores hf rfl _ off
      | _ => exact same]
  | JMP => rcases o with _ | _ | _ | m; exacts [same, same, same, jumpTo_ignores m]
  | JSR =>
    rcases o with _ | _ | _ | m
    exacts [same, same, same, by cases m with
      | abs a => exact execJsr_ignores a
      | _ => exact same]
  | RTS => exact (pullWord_ignores.andThen fun _ => .ok fun _ => rfl).finish
  | PHA => exact fun s => (push_ignores s.a).finish s
  | PLA => exact execPla_ignores hf
  | PHP | BRK | PLP | RTI => exact absurd (by decide) hP

end

/-- Settles O57: neither D nor I is a condition, so every mnemonic the statement speaks of ignores the flag. -/
theorem decimalAndInterruptFlagsSteerNothing : Obligations.DecimalAndInterruptFlagsSteerNothing := by
  intro i s f b hflag hP
  simp only [exec_eq_byMnemonic]
  rcases hflag with ⟨rfl, hSed, hCld⟩ | ⟨rfl, hSei, hCli⟩
  · exact byMnemonic_ignores rfl hP (fun h => absurd h (not_or.2 ⟨hSed, hCld⟩)) (fun _ => by decide) s
  · exact byMnemonic_ignores rfl hP (fun _ => by decide) (fun h => absurd h (not_or.2 ⟨hSei, hCli⟩)) s

end Sys2Proof.Machine
end

section
/-! PROOFS. What every dispatch keeps of memory and of the access history (20_memory.md R53, R59, R69), and reading and
writing through the Operand References (R54 to R58). -/

namespace Sys2Proof.Machine

/-! ### Memory and the history agree (R69) -/

/-- Where no device answers, a read answers the stored byte. -/
theorem Bus.peek_of_answer {b : Bus} {a : Addr} {v : Byte} (hk : b.kindAt a ≠ .device) (h : b.answer a = some v) :
    b.peek a = v := by
  unfold Bus.answer at h
  cases hkind : b.kindAt a <;> simp_all

/-- Where no device takes it, a completed write is the byte stored afterwards. -/
theorem Bus.write_peek_same {b b' : Bus} {a : Addr} {v : Byte} (h : b.write a v = some b')
    (hm : Memory.wf b.mem = true) (hk : b.kindAt a ≠ .device) : b'.peek a = v := by
  rcases Bus.write_eq_some h with ⟨rfl, -⟩ | ⟨-, hdevice⟩
  · exact Bus.peek_stored_same _ _ hm
  · exact absurd hdevice hk

theorem Bus.Coherent.read {b : Bus} {a : Addr} {v : Byte} (h : b.Coherent) (ha : b.answer a = some v) :
    (b.logged (.read a v)).Coherent := by
  intro c w hk hlast
  by_cases hc : c = a
  · subst hc
    have hvw : v = w := by simpa [lastByteAt] using hlast
    rw [Bus.peek_logged, ← hvw]
    exact Bus.peek_of_answer hk ha
  · exact h c w hk (by simpa [lastByteAt, hc] using hlast)

theorem Bus.Coherent.write {b b' : Bus} {a : Addr} {v : Byte} (h : b.Coherent) (hm : Memory.wf b.mem = true)
    (hw : b.write a v = some b') : b'.Coherent := by
  intro c w hk hlast
  rw [Bus.kindAt_of_map c (Bus.write_map hw)] at hk
  rw [Bus.write_log hw] at hlast
  by_cases hc : c = a
  · subst hc
    have hvw : v = w := by simpa [lastByteAt] using hlast
    exact hvw ▸ Bus.write_peek_same hw hm hk
  · rw [Bus.write_peek_other hw hm hc]
    exact h c w hk (by simpa [lastByteAt, hc] using hlast)

/-- Soundness speaks of the bus alone, and each access keeps it. -/
theorem keepsSoundness (i : Instr) : Keeps i.mnemonic i.operand State.Inv := by
  constructor
  case read => rintro t a v ha ⟨hm, hc⟩; exact ⟨hm, hc.read ha⟩
  case write => rintro - t a v b hb ⟨hm, hc⟩; exact ⟨Bus.write_wf hb hm, hc.write hm hb⟩
  all_goals intros; assumption

/-- A dispatch from a sound state ends in a sound state, whether it completes or fails. -/
theorem step_ends_sound {s : State} (h : s.Inv) : resultEnds State.Inv (step s) :=
  step_ends keepsSoundness (fun _ _ h => h) h

/-- Settles O49: no access of a dispatch breaks soundness. -/
theorem stepKeepsSoundness : Obligations.StepKeepsSoundness := by
  intro s t hs ht
  exact resultEnds_of_endsIn (step_ends_sound hs) (.inl ht)

/-! ### Which bytes can change (R53) -/

/-- A write that completes reaches no address where writes fail and no byte behind a device. -/
theorem Bus.write_peek_protected {b b' : Bus} {a c : Addr} {v : Byte} (h : b.write a v = some b')
    (hm : Memory.wf b.mem = true) (hc : b.kindAt c = .rom ∨ b.kindAt c = .unmapped ∨ b.kindAt c = .device) :
    b'.peek c = b.peek c := by
  rcases Bus.write_eq_some h with ⟨rfl, hstored⟩ | ⟨rfl, -⟩
  · have hne : c ≠ a := by rintro rfl; rcases hstored with hk | hk <;> simp [hk] at hc
    exact Bus.peek_stored_other v hm hne
  · rfl

/-- The byte at a protected address, with the canonical form and the map that protect it, survives every access. -/
theorem keepsProtectedByte (i : Instr) (s : State) {c : Addr}
    (hc : s.bus.kindAt c = .rom ∨ s.bus.kindAt c = .unmapped ∨ s.bus.kindAt c = .device) :
    Keeps i.mnemonic i.operand
      (fun t => Memory.wf t.bus.mem = true ∧ t.bus.map = s.bus.map ∧ t.peek c = s.peek c) := by
  constructor
  case write =>
    rintro - t a v b hb ⟨hm, hmap, hpeek⟩
    rw [← Bus.kindAt_of_map c hmap] at hc
    exact ⟨Bus.write_wf hb hm, (Bus.write_map hb).trans hmap, (Bus.write_peek_protected hb hm hc).trans hpeek⟩
  all_goals intros; assumption

/-- Settles O47: a completed write is at an address that stores it, so at none of these. -/
theorem readOnlyBytesNeverChange : Obligations.ReadOnlyBytesNeverChange := by
  intro s t c hm ht hc
  have hkept := step_ends (keepsProtectedByte · s hc) (fun _ _ h => h) ⟨hm, rfl, rfl⟩
  obtain ⟨-, -, hpeek⟩ := resultEnds_of_endsIn hkept ht
  exact hpeek

/-- A form that does not store leaves the whole of memory, and so whatever can be said of it. -/
theorem keepsMem {mn : Mnemonic} {o : Option Operand} (h : mayStore mn o = false) (P : List Host.Cell → Prop) :
    Keeps mn o (fun t => P t.bus.mem) := by
  constructor
  case write => intro hstore; rw [h] at hstore; contradiction
  all_goals intros; assumption

/-- Accumulator mode has one operand. -/
theorem Instr.operand_of_mode_acc {i : Instr} (h : i.mode = .acc) : i.operand = some .acc := by
  unfold Instr.mode at h
  rcases ho : i.operand with _ | _ | _ | m
  · rw [ho] at h; cases h
  · rfl
  · rw [ho] at h; cases h
  · rw [ho] at h; cases m <;> cases h

/-- The forms R53 and R111 do not list as storing. -/
theorem mayStore_eq_false {mn : Mnemonic} {o : Option Operand}
    (h : mn ∉ ([.STA, .STX, .STY, .INC, .DEC, .PHA, .PHP, .JSR, .BRK] : List Mnemonic))
    (hshift : mn ∈ ([.ASL, .LSR, .ROL, .ROR] : List Mnemonic) → o = some .acc) : mayStore mn o = false := by
  cases mn with
  | STA | STX | STY | INC | DEC | PHA | PHP | JSR | BRK => exact absurd (by decide) h
  | ASL | LSR | ROL | ROR => rw [hshift (by decide)]; rfl
  | _ => rfl

/-- Settles O43: an instruction of another form makes no write. -/
theorem otherFormsStoreNothing : Obligations.OtherFormsStoreNothing := by
  intro i s t ht hforms hshift c
  have hstore := mayStore_eq_false hforms fun h => Instr.operand_of_mode_acc (hshift h)
  have hmem := resultEnds_of_endsIn (exec_ends (keepsMem hstore (· = s.bus.mem)) rfl) ht
  exact congrArg (Memory.read · c.toNat) hmem

/-! ### The history (R69) -/

/-- What reads and moving `pc` keep, fetching operand bytes keeps. -/
theorem fetchBytes_ends {Q : State → Prop}
    (hread : ∀ s a v, s.bus.answer a = some v → Q s → Q (s.setBus (s.bus.logged (.read a v))))
    (hpc : ∀ s v, Q s → Q (s.setPc v)) (n : Nat) {s : State} (h : Q s) : (fetchBytes n s).Ends Q := by
  induction n generalizing s with
  | zero => exact h
  | succ n ih =>
    have hbyte : (fetchByte s).Ends Q := (memRead_ends hread _ h).andThen fun _ t _ ht => hpc t _ ht
    exact hbyte.andThen fun _ _ _ ht => (ih ht).andThen fun _ _ _ hu => hu

/-- What every instruction and the fetch keep, the rest of a dispatch keeps after the opcode fetch. -/
theorem step_ends_of_fetched {Q : State → Prop} {s u : State} {op : Byte} (hf : fetchByte s = .ok op u)
    (k : ∀ i : Instr, Keeps i.mnemonic i.operand Q) (hpc : ∀ s v, Q s → Q (s.setPc v)) (h : Q u) :
    resultEnds Q (step s) := by
  have hi : (fetchInstr s).Ends Q := by
    unfold fetchInstr
    rw [hf]
    exact (fetchBytes_ends (k .nop).read hpc _ h).andThen fun _ _ _ ht => by split <;> exact ht
  unfold step
  cases hs : fetchInstr s with
  | ok i t => exact exec_ends (k i) (hi.ok hs)
  | fail f => exact hi.fail hs

/-- A dispatch whose opcode cannot be read ends there (R82, R83). -/
theorem step_of_fetchByte_fail {s : State} {f : Fault} (h : fetchByte s = .fail f) : step s = .fault f := by
  unfold step fetchInstr
  rw [h]
  rfl

/-- Settles O48: every access extends the history, and an opcode fetch that completes has already done so. -/
theorem historyOnlyGrows : Obligations.HistoryOnlyGrows := by
  intro s t ht
  obtain ⟨-, hgrows⟩ :=
    resultEnds_of_endsIn (step_ends (keepsMapExtendsLog · s) (fun _ _ h => h) ⟨rfl, [], rfl⟩) ht
  refine ⟨hgrows, fun hsame => ?_⟩
  cases hf : fetchByte s with
  | fail f =>
    obtain ⟨-, rfl⟩ := fetchByte_eq_fail.1 hf
    exact step_of_fetchByte_fail hf
  | ok op u =>
    have hends := step_ends_of_fetched hf (keepsMapExtendsLog · u) (fun _ _ h => h) ⟨rfl, [], rfl⟩
    obtain ⟨-, events, hlog⟩ := resultEnds_of_endsIn hends ht
    obtain ⟨-, rfl⟩ := fetchByte_eq_ok.1 hf
    have hlen : s.bus.log.length = (events ++ .read s.pc op :: s.bus.log).length :=
      congrArg List.length (hsame.symm.trans hlog)
    simp only [List.length_append, List.length_cons] at hlen
    omega

/-! ### Operand References (R54 to R58) -/

/-- Settles O54: every fault of a dispatch is a refused access or an illegal opcode. -/
theorem literalWriteIsUnreachable : Obligations.LiteralWriteIsUnreachable := by
  intro s t h
  rcases step_fault h with ⟨a, dir, u, hbus, -⟩ | ⟨op, u, hillegal⟩
  · cases hbus
  · cases hillegal

/-- Settles O9: a register and a literal answer by definition, and a reference to memory is one bus access. -/
theorem referencesReadAndWrite : Obligations.ReferencesReadAndWrite := fun _ _ _ _ _ =>
  ⟨rfl, rfl, fun _ h => memRead_of_some h, memRead_of_none, rfl, fun _ h => memWrite_of_some h, memWrite_of_none, rfl⟩

section
variable {m : MemOperand} {s t : State} {a : Addr}

theorem resolve_of_resolveAddr_ok (h : resolveAddr m s = .ok a t) : resolve (.mem m) s = .ok (.mem a) t :=
  resolve_mem.2 ⟨a, h, rfl⟩

theorem resolve_of_resolveAddr_fail {f : Fault} (h : resolveAddr m s = .fail f) : resolve (.mem m) s = .fail f := by
  simp [resolve, h]

/-- Reading a memory operand is one read at its address, after the resolver's own (R111). -/
theorem readOperand_mem (h : resolveAddr m s = .ok a t) : readOperand (.mem m) s = memRead a t := by
  simp [readOperand, resolve_of_resolveAddr_ok h, readRef]

/-- Writing a memory operand is one write at its address, after the resolver's reads (R111, R210). -/
theorem writeOperand_mem (h : resolveAddr m s = .ok a t) (v : Byte) : writeOperand (.mem m) v s = memWrite a v t := by
  simp [writeOperand, resolve_of_resolveAddr_ok h, writeRef]

end

/-- Settles O60: a memory operand is read where it resolves, and the rest is what a reference is. -/
theorem operandIsReadWhereItResolves : Obligations.OperandIsReadWhereItResolves := by
  intro s v a m
  refine ⟨rfl, rfl, rfl, rfl, fun r t => ?_, fun f h => ?_, fun t h => ?_⟩
  · simp only [resolve_mem, and_comm]
  · exact ⟨resolve_of_resolveAddr_fail h, by simp [readOperand, resolve_of_resolveAddr_fail h]⟩
  · rw [readOperand_mem h]
    exact ⟨fun b hb => memRead_of_some hb, memRead_of_none⟩

end Sys2Proof.Machine
end

section
/-! PROOFS. Which bytes a storing instruction reaches, and with what (20_memory.md R53, R60, R61, R72, R111). -/

namespace Sys2Proof.Machine

/-! ### What a store reaches -/

/-- Memory is canonical in `t`, and no byte outside `dst` differs from `s`. -/
def ReachesOnly (dst : Addr → Prop) (s t : State) : Prop :=
  Memory.wf t.bus.mem = true ∧ ∀ c, ¬ dst c → t.peek c = s.peek c

section
variable {dst : Addr → Prop} {s t : State} {a : Addr}

theorem ReachesOnly.refl (h : Memory.wf s.bus.mem = true) : ReachesOnly dst s s := ⟨h, fun _ _ => rfl⟩

theorem ReachesOnly.memWrite (h : ReachesOnly dst s t) (ha : dst a) (v : Byte) :
    (memWrite a v t).Ends (ReachesOnly dst s) := by
  obtain ⟨hm, hpeek⟩ := h
  cases hw : Machine.memWrite a v t with
  | ok _ u =>
    obtain ⟨b, hb, rfl⟩ := memWrite_eq_ok.1 hw
    refine ⟨Bus.write_wf hb hm, fun c hc => ?_⟩
    have hne : c ≠ a := by rintro rfl; exact hc ha
    exact (Bus.write_peek_other hb hm hne).trans (hpeek c hc)
  | fail f => obtain ⟨-, rfl⟩ := memWrite_eq_fail.1 hw; exact ⟨hm, hpeek⟩

theorem ReachesOnly.memRead (h : ReachesOnly dst s t) (a : Addr) : (memRead a t).Ends (ReachesOnly dst s) :=
  memRead_ends (fun _ _ _ _ h => h) a h

theorem ReachesOnly.push (h : ReachesOnly dst s t) (ha : dst t.stackAddr) (v : Byte) :
    (push v t).Ends (ReachesOnly dst s) :=
  (h.memWrite ha v).andThen fun _ _ _ hu => hu

/-- Reads write no byte, so resolution reaches none. -/
theorem ReachesOnly.resolveAddr {m : MemOperand} (h : Memory.wf s.bus.mem = true) (hres : resolveAddr m s = .ok a t) :
    ReachesOnly dst s t :=
  (resolveAddr_ends (fun _ _ _ _ h => h) m (.refl h)).ok hres

end

/-- A form that does not store reaches no byte. -/
theorem keepsReachesOnly {mn : Mnemonic} {o : Option Operand} (h : mayStore mn o = false) (dst : Addr → Prop) (s : State) :
    Keeps mn o (ReachesOnly dst s) :=
  keepsMem h fun mem => Memory.wf mem = true ∧ ∀ c, ¬ dst c → Memory.read mem c.toNat = s.peek c

/-! ### Memory operands (R111) -/

section
variable {m : MemOperand} {s t : State} {a : Addr} (hm : Memory.wf s.bus.mem = true) (h : resolveAddr m s = .ok a t)
include hm h

theorem storeRegister_reaches (r : Reg) : resultEnds (ReachesOnly (· = a) s) (storeRegister r (.mem m) s) := by
  unfold storeRegister
  rw [writeOperand_mem h]
  exact finish_ends ((ReachesOnly.resolveAddr (dst := (· = a)) hm h).memWrite rfl _)

theorem modifyOperand_reaches (f : State → Byte → Byte × (Byte → Byte)) :
    resultEnds (ReachesOnly (· = a) s) (modifyOperand (.mem m) f s).finish := by
  rw [modifyOperand_mem h]
  have ht : ReachesOnly (· = a) s t := .resolveAddr hm h
  exact finish_ends ((ht.memRead a).andThen fun _ _ _ hu => (hu.memWrite rfl _).andThen fun _ _ _ hw => hw)

/-- A form with a memory operand, JSR's apart, changes no byte but the one its operand resolves to. -/
theorem byMnemonic_reaches {i : Instr} (ho : i.operand = some (.mem m)) (hjsr : i.mnemonic ≠ .JSR) :
    resultEnds (ReachesOnly (· = a) s) (byMnemonic i.mnemonic (some (.mem m)) s) := by
  have hparts := Instr.ofParts_parts i
  rw [ho] at hparts
  cases hmn : i.mnemonic with
  | STA | STX | STY => exact storeRegister_reaches hm h _
  | INC | DEC | ASL | LSR | ROL | ROR => exact modifyOperand_reaches hm h _
  | JSR => exact absurd hmn hjsr
  | PHA | PHP | BRK => rw [hmn] at hparts; cases hparts
  | _ => exact byMnemonic_ends (keepsReachesOnly rfl _ s) (.refl hm)

end

/-! ### The stack (R60, R61) -/

theorem StackSlot.self (s : State) : StackSlot s 0 s.stackAddr := .stackAddr rfl (by simp)

section
variable {v : Byte} {w : Addr} {s t : State} {u : Unit} {a : Addr}

/-- A push moves SP down, so every slot moves up by one as SP sees it. -/
theorem StackSlot.after_push (h : push v s = .ok u t) (k : Int) : StackSlot t (k + 1) a ↔ StackSlot s k a := by
  obtain ⟨b, -, rfl⟩ := push_eq_ok.1 h
  have hsp : ((s.sp - 1).toNat : Int) = (s.sp.toNat - 1 : Int) % 256 := sp_sub_toNat s 1 (by decide)
  unfold StackSlot
  simp only [State.setSp_cfg, State.setBus_cfg, State.setSp_sp, hsp]
  omega

theorem StackSlot.after_pushWord (h : pushWord w s = .ok u t) (k : Int) : StackSlot t (k + 2) a ↔ StackSlot s k a := by
  obtain ⟨_, t0, h1, h2⟩ := Res.andThen_eq_ok.1 h
  have htwice := (StackSlot.after_push (a := a) h2 (k + 1)).trans (StackSlot.after_push h1 k)
  rwa [show k + 1 + 1 = k + 2 by omega] at htwice

/-- Two pushes reach two slots. -/
theorem ReachesOnly.pushWord {dst : Addr → Prop} (h : ReachesOnly dst s t)
    (hslots : ∀ c, StackSlot t 0 c ∨ StackSlot t (-1) c → dst c) (w : Addr) :
    (pushWord w t).Ends (ReachesOnly dst s) := by
  refine (h.push (hslots _ (.inl (.self t))) _).andThen fun _ t0 h1 ht0 => ht0.push ?_ _
  exact hslots _ (.inr ((StackSlot.after_push h1 (-1)).1 (.self t0)))

theorem execJsr_reaches (hm : Memory.wf s.bus.mem = true) (target : Addr) :
    resultEnds (ReachesOnly (fun c => StackSlot s 0 c ∨ StackSlot s (-1) c) s) (execJsr target s) :=
  finish_ends (((ReachesOnly.refl hm).pushWord (fun _ h => h) (s.pc - 1)).andThen fun _ _ _ ht => ht)

/-- The trap entry reaches three slots: it reads its vector after the pushes (R207, R237). -/
theorem ReachesOnly.trapEntry {dst : Addr → Prop} (h : ReachesOnly dst s t)
    (hslots : ∀ c, StackSlot t 0 c ∨ StackSlot t (-1) c ∨ StackSlot t (-2) c → dst c) (ret : Addr) :
    (trapEntry ret t).Ends (ReachesOnly dst s) := by
  refine (h.pushWord (fun c hc => hslots c (hc.imp_right .inl)) ret).andThen fun _ u hu h1 => ?_
  have hslot : StackSlot t (-2) u.stackAddr := (StackSlot.after_pushWord hu (-2)).1 (.self u)
  refine (h1.push (hslots _ (.inr (.inr hslot))) _).andThen fun _ v _ h2 => ?_
  have hflag : ReachesOnly dst s (v.setFlag .I true) := h2
  exact (hflag.memRead _).andThen fun _ _ _ h3 => (h3.memRead _).andThen fun _ _ _ h4 => h4

end

/-- JSR has one form (R204). -/
theorem Instr.eq_jsr {i : Instr} (h : i.mnemonic = .JSR) : ∃ target, i = .jsr target := by
  have hparts := Instr.ofParts_parts i
  rw [h] at hparts
  rcases ho : i.operand with _ | _ | _ | m <;> rw [ho] at hparts
  case some.mem =>
    cases m with
    | abs target => cases hparts; exact ⟨target, rfl⟩
    | _ => cases hparts
  all_goals cases hparts

/-- Settles O44: each storing form reaches its resolved address or its stack slots. -/
theorem storesReachOnlyTheirAddress : Obligations.StoresReachOnlyTheirAddress := by
  intro i s t hm ht
  refine ⟨fun m a u ho hjsr hres => ?_, fun hpush => ?_, fun hjsr => ?_, fun hbrk => ?_⟩
  · rw [exec_eq_byMnemonic, ho] at ht
    exact (resultEnds_of_endsIn (byMnemonic_reaches hm hres ho hjsr) ht).2
  · have hreach : resultEnds (ReachesOnly (StackSlot s 0) s) (exec i s) := by
      rcases hpush with rfl | rfl <;> exact finish_ends ((ReachesOnly.refl hm).push (.self s) _)
    exact (resultEnds_of_endsIn hreach ht).2
  · obtain ⟨target, rfl⟩ := Instr.eq_jsr hjsr
    have hreach := resultEnds_of_endsIn (execJsr_reaches hm target) ht
    exact fun c h0 h1 => hreach.2 c (not_or.2 ⟨h0, h1⟩)
  · subst hbrk
    have hends := finish_ends ((ReachesOnly.refl hm).trapEntry (fun _ h => h) (s.pc + 1))
    have hreach := resultEnds_of_endsIn hends ht
    exact fun c h0 h1 h2 => hreach.2 c (not_or.2 ⟨h0, not_or.2 ⟨h1, h2⟩⟩)

end Sys2Proof.Machine
end

section
/-! PROOFS. A byte stored in RAM is what the next fetch reads (20_memory.md R72, 70_reset_and_hazards.md R271). -/

namespace Sys2Proof.Machine

/-- A fetch from RAM answers the byte stored there (R51, R82). -/
theorem fetchByte_of_ram {t : State} {a : Addr} {v : Byte} (hk : t.bus.kindAt a = .ram) (hv : t.peek a = v) :
    ∃ u, fetchByte (t.setPc a) = .ok v u :=
  hv ▸ ⟨_, fetchByte_of_some (s := t.setPc a) (Bus.read_stored (.inl hk))⟩

/-! ### Stores and read-modify-writes (R111) -/

section
variable {i : Instr} {m : MemOperand} {s t u : State} {a : Addr} {v : Byte}

theorem exec_of_store {r : Reg} (ho : i.operand = some (.mem m))
    (h : (i.mnemonic, r) ∈ ([(.STA, .A), (.STX, .X), (.STY, .Y)] : List (Mnemonic × Reg))) (s : State) :
    exec i s = storeRegister r (.mem m) s := by
  simp only [List.mem_cons, Prod.mk.injEq, List.not_mem_nil, or_false] at h
  rw [exec_eq_byMnemonic, ho]
  rcases h with ⟨h, rfl⟩ | ⟨h, rfl⟩ | ⟨h, rfl⟩ <;> rw [h] <;> rfl

theorem exec_of_incDec {k : Nat} (ho : i.operand = some (.mem m))
    (h : (i.mnemonic, k) ∈ ([(.INC, 1), (.DEC, 255)] : List (Mnemonic × Nat))) (s : State) :
    exec i s = addToMemory (BitVec.ofNat 8 k) (.mem m) s := by
  simp only [List.mem_cons, Prod.mk.injEq, List.not_mem_nil, or_false] at h
  rw [exec_eq_byMnemonic, ho]
  rcases h with ⟨h, rfl⟩ | ⟨h, rfl⟩ <;> rw [h] <;> rfl

theorem aslByte_toNat (c : Bool) (v : Byte) : (aslByte c v).r.toNat = 2 * v.toNat % 256 := by
  simp [aslByte, Nat.shiftLeft_eq, Nat.mul_comm]

theorem lsrByte_toNat (c : Bool) (v : Byte) : (lsrByte c v).r.toNat = v.toNat / 2 := by
  simp [lsrByte, Nat.shiftRight_eq_div_pow]

/-- The shift has emptied the bit the carry goes to, so the carry is added (R173). -/
theorem rolByte_toNat (c : Bool) (v : Byte) : (rolByte c v).r.toNat = (2 * v.toNat + c.toNat) % 256 := by
  have hdisjoint : v <<< 1 &&& carryBit c = 0 := by
    cases c
    · simp [carryBit]
    · ext k hk; simp [carryBit]; omega
  simp only [rolByte, ← BitVec.add_eq_or_of_and_eq_zero _ _ hdisjoint]
  cases c <;> simp [carryBit, Nat.shiftLeft_eq] <;> omega

/-- The shift has emptied the bit the carry goes to, so the carry is added (R174). -/
theorem rorByte_toNat (c : Bool) (v : Byte) : (rorByte c v).r.toNat = v.toNat / 2 + 128 * c.toNat := by
  have hdisjoint : v >>> 1 &&& carryBit c <<< 7 = 0 := by
    cases c
    · simp [carryBit]
    · rw [show carryBit true <<< 7 = BitVec.twoPow 8 7 from rfl, BitVec.and_twoPow]; simp
  have hv := v.isLt
  simp only [rorByte, ← BitVec.add_eq_or_of_and_eq_zero _ _ hdisjoint]
  cases c <;> simp [carryBit, Nat.shiftRight_eq_div_pow]; omega

/-- A shift of memory computes the result R171 to R174 give as a number. -/
theorem exec_of_shift {c out : Bool} {r : Byte} (ho : i.operand = some (.mem m))
    (h : ShiftResult i.mnemonic c v r out) (s : State) : ∃ f, exec i s = shiftOperand f (.mem m) s ∧ (f c v).r = r := by
  rw [exec_eq_byMnemonic, ho]
  rcases h with ⟨hmn, hr, -⟩ | ⟨hmn, hr, -⟩ | ⟨hmn, hr, -⟩ | ⟨hmn, hr, -⟩ <;> rw [hmn]
  · exact ⟨aslByte, rfl, BitVec.eq_of_toNat_eq ((aslByte_toNat c v).trans hr.symm)⟩
  · exact ⟨lsrByte, rfl, BitVec.eq_of_toNat_eq ((lsrByte_toNat c v).trans hr.symm)⟩
  · exact ⟨rolByte, rfl, BitVec.eq_of_toNat_eq ((rolByte_toNat c v).trans hr.symm)⟩
  · exact ⟨rorByte, rfl, BitVec.eq_of_toNat_eq ((rorByte_toNat c v).trans hr.symm)⟩

/-- A store that completes leaves the register's byte at its address. -/
theorem storeRegister_peek {r : Reg} (hm : Memory.wf s.bus.mem = true) (hk : s.bus.kindAt a = .ram)
    (h : resolveAddr m s = .ok a u) (ht : storeRegister r (.mem m) s = .next t) : t.peek a = s.get r := by
  unfold storeRegister at ht
  rw [writeOperand_mem h] at ht
  obtain ⟨b, hb, rfl⟩ := memWrite_eq_ok.1 (Res.finish_eq_next.1 ht)
  obtain ⟨-, hmem, hmap, -⟩ := (resolveAddr_readOnly m s).ok h
  have hku : u.bus.kindAt a = .ram := (Bus.kindAt_of_map a hmap).trans hk
  exact Bus.write_peek_same hb (hmem ▸ hm) (by simp [hku])

/-- A read-modify-write that completes leaves its result at its address. -/
theorem modifyOperand_peek {g : Bool → Byte → Byte} {fl : Byte → Bool → Byte → Byte} (hm : Memory.wf s.bus.mem = true)
    (hk : s.bus.kindAt a = .ram) (h : resolveAddr m s = .ok a u)
    (ht : (modifyOperand (.mem m) (fun u v => (g (u.flag .C) v, fun p => fl p (u.flag .C) v)) s).finish = .next t) :
    t.peek a = g (s.flag .C) (s.peek a) := by
  obtain ⟨-, hmem, hmap, -⟩ := (resolveAddr_readOnly m s).ok h
  have hku : u.bus.kindAt a = .ram := (Bus.kindAt_of_map a hmap).trans hk
  have hpu : u.bus.peek a = s.peek a := congrArg (Memory.read · a.toNat) hmem
  obtain ⟨-, hread⟩ := modifyOperand_spec hm h g fl ht.symm
  obtain ⟨-, hwrite⟩ := hread _ _ (Bus.read_stored (.inl hku))
  obtain ⟨hnext, -, hpeek, -⟩ := hwrite _ (Bus.write_ram hku)
  cases hnext
  exact hpu ▸ hpeek hk

end

/-! ### Pushes (R61, R204, R207) -/

section
variable {s t : State} {a : Addr} {v : Byte} {w : Addr} {u : Unit} (hm : Memory.wf s.bus.mem = true)
include hm

theorem push_peek_slot (h : push v s = .ok u t) (hk : s.bus.kindAt a = .ram) (ha : StackSlot s 0 a) : t.peek a = v := by
  have haddr : a = s.stackAddr := by simpa using ha.eq
  subst haddr
  obtain ⟨-, -, -, hpeek, -⟩ := push_stores h hm
  exact hpeek hk

theorem push_peek_other {k : Int} (h : push v s = .ok u t) (ha : StackSlot s k a) (hk : k % 256 ≠ 0) :
    t.peek a = s.peek a := by
  obtain ⟨-, -, -, -, hother⟩ := push_stores h hm
  exact hother a (ha.ne (.self s) hk)

theorem pushWord_peek (h : pushWord w s = .ok u t) (hk : s.bus.kindAt a = .ram) :
    (StackSlot s 0 a → t.peek a = hiByte w) ∧ (StackSlot s (-1) a → t.peek a = loByte w) := by
  obtain ⟨_, t0, h1, h2⟩ := Res.andThen_eq_ok.1 h
  obtain ⟨hm0, hmap, -, -, -⟩ := push_stores h1 hm
  refine ⟨fun ha => ?_, fun ha => ?_⟩
  · have hslot : StackSlot t0 1 a := (StackSlot.after_push h1 0).2 ha
    exact (push_peek_other hm0 h2 hslot (by decide)).trans (push_peek_slot hm h1 hk ha)
  · have hslot : StackSlot t0 0 a := (StackSlot.after_push h1 (-1)).2 ha
    exact push_peek_slot hm0 h2 ((Bus.kindAt_of_map a hmap).trans hk) hslot

theorem pushWord_keeps (h : pushWord w s = .ok u t) :
    Memory.wf t.bus.mem = true ∧ t.bus.map = s.bus.map ∧ t.p = s.p := by
  refine (pushWord_ends (Q := fun t => Memory.wf t.bus.mem = true ∧ t.bus.map = s.bus.map ∧ t.p = s.p) ?_
    (fun _ _ h => h) w ⟨hm, rfl, rfl⟩).ok h
  rintro t a v b hb ⟨hwf, hmap, hp⟩
  exact ⟨Bus.write_wf hb hwf, (Bus.write_map hb).trans hmap, hp⟩

theorem trapEntry_peek (h : trapEntry w s = .ok u t) (hk : s.bus.kindAt a = .ram) :
    (StackSlot s 0 a → t.peek a = hiByte w) ∧ (StackSlot s (-1) a → t.peek a = loByte w) ∧
    (StackSlot s (-2) a → t.peek a = pushedStatus s.p) := by
  obtain ⟨_, t1, h1, h⟩ := Res.andThen_eq_ok.1 h
  obtain ⟨_, t2, h2, h⟩ := Res.andThen_eq_ok.1 h
  obtain ⟨lo, t3, h3, h⟩ := Res.andThen_eq_ok.1 h
  obtain ⟨hi, t4, h4, h⟩ := Res.andThen_eq_ok.1 h
  obtain ⟨-, rfl⟩ := memRead_eq_ok.1 h3
  obtain ⟨-, rfl⟩ := memRead_eq_ok.1 h4
  cases h
  show (_ → t2.peek a = _) ∧ (_ → t2.peek a = _) ∧ (_ → t2.peek a = _)
  obtain ⟨hhi, hlo⟩ := pushWord_peek hm h1 hk
  obtain ⟨hm1, hmap, hp⟩ := pushWord_keeps hm h1
  refine ⟨fun ha => ?_, fun ha => ?_, fun ha => ?_⟩
  · have hslot : StackSlot t1 2 a := (StackSlot.after_pushWord h1 0).2 ha
    exact (push_peek_other hm1 h2 hslot (by decide)).trans (hhi ha)
  · have hslot : StackSlot t1 1 a := (StackSlot.after_pushWord h1 (-1)).2 ha
    exact (push_peek_other hm1 h2 hslot (by decide)).trans (hlo ha)
  · have hslot : StackSlot t1 0 a := (StackSlot.after_pushWord h1 (-2)).2 ha
    exact hp ▸ push_peek_slot hm1 h2 ((Bus.kindAt_of_map a hmap).trans hk) hslot

end

/-- An instruction that stores a byte in RAM and completes leaves that byte there. -/
theorem peek_of_storesByte {i : Instr} {s t : State} {a : Addr} {v : Byte} (hm : Memory.wf s.bus.mem = true)
    (hk : s.bus.kindAt a = .ram) (hstores : StoresByte i s a v) (ht : exec i s = .next t) : t.peek a = v := by
  rcases hstores with ⟨m, u, r, ho, hres, hmn, rfl⟩ | ⟨m, u, k, ho, hres, hmn, hv⟩ | ⟨m, u, out, ho, hres, hshift⟩ |
    ⟨rfl, hslot, rfl⟩ | ⟨rfl, hslot, rfl⟩ | ⟨hi, lo, hmn, hret, hslot⟩ | ⟨hi, lo, rfl, hret, hslot⟩
  · rw [exec_of_store ho hmn] at ht
    exact storeRegister_peek hm hk hres ht
  · rw [exec_of_incDec ho hmn] at ht
    have hpeek := modifyOperand_peek (g := fun _ w => w + BitVec.ofNat 8 k)
      (fl := fun p _ w => setNZ p (w + BitVec.ofNat 8 k)) hm hk hres ht
    rw [hpeek]
    exact BitVec.eq_of_toNat_eq (by simp [hv])
  · obtain ⟨f, hexec, hr⟩ := exec_of_shift ho hshift s
    rw [hexec] at ht
    have hpeek := modifyOperand_peek (g := fun c w => (f c w).r)
      (fl := fun p c w => shiftFlags p (f c w).r (f c w).out) hm hk hres ht
    exact hpeek.trans hr
  · exact push_peek_slot hm (Res.finish_eq_next.1 ht) hk hslot
  · exact push_peek_slot hm (Res.finish_eq_next.1 ht) hk hslot
  · obtain ⟨target, rfl⟩ := Instr.eq_jsr hmn
    obtain ⟨_, _, hres, h⟩ := Res.andThen_eq_ok.1 (Res.finish_eq_next.1 ht)
    cases hres
    obtain ⟨_, t1, hpush, hpc⟩ := Res.andThen_eq_ok.1 h
    cases hpc
    have hword : 256 * hi.toNat + lo.toNat = (s.pc - 1).toNat := by simp [BitVec.toNat_sub]; omega
    obtain ⟨rfl, rfl⟩ := bytes_of_word hword
    obtain ⟨hhi, hlo⟩ := pushWord_peek hm hpush hk
    rcases hslot with ⟨ha, rfl⟩ | ⟨ha, rfl⟩
    · exact hhi ha
    · exact hlo ha
  · have hword : 256 * hi.toNat + lo.toNat = (s.pc + 1).toNat := by simp [BitVec.toNat_add, hret]
    obtain ⟨rfl, rfl⟩ := bytes_of_word hword
    obtain ⟨hhi, hlo, hp⟩ := trapEntry_peek hm (Res.finish_eq_next.1 ht) hk
    rcases hslot with ⟨ha, rfl⟩ | ⟨ha, rfl⟩ | ⟨ha, rfl⟩
    · exact hhi ha
    · exact hlo ha
    · exact hp ha

/-- Settles O58: the byte is still RAM, and holds what was stored. -/
theorem storedByteIsFetchedNext : Obligations.StoredByteIsFetchedNext := by
  intro i s t a v hm hk hstores ht
  obtain ⟨-, hmap⟩ := resultEnds_of_endsIn (exec_ends (keepsParametersAndMap i s) ⟨rfl, rfl⟩) (.inl ht)
  exact fetchByte_of_ram ((Bus.kindAt_of_map a hmap).trans hk) (peek_of_storesByte hm hk hstores ht)

end Sys2Proof.Machine
end

section
/-! PROOFS. Encoding and decoding undo each other, and the words of the opcode map (30_encoding.md R80 to R105). -/

namespace Sys2Proof

/-- A row of the table, its operand taken and its instruction made: what decoding needs to succeed (R100). -/
theorem decode_of_parts {f : AbsIndexed} {op : Byte} {mn : Mnemonic} {mode : Mode} {o : Option Operand} {i : Instr}
    {bs rest : List Byte} (hrow : decodeTable op = .row mn mode) (htake : takeOperand f mode bs = some (o, rest))
    (hparts : Instr.ofParts mn o = some i) : decode f (op :: bs) = .ok (i, rest) := by
  simp only [decode, hrow, htake, hparts]

theorem decode_encode_append (f : AbsIndexed) {i : Instr} (rest : List Byte) (h : i.wf f = true) :
    decode f (encode f i ++ rest) = .ok (i, rest) :=
  decode_of_parts (decodeTable_opcode i) (takeOperand_bytes f i rest h) (Instr.ofParts_parts i)

theorem decode_encode (f : AbsIndexed) {i : Instr} (h : i.wf f = true) : decode f (encode f i) = .ok (i, []) := by
  simpa using decode_encode_append f [] h

theorem encode_of_decode {f : AbsIndexed} {bs rest : List Byte} {i : Instr} (h : decode f bs = .ok (i, rest)) :
    i.wf f = true ∧ bs = encode f i ++ rest := by
  cases bs with
  | nil => cases h
  | cons op bs =>
    obtain ⟨rfl, htake⟩ := decode_cons_eq_ok h
    obtain ⟨-, hwf, rfl⟩ := takeOperand_eq_some htake
    exact ⟨hwf, rfl⟩

/-! ### How many operand bytes (R84) -/

theorem Instr.operandBytes_length (f : AbsIndexed) (i : Instr) :
    (i.operandBytes f).length = i.mode.streamBytes f := by
  have hlength : (i.operandBytes f).length + 1 = 1 + i.mode.streamBytes f := encode_length f i
  omega

theorem operandCount_of_row {op : Byte} {mn : Mnemonic} {mode : Mode} (h : decodeTable op = .row mn mode)
    (f : AbsIndexed) : operandCount f op = mode.streamBytes f := by
  simp only [operandCount, h]

/-- Every mode but Implied and Accumulator takes a first operand byte (R84). -/
theorem Mode.exists_streamBytes_eq_succ {mode : Mode} (himp : mode ≠ .imp) (hacc : mode ≠ .acc) (f : AbsIndexed) :
    ∃ n, mode.streamBytes f = n + 1 := by
  cases mode with
  | imp => exact absurd rfl himp
  | acc => exact absurd rfl hacc
  | absX | absY => cases f <;> exact ⟨_, rfl⟩
  | _ => exact ⟨_, rfl⟩

/-- The modes that take a second one (R84, R94). -/
theorem Mode.streamBytes_eq_two {mode : Mode} {f : AbsIndexed}
    (h : mode = .abs ∨ mode = .ind ∨ ((mode = .absX ∨ mode = .absY) ∧ f = .twoByte)) : mode.streamBytes f = 2 := by
  rcases h with rfl | rfl | ⟨rfl | rfl, rfl⟩ <;> rfl

end Sys2Proof

namespace Sys2Proof.Machine

/-- Settles O1: the table has the instruction's row at its opcode, and its operand is taken back from its bytes. -/
theorem encodedInstructionDecodesBack : Obligations.EncodedInstructionDecodesBack :=
  fun f _ rest h => decode_encode_append f rest h

/-- Settles O2: no two opcodes have one row, and an operand's bytes are the ones it was taken from. -/
theorem decodedBytesAreTheEncoding : Obligations.DecodedBytesAreTheEncoding := fun _ _ _ _ h => encode_of_decode h

/-- Settles O4: the decoder run on each word. -/
theorem writtenOutWordsDecode : Obligations.WrittenOutWordsDecode :=
  ⟨rfl, rfl, rfl, rfl, rfl, rfl, rfl, rfl, rfl, rfl, rfl, rfl⟩

end Sys2Proof.Machine
end

section
/-! PROOFS. The fetch of an instruction: the bytes it reads, where it leaves `pc`, and how it fails (30_encoding.md R81 to
R84, R98, R103, R110). -/

namespace Sys2Proof.Machine

/-! ### The fetch in parts -/

section
variable {s t u : State} {op : Byte} {bs : List Byte} {i : Instr} {f : Fault}

theorem fetchInstr_of_decode {rest : List Byte} (hop : fetchByte s = .ok op t)
    (hbs : fetchBytes (operandCount t.cfg.absIndexed op) t = .ok bs u)
    (hdec : decode u.cfg.absIndexed (op :: bs) = .ok (i, rest)) : fetchInstr s = .ok i u := by
  simp only [fetchInstr, hop, hbs, hdec, Res.andThen_ok]

theorem fetchInstr_of_decode_error {e : DecodeError} (hop : fetchByte s = .ok op t)
    (hbs : fetchBytes (operandCount t.cfg.absIndexed op) t = .ok bs u)
    (hdec : decode u.cfg.absIndexed (op :: bs) = .error e) : fetchInstr s = .fail (.illegalOpcode op u) := by
  simp only [fetchInstr, hop, hbs, hdec, Res.andThen_ok]

theorem fetchInstr_of_fetchBytes_fail (hop : fetchByte s = .ok op t)
    (hbs : fetchBytes (operandCount t.cfg.absIndexed op) t = .fail f) : fetchInstr s = .fail f := by
  simp only [fetchInstr, hop, hbs, Res.andThen_ok, Res.andThen_fail]

theorem step_of_fetchInstr_ok (h : fetchInstr s = .ok i t) : step s = exec i t := by simp only [step, h]

theorem step_of_fetchInstr_fail (h : fetchInstr s = .fail f) : step s = .fault f := by simp only [step, h]

/-- A completed fetch is the opcode byte, then as many bytes as its mode takes, and these decode. -/
theorem fetchInstr_eq_ok (h : fetchInstr s = .ok i t) : ∃ (u : State) (bs rest : List Byte),
    fetchByte s = .ok i.opcode u ∧ fetchBytes (i.mode.streamBytes u.cfg.absIndexed) u = .ok bs t ∧
    decode t.cfg.absIndexed (i.opcode :: bs) = .ok (i, rest) := by
  obtain ⟨op, u, hop, h⟩ := Res.andThen_eq_ok.1 h
  obtain ⟨bs, v, hbs, h⟩ := Res.andThen_eq_ok.1 h
  split at h
  case h_1 j rest hdec =>
    cases h
    obtain ⟨rfl, -⟩ := decode_cons_eq_ok hdec
    rw [operandCount_opcode] at hbs
    exact ⟨u, bs, rest, hop, hbs, hdec⟩
  case h_2 => cases h

/-- A completed fetch has read as many bytes as the instruction is long, and `pc` is past them (R84, R98). -/
theorem fetchInstr_length (h : fetchInstr s = .ok i t) :
    t.bus.log.length = s.bus.log.length + i.length s.cfg.absIndexed ∧
    t.pc = s.pc + BitVec.ofNat 16 (i.length s.cfg.absIndexed) := by
  obtain ⟨u, bs, -, hop, hbs, -⟩ := fetchInstr_eq_ok h
  obtain ⟨-, hlog, hpc, -⟩ := fetchBytes_eq_ok hbs
  obtain ⟨-, rfl⟩ := fetchByte_eq_ok.1 hop
  rw [hlog, hpc]
  simp only [State.setPc_bus, State.setBus_bus, Bus.logged_log, List.length_cons, State.setPc_pc, State.setPc_cfg,
    State.setBus_cfg, Instr.length, BitVec.ofNat_add, BitVec.add_assoc]
  exact ⟨by omega, rfl⟩

/-- A fetch fails at the byte `pc` is left at, or with IllegalOpcode (R82, R103). -/
theorem fetchInstr_eq_fail (h : fetchInstr s = .fail f) :
    (∃ t, f = .busError t.pc .read t) ∨ ∃ op t, f = .illegalOpcode op t := by
  rcases Res.andThen_eq_fail.1 h with h | ⟨op, u, -, h⟩
  · obtain ⟨-, rfl⟩ := fetchByte_eq_fail.1 h
    exact .inl ⟨s, rfl⟩
  · rcases Res.andThen_eq_fail.1 h with h | ⟨bs, v, -, h⟩
    · exact .inl ⟨f.left, fetchBytes_eq_fail h⟩
    · split at h
      · cases h
      · cases h; exact .inr ⟨op, v, rfl⟩

end

/-- What reads and moving `pc` keep, fetching an instruction keeps. -/
theorem fetchInstr_ends {Q : State → Prop}
    (hread : ∀ s a v, s.bus.answer a = some v → Q s → Q (s.setBus (s.bus.logged (.read a v))))
    (hpc : ∀ s v, Q s → Q (s.setPc v)) {s : State} (h : Q s) : (fetchInstr s).Ends Q := by
  have hbyte : (fetchByte s).Ends Q := (memRead_ends hread _ h).andThen fun _ t _ ht => hpc t _ ht
  refine hbyte.andThen fun _ _ _ ht => (fetchBytes_ends hread hpc _ ht).andThen fun _ _ _ hu => ?_
  split <;> exact hu

/-- But for `pc`, a fetch leaves what reads leave. -/
theorem fetchInstr_readOnly (s : State) : (fetchInstr s).Ends fun t => ReadOnlyStep s (t.setPc s.pc) :=
  fetchInstr_ends (Q := fun t => ReadOnlyStep s (t.setPc s.pc)) (fun _ a v _ h => h.read a v) (fun _ _ h => h) (.refl s)

/-! ### Length and reads (R84, R98) -/

/-- Settles O3: an encoding, a fetch and a resolution each take what the mode says. -/
theorem lengthAndResolverReadsByMode : Obligations.LengthAndResolverReadsByMode := by
  intro f i
  refine ⟨?_, fun s t hf hfetch => ?_, fun o s r t ho hres => ?_⟩
  · rw [encode_length, Instr.length]
    cases i.mode with
    | absX | absY => cases f <;> rfl
    | _ => rfl
  · rw [encode_length, ← hf]
    exact (fetchInstr_length hfetch).1
  · rw [Instr.mode, ho]
    exact resolve_log hres

/-- Reads do not move `pc`. -/
theorem ReadOnlyStep.pc {s t : State} (h : ReadOnlyStep s t) : t.pc = s.pc := h.same.1

/-- Settles O8: the fetch moves `pc` past the instruction or leaves it at the byte that failed, and resolution leaves it. -/
theorem programCounterAfterResolution : Obligations.ProgramCounterAfterResolution := by
  refine ⟨fun s t u i o r hfetch _ hres => ?_, fun s t a dir hfetch => ?_, fun s t i o f hfetch _ hres => ?_⟩
  · exact ((resolve_readOnly o t).ok hres).pc.trans (fetchInstr_length hfetch).2
  · rcases fetchInstr_eq_fail hfetch with ⟨u, hbus⟩ | ⟨op, u, hillegal⟩
    · cases hbus; rfl
    · cases hillegal
  · exact ((resolve_readOnly o t).fail hres).pc.trans (fetchInstr_length hfetch).2

/-! ### Illegal opcodes (R102, R103) -/

/-- An opcode without a handler takes no operand byte and ends the dispatch (R103). -/
theorem step_of_illegal {s : State} {op : Byte} {b : Bus} (hread : s.bus.read s.pc = some (op, b))
    (hop : decodeTable op = .illegal) : step s = .fault (.illegalOpcode op ((s.setBus b).setPc (s.pc + 1))) := by
  have hcount (f : AbsIndexed) : operandCount f op = 0 := by simp only [operandCount, hop]
  have hdec (f : AbsIndexed) : decode f [op] = .error (.illegal op) := by simp only [decode, hop]
  exact step_of_fetchInstr_fail
    (fetchInstr_of_decode_error (fetchByte_of_some hread) (by rw [hcount]; rfl) (hdec _))

/-- Settles O5: the list is the table's, gone through once. -/
theorem illegalOpcodeEndsTheDispatch : Obligations.IllegalOpcodeEndsTheDispatch := by
  intro op illegal
  have hlist : decodeTable op = .illegal ↔ illegal := by
    unfold illegal
    clear illegal
    revert op
    decide +kernel
  exact ⟨hlist, fun _ _ hread hop => step_of_illegal hread (hlist.2 hop)⟩

/-! ### Bytes that cannot be read (R82) -/

theorem fetchBytes_succ_of_fail {s : State} {f : Fault} (h : fetchByte s = .fail f) (n : Nat) :
    fetchBytes (n + 1) s = .fail f := by
  simp only [fetchBytes, h, Res.andThen_fail]

theorem fetchBytes_succ_of_ok {s t : State} {v : Byte} (h : fetchByte s = .ok v t) (n : Nat) :
    fetchBytes (n + 1) s = (fetchBytes n t).andThen fun bs u => .ok (v :: bs) u := by
  simp only [fetchBytes, h, Res.andThen_ok]

/-- Settles O7: a byte is one read at `pc`, and the fetch fails with the first of its bytes that does. -/
theorem fetchReadsThenIncrements : Obligations.FetchReadsThenIncrements := by
  intro s
  refine ⟨fun v b hread => ?_, fun hnone => ?_, fun op b1 mn mode hread hrow => ⟨fun himp hacc hnone => ?_,
    fun hmode lo b2 hlo hnone => ?_⟩⟩
  · exact ⟨s.pc + 1, by simp [BitVec.toNat_add], fetchByte_of_some hread⟩
  · exact ⟨fetchByte_of_none hnone, step_of_fetchByte_fail (fetchByte_of_none hnone)⟩
  · refine step_of_fetchInstr_fail (fetchInstr_of_fetchBytes_fail (fetchByte_of_some hread) ?_)
    obtain ⟨n, hn⟩ := Mode.exists_streamBytes_eq_succ himp hacc s.cfg.absIndexed
    rw [operandCount_of_row hrow, State.setPc_cfg, State.setBus_cfg, hn]
    exact fetchBytes_succ_of_fail (fetchByte_of_none hnone) n
  · refine step_of_fetchInstr_fail (fetchInstr_of_fetchBytes_fail (fetchByte_of_some hread) ?_)
    rw [operandCount_of_row hrow, State.setPc_cfg, State.setBus_cfg, Mode.streamBytes_eq_two hmode,
      fetchBytes_succ_of_ok (fetchByte_of_some hlo)]
    have hpc : s.pc + 1 + 1 = s.pc + 2 := BitVec.add_assoc _ _ _
    rw [← hpc] at hnone ⊢
    exact congrArg (Res.andThen · _) (fetchBytes_succ_of_fail (fetchByte_of_none hnone) 0)

/-! ### A stored instruction is fetched (R110) -/

theorem State.afterFetch_cfg (s : State) (n : Nat) : (s.afterFetch n).cfg = s.cfg := by
  induction n generalizing s with
  | zero => rfl
  | succ n ih => exact ih _

/-- The bytes `bs` are stored and readable from `pc` on. -/
def State.Holds (s : State) (bs : List Byte) : Prop :=
  ∀ (k : Nat) (hk : k < bs.length), s.bus.Readable (s.pc + BitVec.ofNat 16 k) ∧ s.peek (s.pc + BitVec.ofNat 16 k) = bs[k]

/-- The first byte is fetched, and the rest is held where the fetch goes on (R82). -/
theorem State.Holds.fetchByte {s : State} {b : Byte} {bs : List Byte} (h : s.Holds (b :: bs)) :
    fetchByte s = .ok b (s.afterFetch 1) ∧ (s.afterFetch 1).Holds bs := by
  constructor
  · obtain ⟨hread, hpeek⟩ := h 0 (by simp)
    simp only [BitVec.add_zero, List.getElem_cons_zero] at hread hpeek
    have hfetch := fetchByte_of_some (Bus.read_stored hread)
    exact hpeek ▸ hfetch
  · intro k hk
    have hnext := h (k + 1) (by simpa using hk)
    have haddr : s.pc + BitVec.ofNat 16 (k + 1) = (s.afterFetch 1).pc + BitVec.ofNat 16 k := by
      show _ = s.pc + 1#16 + _
      rw [Nat.add_comm, BitVec.ofNat_add, BitVec.add_assoc]
    rw [haddr] at hnext
    exact hnext

theorem State.Holds.fetchBytes {s : State} {bs : List Byte} (h : s.Holds bs) :
    fetchBytes bs.length s = .ok bs (s.afterFetch bs.length) := by
  induction bs generalizing s with
  | nil => rfl
  | cons b bs ih =>
    obtain ⟨hbyte, hrest⟩ := h.fetchByte
    rw [List.length_cons, fetchBytes_succ_of_ok hbyte, ih hrest]
    rfl

/-- Where the encoding of an instruction is held, the fetch gives that instruction and reads no more than it. -/
theorem State.Holds.fetchInstr {s : State} {i : Instr} (hwf : i.wf s.cfg.absIndexed = true)
    (h : s.Holds (encode s.cfg.absIndexed i)) : fetchInstr s = .ok i (s.afterFetch (i.length s.cfg.absIndexed)) := by
  obtain ⟨hop, hrest⟩ := h.fetchByte
  have hbytes := hrest.fetchBytes
  rw [Instr.operandBytes_length, ← operandCount_opcode] at hbytes
  rw [Instr.length, Nat.add_comm, ← operandCount_opcode]
  exact fetchInstr_of_decode hop hbytes (by rw [State.afterFetch_cfg]; exact decode_encode _ hwf)

/-- Bytes that decode are held as the instruction's encoding, if all of it is readable: it is at most three bytes long. -/
theorem State.holds_encode_of_decode {s : State} {i : Instr} {rest : List Byte}
    (hread : ∀ k : Nat, k < i.length s.cfg.absIndexed → s.bus.Readable (s.pc + BitVec.ofNat 16 k))
    (hdec : decode s.cfg.absIndexed [s.peek s.pc, s.peek (s.pc + 1), s.peek (s.pc + 2)] = .ok (i, rest)) :
    s.Holds (encode s.cfg.absIndexed i) := by
  obtain ⟨-, hbytes⟩ := encode_of_decode hdec
  intro k hk
  refine ⟨hread k (by rwa [← encode_length]), ?_⟩
  have hbyte := List.getElem_of_eq hbytes.symm (i := k) (by rw [List.length_append]; omega)
  rw [List.getElem_append_left hk] at hbyte
  have hk3 : k < 3 := by
    have hlen := congrArg List.length hbytes
    simp only [List.length_append, List.length_cons, List.length_nil] at hlen
    omega
  rw [hbyte]
  interval_cases k
  · exact congrArg s.peek (BitVec.add_zero _)
  · rfl
  · rfl

/-- Settles O6: the stored bytes are the instruction's encoding, and a fetch leaves all but `pc` and the history. -/
theorem stepRunsTheDecodedInstruction : Obligations.StepRunsTheDecodedInstruction := by
  intro s i rest hread hdec
  have hwf : i.wf s.cfg.absIndexed = true := (encode_of_decode hdec).1
  have hfetch := (State.holds_encode_of_decode hread hdec).fetchInstr hwf
  exact ⟨step_of_fetchInstr_ok hfetch, (fetchInstr_length hfetch).2, ((fetchInstr_readOnly s).ok hfetch).frame.1⟩

end Sys2Proof.Machine
end

section
/-! PROOFS. What the resolver makes of each mode, and what it leaves alone (30_encoding.md R86 to R97). -/

namespace Sys2Proof.Machine

/-- Settles O12: resolving and reading an operand end, completed or failed, after reads alone. -/
theorem resolvingAndReadingWriteNothing : Obligations.ResolvingAndReadingWriteNothing := by
  intro o s t h
  refine ReadOnlyStep.frame ?_
  rcases h with ⟨r, h⟩ | ⟨f, h, rfl⟩ | ⟨v, h⟩ | ⟨f, h, rfl⟩
  · exact (resolve_readOnly o s).ok h
  · exact (resolve_readOnly o s).fail h
  · exact (readOperand_readOnly o s).ok h
  · exact (readOperand_readOnly o s).fail h

/-! ### Addresses as numbers (R91 to R96) -/

section
variable (b ix : Byte) (w : Addr)

theorem zeroPageIndexed_toNat : (zeroPageIndexed b ix).toNat = (b.toNat + ix.toNat) % 256 := by
  rw [zeroPageIndexed, zext_toNat, BitVec.toNat_add]

theorem absoluteIndexed_twoByte_toNat :
    (absoluteIndexed .twoByte w ix).toNat = (w.toNat + ix.toNat) % 65536 := by
  simp only [absoluteIndexed, BitVec.toNat_add, zext_toNat]

variable {w} in
/-- The sum of two bytes has no wrap. -/
theorem absoluteIndexed_sourceOneByte_toNat (h : w.toNat < 256) :
    (absoluteIndexed .sourceOneByte w ix).toNat = w.toNat + ix.toNat := by
  have hlow : (loByte w).toNat = w.toNat := by
    simp only [loByte, BitVec.extractLsb'_toNat, Nat.shiftRight_zero]
    omega
  have hix := ix.isLt
  simp only [absoluteIndexed, BitVec.toNat_add, zext_toNat, hlow]
  omega

theorem relative_toNat (pc : Addr) : ((pc - 1 + sext b).toNat : Int) = ((pc.toNat : Int) - 1 + b.toInt) % 65536 := by
  have hoff := sext_toNat b
  simp only [BitVec.ofNat_eq_ofNat, BitVec.toNat_add, BitVec.toNat_sub, BitVec.toNat_ofNat]
  omega

theorem combine_toNat (f : IndirectCombine) (b1 b2 : Byte) : (combine f b1 b2).toNat =
    (if f = .littleEndian then b1.toNat + 256 * b2.toNat else (b1.toNat + b2.toNat) * 256) % 65536 := by
  have h1 := b1.isLt
  have h2 := b2.isLt
  cases f with
  | littleEndian => simp only [combine, wordOf_toNat, if_true]; omega
  | sourceSum => simp [combine]

end

/-- Settles O10: each mode is one address computation, and reads nothing. -/
theorem directModesResolve : Obligations.DirectModesResolve := by
  intro s b w
  refine ⟨rfl, rfl, rfl, ⟨_, rfl, zext_toNat b⟩, ⟨_, rfl, relative_toNat b s.pc⟩,
    ⟨_, rfl, zeroPageIndexed_toNat b s.x⟩, ⟨_, rfl, zeroPageIndexed_toNat b s.y⟩, fun h => ?_, fun h hw => ?_⟩
  · refine ⟨⟨_, rfl, ?_⟩, ⟨_, rfl, ?_⟩⟩ <;> rw [h] <;> exact absoluteIndexed_twoByte_toNat _ w
  · refine ⟨⟨_, rfl, ?_⟩, ⟨_, rfl, ?_⟩⟩ <;> rw [h] <;> exact absoluteIndexed_sourceOneByte_toNat _ hw

/-! ### Pointers in the zero page (R95, R96) -/

/-- The zero-page addresses of a pointer byte and the byte after it, which wraps within the zero page. -/
theorem eq_zext_pair {q : Byte} {n : Nat} {a1 a2 : Addr} (hq : q.toNat = n % 256) (h1 : a1.toNat = n % 256)
    (h2 : a2.toNat = (n + 1) % 256) : a1 = zext q ∧ a2 = zext (q + 1) := by
  constructor <;> apply BitVec.eq_of_toNat_eq
  · rw [zext_toNat, h1, hq]
  · rw [zext_toNat, h2, BitVec.toNat_add, hq]
    exact (Nat.mod_add_mod n 256 1).symm

/-- Where a mode reads a pointer, both reads complete, or the first that fails ends the resolution. -/
theorem resolveAddr_of_readPair {m : MemOperand} {s : State} {a1 a2 : Addr} {k : Byte → Byte → Addr}
    (hm : resolveAddr m s = readPair a1 a2 k s) :
    (∀ (b1 b2 : Byte) (t u : State), memRead a1 s = .ok b1 t → memRead a2 t = .ok b2 u →
      resolveAddr m s = .ok (k b1 b2) u) ∧
    (∀ f : Fault, memRead a1 s = .fail f → resolveAddr m s = .fail f) ∧
    (∀ (b1 : Byte) (t : State) (f : Fault), memRead a1 s = .ok b1 t → memRead a2 t = .fail f →
      resolveAddr m s = .fail f) := by
  rw [hm]
  exact ⟨fun b1 b2 t u h1 h2 => readPair_eq_ok.2 ⟨b1, b2, t, h1, h2, rfl⟩,
    fun f h1 => readPair_eq_fail.2 (.inl h1), fun b1 t f h1 h2 => readPair_eq_fail.2 (.inr ⟨b1, t, h1, h2⟩)⟩

/-- Settles O11: the addresses read are zero-page addresses, and what they combine to is a number. -/
theorem indirectModesReadTheirPointer : Obligations.IndirectModesReadTheirPointer := by
  intro s p y a1 a2 ix m ha1 ha2
  cases y with
  | true =>
    obtain ⟨rfl, rfl⟩ := eq_zext_pair (Nat.mod_eq_of_lt p.isLt).symm ha1 ha2
    obtain ⟨hok, hfirst, hsecond⟩ := resolveAddr_of_readPair (rfl : resolveAddr (.indY p) s = readPair _ _ _ s)
    refine ⟨fun b1 b2 t u h1 h2 => ⟨_, hok b1 b2 t u h1 h2, ?_⟩, hfirst, hsecond⟩
    rw [BitVec.toNat_add, combine_toNat, zext_toNat, Nat.mod_add_mod, if_pos rfl]
  | false =>
    obtain ⟨rfl, rfl⟩ := eq_zext_pair (BitVec.toNat_add p s.x) ha1 ha2
    obtain ⟨hok, hfirst, hsecond⟩ := resolveAddr_of_readPair (rfl : resolveAddr (.indX p) s = readPair _ _ _ s)
    exact ⟨fun b1 b2 t u h1 h2 => ⟨_, hok b1 b2 t u h1 h2, combine_toNat _ b1 b2⟩, hfirst, hsecond⟩

end Sys2Proof.Machine
end

section
/-! PROOFS. The assembler's offset byte (30_encoding.md R92, R121). -/

namespace Sys2Proof.Machine

/-- The offset byte of a label, counted from the offset byte's own address, is the label (R92, R121). -/
theorem branchOffset_reaches {branch label : Addr} {off : Byte} (h : branchOffset branch label = some off) :
    branch + 1 + sext off = label := by
  simp only [branchOffset, Option.ite_none_right_eq_some, Option.some.injEq] at h
  obtain ⟨⟨hlow, hhigh⟩, hoff⟩ := h
  have hd : off.toInt = label.toNat - (branch.toNat + 1) := by
    rw [← hoff, BitVec.toInt_ofInt, Int.bmod_eq_of_le] <;> omega
  have hext := sext_toNat off
  apply BitVec.eq_of_toNat_eq
  simp only [BitVec.ofNat_eq_ofNat, BitVec.toNat_add, BitVec.toNat_ofNat]
  omega

/-- The eight branches, each with its flag and the value that takes it (R191 to R198). -/
theorem exec_of_branch {i : Instr} {off : Byte} {f : Flag} {b : Bool}
    (h : (i, f, b) ∈ ([(.bpl off, .N, false), (.bmi off, .N, true), (.bvc off, .V, false), (.bvs off, .V, true),
      (.bcc off, .C, false), (.bcs off, .C, true), (.bne off, .Z, false), (.beq off, .Z, true)] :
      List (Instr × Flag × Bool))) (s : State) : exec i s = branchIf f b off s := by
  simp only [List.mem_cons, Prod.mk.injEq, List.not_mem_nil, or_false] at h
  rcases h with ⟨rfl, rfl, rfl⟩ | ⟨rfl, rfl, rfl⟩ | ⟨rfl, rfl, rfl⟩ | ⟨rfl, rfl, rfl⟩ | ⟨rfl, rfl, rfl⟩ |
    ⟨rfl, rfl, rfl⟩ | ⟨rfl, rfl, rfl⟩ | ⟨rfl, rfl, rfl⟩ <;> rfl

/-- Settles O59: after the fetch the offset byte is at `pc - 1`, one past the branch's own address. -/
theorem branchOffsetReachesItsLabel : Obligations.BranchOffsetReachesItsLabel := by
  intro i s label off f b hbranch hoff htaken
  have hpc : s.pc - 2 + 1 = s.pc - 1 := by bv_omega
  rw [exec_of_branch hbranch, branchIf_eq, if_pos htaken, ← hpc, branchOffset_reaches hoff]

end Sys2Proof.Machine
end

section
/-! PROOFS. The loads (40_load.md R130 to R133). -/

namespace Sys2Proof.Machine

/-! ### Writing a register and setting N and Z from a byte (R31) -/

section
variable {r : Reg} (hr : r ≠ .P) (s : State) (v w : Byte)
include hr

theorem State.get_set_setNZ : ((s.set r v).setNZ w).get r = v := by
  cases r with
  | P => exact absurd rfl hr
  | A | X | Y | SP => rfl

/-- Only that register and the two flags change. -/
theorem Frame.set_setNZ : Frame [r] [.N, .Z] [] s ((s.set r v).setNZ w) := by
  have hset : Frame [r] [] [] s (s.set r v) :=
    ⟨fun q _ hq => by rw [State.get_set, if_neg (by simpa using hq)], fun f _ => State.flag_set s r hr v f,
      ⟨congrArg Bus.map (State.set_bus s r v), fun c _ => congrArg (Bus.peek · c) (State.set_bus s r v)⟩,
      State.set_cfg s r v, State.set_pc s r v⟩
  refine hset.setP fun f hf => ⟨List.not_mem_nil, ?_⟩
  obtain ⟨hN, hZ⟩ : f ≠ .N ∧ f ≠ .Z := by simpa using hf
  rw [getFlag_setNZ, if_neg hZ, if_neg hN]
  rfl

end

/-! ### Reading the operand first (R111) -/

theorem ReadOnlyStep.get {s t : State} (h : ReadOnlyStep s t) (r : Reg) : t.get r = s.get r := by
  rw [h.1]; cases r <;> rfl

/-- Only reads were made, whatever happened to the registers since. -/
theorem OnlyReads.of_bus_eq {s t u : State} (h : OnlyReads s t) (hbus : u.bus = t.bus) : OnlyReads s u := by
  simpa only [OnlyReads, Accesses, hbus] using h

/-- Where the operand cannot be read, only reads were made, so every register is as it was (R55, R86). -/
theorem readOperand_fail_keeps {o : Operand} {s : State} {f : Fault} (h : readOperand o s = .fail f) (r : Reg) :
    IsReadError f ∧ f.left.get r = s.get r ∧ f.left.p = s.p ∧ f.left.pc = s.pc := by
  have hreads : ReadOnlyStep s f.left := (readOperand_readOnly o s).fail h
  exact ⟨readOperand_isReadError h, hreads.get r, hreads.get .P, hreads.pc⟩

/-! ### The loads -/

theorem loadRegister_of_ok {o : Operand} {s t : State} {v : Byte} (h : readOperand o s = .ok v t) (r : Reg) :
    loadRegister r o s = .next ((t.set r v).setNZ v) := by
  simp only [loadRegister, h, Res.andThen_ok, Res.finish_ok]

theorem loadRegister_of_fail {o : Operand} {s : State} {f : Fault} (h : readOperand o s = .fail f) (r : Reg) :
    loadRegister r o s = .fault f := by
  simp only [loadRegister, h, Res.andThen_fail, Res.finish_fail]

/-- Every row of the three mnemonics loads its own register, which is not P (R131 to R133). -/
theorem exec_of_load {i : Instr} {r : Reg} {o : Operand} (ho : i.operand = some o)
    (h : (i.mnemonic, r) ∈ ([(.LDA, .A), (.LDX, .X), (.LDY, .Y)] : List (Mnemonic × Reg))) (s : State) :
    exec i s = loadRegister r o s ∧ r ≠ .P := by
  simp only [List.mem_cons, Prod.mk.injEq, List.not_mem_nil, or_false] at h
  rw [exec_eq_byMnemonic, ho]
  rcases h with ⟨h, rfl⟩ | ⟨h, rfl⟩ | ⟨h, rfl⟩ <;> rw [h] <;> exact ⟨rfl, by decide⟩

/-- Settles O15: reading the operand changes nothing but the access history, and the load then writes one register and N
and Z; a failing read ends the load. -/
theorem loadsCopyTheOperandAndSetNZ : Obligations.LoadsCopyTheOperandAndSetNZ := by
  refine ⟨hasForms_of_scan (by decide +kernel) (by decide), hasForms_of_scan (by decide +kernel) (by decide),
    hasForms_of_scan (by decide +kernel) (by decide), fun i r o s hload ho => ?_⟩
  obtain ⟨hexec, hr⟩ := exec_of_load ho hload s
  rw [hexec]
  refine ⟨fun v t h => ?_, fun f h => ⟨loadRegister_of_fail h r, readOperand_fail_keeps h r⟩⟩
  have hreads : ReadOnlyStep s t := (readOperand_readOnly o s).ok h
  have hbus : ((t.set r v).setNZ v).bus = t.bus := State.set_bus t r v
  refine ⟨_, loadRegister_of_ok h r, State.get_set_setNZ hr t v v, by simp [State.flag_setNZ], by simp [State.flag_setNZ],
    (Frame.set_setNZ hr t v v).afterReads hreads, hbus, hreads.2.of_bus_eq hbus⟩

end Sys2Proof.Machine
end

section
/-! PROOFS. The increments and decrements (41_incdec.md R140 to R145). -/

namespace Sys2Proof.Machine

/-! ### Modes that read no pointer resolve (R91 to R94) -/

theorem resolveAddr_of_no_pointer {m : MemOperand} (h : m.mode ∉ ([.indX, .indY, .ind] : List Mode)) (s : State) :
    ∃ a : Addr, resolveAddr m s = .ok a s := by
  cases m with
  | indX | indY | ind => exact absurd h (by simp [MemOperand.mode])
  | abs | zp | rel | zpX | zpY | absX | absY => exact ⟨_, rfl⟩

/-- The rows of a mnemonic fix the modes of its operands. -/
theorem HasForms.resolves {mn : Mnemonic} {forms : List (Byte × Mode)} (h : HasForms mn forms)
    (hmodes : ∀ e ∈ forms, e.2 ∉ ([.indX, .indY, .ind] : List Mode)) {i : Instr} {m : MemOperand}
    (hi : i.mnemonic = mn) (ho : i.operand = some (.mem m)) (s : State) : ∃ a : Addr, resolveAddr m s = .ok a s := by
  obtain ⟨hrows, -⟩ := h
  have hmode : i.mode = m.mode := by rw [Instr.mode, ho]; rfl
  exact resolveAddr_of_no_pointer (hmode ▸ hmodes _ (hrows i hi)) s

/-! ### N and Z written last (R31, R111) -/

theorem Frame.setP_setNZ {rs : List Reg} {as : List Addr} {s t : State} (h : Frame rs [] as s t) (v : Byte) :
    Frame rs [.N, .Z] as s (t.setP (setNZ s.p v)) := by
  have hflags : KeepsFlags [] s t := h.2.1
  refine h.setP fun f hf => ⟨List.not_mem_nil, ?_⟩
  obtain ⟨hN, hZ⟩ : f ≠ .N ∧ f ≠ .Z := by simpa using hf
  rw [getFlag_setNZ, if_neg hZ, if_neg hN]
  exact (hflags f List.not_mem_nil).symm

/-! ### Memory (R140, R141) -/

/-- A byte is determined by its number, so the sum mod 2^8 is the model's sum. -/
theorem eq_add_ofNat {r v : Byte} {k : Nat} (h : r.toNat = (v.toNat + k) % 256) : r = v + BitVec.ofNat 8 k :=
  BitVec.eq_of_toNat_eq (by rw [h, BitVec.toNat_add, BitVec.toNat_ofNat]; exact (Nat.add_mod_mod _ _ _).symm)

/-- Settles O23: INC and DEC are one read-modify-write at an address that needs no pointer, and N and Z are all it writes
in P. -/
theorem memoryIncrementsAndDecrements : Obligations.MemoryIncrementsAndDecrements := by
  have hINC : HasForms .INC [(0xE6, .zp), (0xF6, .zpX), (0xEE, .abs), (0xFE, .absX)] :=
    hasForms_of_scan (by decide +kernel) (by decide)
  have hDEC : HasForms .DEC [(0xC6, .zp), (0xD6, .zpX), (0xCE, .abs), (0xDE, .absX)] :=
    hasForms_of_scan (by decide +kernel) (by decide)
  refine ⟨hINC, hDEC, fun i k m s hmn ho hwf => ⟨?_, fun a t h => ?_⟩⟩
  · obtain hi | hi : i.mnemonic = .INC ∨ i.mnemonic = .DEC := by
      simp only [List.mem_cons, Prod.mk.injEq, List.not_mem_nil, or_false] at hmn
      exact hmn.imp And.left And.left
    · exact hINC.resolves (by decide) hi ho s
    · exact hDEC.resolves (by decide) hi ho s
  · obtain ⟨hunread, hread⟩ := modifyOperand_spec hwf h (fun _ v => v + BitVec.ofNat 8 k)
      (fun p _ v => setNZ p (v + BitVec.ofNat 8 k)) (exec_of_incDec ho hmn s)
    refine ⟨hunread, fun v r b1 hv hr => ?_⟩
    obtain rfl := eq_add_ofNat hr
    obtain ⟨hrefused, hwritten⟩ := hread v b1 hv
    refine ⟨hrefused, fun b2 hw => ?_⟩
    obtain ⟨hnext, hframe, hpeek, haccesses⟩ := hwritten b2 hw
    exact ⟨_, hnext, by simp [State.flag_setP, getFlag_setNZ], by simp [State.flag_setP, getFlag_setNZ],
      hframe.setP_setNZ _, hpeek, rfl, haccesses⟩

/-! ### Index registers (R142 to R145) -/

/-- The four instructions, each with its register, which is not P, and what it adds. -/
theorem exec_of_registerIncDec {i : Instr} {r : Reg} {k : Nat}
    (h : (i, r, k) ∈ ([(.inx, .X, 1), (.iny, .Y, 1), (.dex, .X, 255), (.dey, .Y, 255)] : List (Instr × Reg × Nat)))
    (s : State) : exec i s = addToRegister (BitVec.ofNat 8 k) r s ∧ r ≠ .P := by
  simp only [List.mem_cons, Prod.mk.injEq, List.not_mem_nil, or_false] at h
  rcases h with ⟨rfl, rfl, rfl⟩ | ⟨rfl, rfl, rfl⟩ | ⟨rfl, rfl, rfl⟩ | ⟨rfl, rfl, rfl⟩ <;> exact ⟨rfl, by decide⟩

/-- Settles O22: one register and N and Z are written, and the bus is not part of it. -/
theorem registerIncrementsAndDecrements : Obligations.RegisterIncrementsAndDecrements := by
  refine ⟨hasForms_of_scan (by decide +kernel) (by decide), hasForms_of_scan (by decide +kernel) (by decide),
    hasForms_of_scan (by decide +kernel) (by decide), hasForms_of_scan (by decide +kernel) (by decide),
    fun i r k s h => ?_⟩
  obtain ⟨hexec, hr⟩ := exec_of_registerIncDec h s
  have hget := State.get_set_setNZ hr s (s.get r + BitVec.ofNat 8 k) (s.get r + BitVec.ofNat 8 k)
  refine ⟨_, hexec, ?_, ?_, ?_, Frame.set_setNZ hr s _ _, State.set_bus s r _⟩ <;> rw [hget]
  · rw [BitVec.toNat_add, BitVec.toNat_ofNat]
    exact Nat.add_mod_mod _ _ _
  · simp [State.flag_setNZ]
  · simp [State.flag_setNZ]

end Sys2Proof.Machine
end

section
/-! PROOFS. The flag instructions (42_flag.md R150 to R157). -/

namespace Sys2Proof.Machine

/-- Writing a flag changes that flag alone (R28, R150). -/
theorem Frame.setFlag (s : State) (f : Flag) (b : Bool) : Frame [] [f] [] s (s.setFlag f b) := by
  refine ⟨fun r hr _ => State.get_setFlag hr s f b, fun g hg => ?_, ⟨rfl, fun _ _ => rfl⟩, rfl, rfl⟩
  rw [State.flag_setFlag, if_neg (List.ne_of_not_mem_cons hg)]

/-- The seven instructions, each with its flag and the value it gives it (R151 to R157). -/
theorem exec_of_flagInstr {i : Instr} {f : Flag} {b : Bool}
    (h : (i, f, b) ∈ ([(.sec, .C, true), (.sed, .D, true), (.sei, .I, true), (.clc, .C, false), (.cld, .D, false),
      (.cli, .I, false), (.clv, .V, false)] : List (Instr × Flag × Bool))) (s : State) :
    exec i s = .next (s.setFlag f b) := by
  simp only [List.mem_cons, Prod.mk.injEq, List.not_mem_nil, or_false] at h
  rcases h with ⟨rfl, rfl, rfl⟩ | ⟨rfl, rfl, rfl⟩ | ⟨rfl, rfl, rfl⟩ | ⟨rfl, rfl, rfl⟩ | ⟨rfl, rfl, rfl⟩ |
    ⟨rfl, rfl, rfl⟩ | ⟨rfl, rfl, rfl⟩ <;> rfl

/-- Settles O14: each instruction is one `set_flag`, which reads back as written and reaches neither another flag nor the
bus. -/
theorem flagInstructionsWriteOneFlag : Obligations.FlagInstructionsWriteOneFlag := by
  refine ⟨hasForms_of_scan (by decide +kernel) (by decide), hasForms_of_scan (by decide +kernel) (by decide),
    hasForms_of_scan (by decide +kernel) (by decide), hasForms_of_scan (by decide +kernel) (by decide),
    hasForms_of_scan (by decide +kernel) (by decide), hasForms_of_scan (by decide +kernel) (by decide),
    hasForms_of_scan (by decide +kernel) (by decide), fun i f b s h => ?_⟩
  have hflag : (s.setFlag f b).flag f = b := by rw [State.flag_setFlag, if_pos rfl]
  exact ⟨s.setFlag f b, exec_of_flagInstr h s, hflag, Frame.setFlag s f b, State.setFlag_bus s f b⟩

end Sys2Proof.Machine
end

section
/-! PROOFS. Additive arithmetic (43_arith.md R160 to R162). -/

namespace Sys2Proof.Machine

/-! ### The adder (R160) -/

theorem and_signBit_ne_zero (x : Byte) : x &&& 0x80 ≠ 0 ↔ x.msb = true := by
  have hmask : (0x80 : Byte) = BitVec.twoPow 8 7 := rfl
  rw [hmask, BitVec.and_twoPow, BitVec.msb_eq_getLsbD_last]
  cases x.getLsbD 7 <;> decide

/-- V in the words of R160: both inputs share a sign that the result lacks. -/
theorem add8_v_iff_msb (a b : Byte) (c : Bool) :
    (add8 a b c).v = true ↔ a.msb = b.msb ∧ (add8 a b c).r.msb ≠ a.msb := by
  have hv : (add8 a b c).v = true ↔ ((a ^^^ (add8 a b c).r) &&& (b ^^^ (add8 a b c).r)).msb = true :=
    decide_eq_true_iff.trans (and_signBit_ne_zero _)
  rw [hv, BitVec.msb_and, BitVec.msb_xor, BitVec.msb_xor]
  cases a.msb <;> cases b.msb <;> cases (add8 a b c).r.msb <;> decide

/-- Settles O16: sum and carry are the model's numbers, and a shared sign is lost exactly when the signed sum is out of
range. -/
theorem adderCarryAndOverflow : Obligations.AdderCarryAndOverflow := by
  intro a b c
  have hr : (add8 a b c).r.toNat = (a.toNat + b.toNat + c.toNat) % 256 := BitVec.toNat_ofNat _ _
  refine ⟨hr, rfl, ?_⟩
  have hc : c.toNat ≤ 1 := Bool.toNat_le c
  simp only [add8_v_iff_msb, BitVec.msb_eq_decide, hr, BitVec.toInt_eq_toNat_cond, ne_eq, decide_eq_decide]
  omega

/-- Adding the complement is subtracting with an inverted borrow, in the unsigned and in the signed reading (R162). -/
theorem add8_not_subtracts (a m : Byte) (c : Bool) :
    ((add8 a (~~~m) c).r.toNat : Int) = ((a.toNat : Int) - m.toNat - (1 - c.toNat)) % 256 ∧
    ((add8 a (~~~m) c).c = true ↔ (a.toNat : Int) - m.toNat - (1 - c.toNat) ≥ 0) ∧
    ((add8 a (~~~m) c).v = true ↔
      a.toInt - m.toInt - (1 - c.toNat) < -128 ∨ a.toInt - m.toInt - (1 - c.toNat) > 127) := by
  obtain ⟨hr, hc, hv⟩ := adderCarryAndOverflow a (~~~m) c
  have hm : m.toNat < 256 := m.isLt
  have hnot : (~~~m).toNat = 255 - m.toNat := BitVec.toNat_not
  have hsigned : (~~~m).toInt = -m.toInt - 1 := by
    simp only [BitVec.toInt_eq_toNat_cond, hnot]
    omega
  refine ⟨?_, ?_, ?_⟩
  · rw [hr, hnot]; omega
  · rw [hc, hnot, decide_eq_true_iff]; omega
  · rw [hv, hsigned]; omega

/-! ### Adding into the accumulator (R111, R161, R162) -/

/-- Only A and the four flags of an addition change. -/
theorem Frame.setA_sumFlags (s : State) (x : Sum8) :
    Frame [.A] [.C, .V, .N, .Z] [] s ((s.setA x.r).setP (sumFlags s.p x)) := by
  have hset : Frame [.A] [] [] s (s.setA x.r) :=
    ⟨fun q _ hq => by rw [← State.set_A, State.get_set, if_neg (by simpa using hq)], fun _ _ => rfl,
      ⟨rfl, fun _ _ => rfl⟩, rfl, rfl⟩
  refine hset.setP fun f hf => ⟨List.not_mem_nil, ?_⟩
  obtain ⟨hC, hV, hN, hZ⟩ : f ≠ .C ∧ f ≠ .V ∧ f ≠ .N ∧ f ≠ .Z := by simpa using hf
  rw [getFlag_sumFlags, if_neg hZ, if_neg hN, if_neg hV, if_neg hC]
  rfl

/-- All that adding `g m` into A does, for the operand m: the adder's outputs in A and four flags after reads alone, or the
read's error with nothing written. -/
theorem addToAccumulator_spec (g : Byte → Byte) (o : Operand) (s : State) :
    (∀ (m : Byte) (t : State), readOperand o s = .ok m t →
      ∃ u : State, addToAccumulator g o s = .next u ∧
        u.a = (add8 s.a (g m) (s.flag .C)).r ∧ u.flag .C = (add8 s.a (g m) (s.flag .C)).c ∧
        u.flag .V = (add8 s.a (g m) (s.flag .C)).v ∧ u.flag .N = u.a.msb ∧ u.flag .Z = decide (u.a = 0) ∧
        Frame [.A] [.C, .V, .N, .Z] [] s u ∧ u.bus = t.bus ∧ OnlyReads s u) ∧
    (∀ f : Fault, readOperand o s = .fail f →
      addToAccumulator g o s = .fault f ∧ IsReadError f ∧ f.left.a = s.a ∧ f.left.p = s.p ∧ f.left.pc = s.pc) := by
  refine ⟨fun m t h => ?_, fun f h => ⟨?_, readOperand_fail_keeps h .A⟩⟩
  · have hreads : ReadOnlyStep s t := (readOperand_readOnly o s).ok h
    have ha : t.a = s.a := hreads.get .A
    have hflag : t.flag .C = s.flag .C := congrArg (getFlag · Flag.C.index) (hreads.get .P)
    rw [← ha, ← hflag]
    have hnext : addToAccumulator g o s = .next ((t.setA (add8 t.a (g m) (t.flag .C)).r).setP
        (sumFlags t.p (add8 t.a (g m) (t.flag .C)))) := by
      simp only [addToAccumulator, h, Res.andThen_ok, Res.finish_ok]
    exact ⟨_, hnext, rfl, getFlag_sumFlags t.p _ .C, getFlag_sumFlags t.p _ .V, getFlag_sumFlags t.p _ .N,
      getFlag_sumFlags t.p _ .Z, (Frame.setA_sumFlags t _).afterReads hreads, rfl, hreads.2.of_bus_eq rfl⟩
  · simp only [addToAccumulator, h, Res.andThen_fail, Res.finish_fail]

/-! ### ADC and SBC -/

/-- Settles O17: every row adds the operand as it is, and the adder never looks at D. -/
theorem adcAddsOperandAndCarry : Obligations.AdcAddsOperandAndCarry := by
  refine ⟨hasForms_of_scan (by decide +kernel) (by decide), fun i o s hi ho => ?_⟩
  have hexec : exec i s = addToAccumulator (fun m => m) o s := by rw [exec_eq_byMnemonic, ho, hi]; rfl
  obtain ⟨hok, hfail⟩ := addToAccumulator_spec (fun m => m) o s
  rw [hexec]
  refine ⟨fun m t h => ?_, hfail⟩
  obtain ⟨u, hnext, ha, hC, hV, hrest⟩ := hok m t h
  obtain ⟨hsum, hcarry, hoverflow⟩ := adderCarryAndOverflow s.a m (s.flag .C)
  exact ⟨u, hnext, ha ▸ hsum, hC.trans hcarry, hV ▸ hoverflow, hrest⟩

/-- Settles O18: every row adds the operand's complement, which is to subtract it. -/
theorem sbcSubtractsOperandAndBorrow : Obligations.SbcSubtractsOperandAndBorrow := by
  refine ⟨hasForms_of_scan (by decide +kernel) (by decide), fun i o s hi ho => ?_⟩
  have hexec : exec i s = addToAccumulator (fun m => ~~~m) o s := by rw [exec_eq_byMnemonic, ho, hi]; rfl
  obtain ⟨hok, hfail⟩ := addToAccumulator_spec (fun m => ~~~m) o s
  rw [hexec]
  refine ⟨fun m t h => ?_, hfail⟩
  obtain ⟨u, hnext, ha, hC, hV, hrest⟩ := hok m t h
  obtain ⟨hdifference, hborrow, hoverflow⟩ := add8_not_subtracts s.a m (s.flag .C)
  exact ⟨u, hnext, ha ▸ hdifference, hC ▸ hborrow, hV ▸ hoverflow, hrest⟩

end Sys2Proof.Machine
end

section
/-! PROOFS. Logic (44_logic.md R165 to R167). -/

namespace Sys2Proof.Machine

/-! ### Combining into the accumulator (R111) -/

/-- All that combining the operand into A by `op` does: the result in A, N and Z after reads alone, or the read's error with
nothing written. -/
theorem combineAccumulator_spec (op : Byte → Byte → Byte) (o : Operand) (s : State) :
    (∀ (m : Byte) (t : State), readOperand o s = .ok m t →
      ∃ u : State, combineAccumulator op o s = .next u ∧ u.a = op s.a m ∧
        u.flag .N = u.a.msb ∧ u.flag .Z = decide (u.a = 0) ∧
        Frame [.A] [.N, .Z] [] s u ∧ u.bus = t.bus ∧ OnlyReads s u) ∧
    (∀ f : Fault, readOperand o s = .fail f →
      combineAccumulator op o s = .fault f ∧ IsReadError f ∧ f.left.a = s.a ∧ f.left.p = s.p ∧ f.left.pc = s.pc) := by
  refine ⟨fun m t h => ?_, fun f h => ⟨?_, readOperand_fail_keeps h .A⟩⟩
  · have hreads : ReadOnlyStep s t := (readOperand_readOnly o s).ok h
    have ha : t.a = s.a := hreads.get .A
    have hnext : combineAccumulator op o s = .next ((t.set .A (op t.a m)).setNZ (op t.a m)) := by
      simp only [combineAccumulator, h, Res.andThen_ok, Res.finish_ok, State.set_A]
    have hA : Reg.A ≠ .P := by decide
    rw [← ha]
    exact ⟨_, hnext, State.get_set_setNZ hA t _ _, State.flag_setNZ _ _ .N, State.flag_setNZ _ _ .Z,
      (Frame.set_setNZ hA t _ _).afterReads hreads, rfl, hreads.2.of_bus_eq rfl⟩
  · simp only [combineAccumulator, h, Res.andThen_fail, Res.finish_fail]

/-! ### AND, ORA and EOR -/

/-- Every row of the three mnemonics combines by the byte operation that acts on each bit as `g` does (R165 to R167). -/
theorem exec_of_logical {i : Instr} {g : Bool → Bool → Bool} {o : Operand} (ho : i.operand = some o)
    (h : (i.mnemonic = .AND ∧ g = (fun a m => a && m)) ∨ (i.mnemonic = .ORA ∧ g = (fun a m => a || m)) ∨
      (i.mnemonic = .EOR ∧ g = (fun a m => a ^^ m))) (s : State) :
    ∃ op : Byte → Byte → Byte, exec i s = combineAccumulator op o s ∧
      ∀ (a m : Byte) (k : Nat), (op a m).getLsbD k = g (a.getLsbD k) (m.getLsbD k) := by
  rw [exec_eq_byMnemonic, ho]
  obtain ⟨h, rfl⟩ | ⟨h, rfl⟩ | ⟨h, rfl⟩ := h <;> rw [h]
  · exact ⟨(· &&& ·), rfl, fun _ _ _ => BitVec.getLsbD_and⟩
  · exact ⟨(· ||| ·), rfl, fun _ _ _ => BitVec.getLsbD_or⟩
  · exact ⟨(· ^^^ ·), rfl, fun _ _ _ => BitVec.getLsbD_xor⟩

/-- Settles O19: every row combines A and the operand by one byte operation, which acts on each bit alone. -/
theorem logicalInstructionsCombineIntoA : Obligations.LogicalInstructionsCombineIntoA := by
  refine ⟨hasForms_of_scan (by decide +kernel) (by decide), hasForms_of_scan (by decide +kernel) (by decide),
    hasForms_of_scan (by decide +kernel) (by decide), fun i o s g hlogical ho => ?_⟩
  obtain ⟨op, hexec, hbits⟩ := exec_of_logical ho hlogical s
  obtain ⟨hok, hfail⟩ := combineAccumulator_spec op o s
  rw [hexec]
  refine ⟨fun m t h => ?_, hfail⟩
  obtain ⟨u, hnext, ha, hrest⟩ := hok m t h
  exact ⟨u, hnext, fun k _ => ha ▸ hbits s.a m k, hrest⟩

end Sys2Proof.Machine
end

section
/-! PROOFS. The shifts and rotates (45_shift.md R170 to R174). -/

namespace Sys2Proof.Machine

/-! ### The four byte operations (R171 to R174) -/

/-- The numbers of R171 to R174 leave no choice of the result or of the bit shifted out. -/
theorem ShiftResult.unique {mn : Mnemonic} {c : Bool} {v r r' : Byte} {out out' : Bool} (h : ShiftResult mn c v r out)
    (h' : ShiftResult mn c v r' out') : r = r' ∧ out = out' := by
  rcases h with ⟨rfl, hr, hout⟩ | ⟨rfl, hr, hout⟩ | ⟨rfl, hr, hout⟩ | ⟨rfl, hr, hout⟩ <;>
  · simp only [ShiftResult, reduceCtorEq, false_and, true_and, or_false, false_or] at h'
    obtain ⟨hr', hout'⟩ := h'
    exact ⟨BitVec.eq_of_toNat_eq (hr.trans hr'.symm), hout.trans hout'.symm⟩

/-- Each of the four mnemonics applies one byte operation, with the numbers of R171 to R174, to A or to memory. -/
theorem byMnemonic_of_shift {mn : Mnemonic} (h : mn ∈ ([.ASL, .LSR, .ROL, .ROR] : List Mnemonic)) (s : State) :
    ∃ f : Bool → Byte → Shifted,
      byMnemonic mn (some .acc) s = shiftOperand f .acc s ∧
      (∀ m : MemOperand, byMnemonic mn (some (.mem m)) s = shiftOperand f (.mem m) s) ∧
      ∀ (c : Bool) (v : Byte), ShiftResult mn c v (f c v).r (f c v).out := by
  simp only [List.mem_cons, List.not_mem_nil, or_false] at h
  rcases h with rfl | rfl | rfl | rfl
  · exact ⟨aslByte, rfl, fun _ => rfl, fun c v => .inl ⟨rfl, aslByte_toNat c v, rfl⟩⟩
  · exact ⟨lsrByte, rfl, fun _ => rfl, fun c v => .inr (.inl ⟨rfl, lsrByte_toNat c v, rfl⟩)⟩
  · exact ⟨rolByte, rfl, fun _ => rfl, fun c v => .inr (.inr (.inl ⟨rfl, rolByte_toNat c v, rfl⟩))⟩
  · exact ⟨rorByte, rfl, fun _ => rfl, fun c v => .inr (.inr (.inr ⟨rfl, rorByte_toNat c v, rfl⟩))⟩

/-! ### C, N and Z written last (R111, R170) -/

theorem Frame.setP_shiftFlags {rs : List Reg} {as : List Addr} {s t : State} (h : Frame rs [] as s t) (r : Byte)
    (out : Bool) : Frame rs [.C, .N, .Z] as s (t.setP (shiftFlags s.p r out)) := by
  have hflags : KeepsFlags [] s t := h.2.1
  refine h.setP fun f hf => ⟨List.not_mem_nil, ?_⟩
  obtain ⟨hC, hN, hZ⟩ : f ≠ .C ∧ f ≠ .N ∧ f ≠ .Z := by simpa using hf
  rw [getFlag_shiftFlags, if_neg hZ, if_neg hN, if_neg hC]
  exact (hflags f List.not_mem_nil).symm

/-! ### The accumulator -/

theorem Frame.setA (s : State) (v : Byte) : Frame [.A] [] [] s (s.setA v) :=
  ⟨fun r _ hr => by rw [← State.set_A, State.get_set, if_neg (by simpa using hr)], fun _ _ => rfl,
    ⟨rfl, fun _ _ => rfl⟩, rfl, rfl⟩

/-- On A there is no access that could fail. -/
theorem shiftOperand_acc (f : Bool → Byte → Shifted) (s : State) :
    shiftOperand f .acc s = .next ((s.setA (f (s.flag .C) s.a).r).setP
      (shiftFlags s.p (f (s.flag .C) s.a).r (f (s.flag .C) s.a).out)) := rfl

theorem parts_of_accumulatorShift {i : Instr} (h : i ∈ ([.aslA, .lsrA, .rolA, .rorA] : List Instr)) :
    i.operand = some .acc ∧ i.mnemonic ∈ ([.ASL, .LSR, .ROL, .ROR] : List Mnemonic) := by
  simp only [List.mem_cons, List.not_mem_nil, or_false] at h
  rcases h with rfl | rfl | rfl | rfl <;> exact ⟨rfl, by decide⟩

/-- Settles O24: the byte operation is applied to A and the old carry, and its two outputs are all that is written. -/
theorem accumulatorShifts : Obligations.AccumulatorShifts := by
  intro i s r out hi hshift
  obtain ⟨ho, hmn⟩ := parts_of_accumulatorShift hi
  obtain ⟨f, hacc, -, hnumbers⟩ := byMnemonic_of_shift hmn s
  have hexec : exec i s = shiftOperand f .acc s := by rw [exec_eq_byMnemonic, ho, hacc]
  obtain ⟨rfl, rfl⟩ := (hnumbers (s.flag .C) s.a).unique hshift
  exact ⟨_, hexec.trans (shiftOperand_acc f s), rfl, getFlag_shiftFlags s.p _ _ .C, getFlag_shiftFlags s.p _ _ .N,
    getFlag_shiftFlags s.p _ _ .Z, (Frame.setA s _).setP_shiftFlags _ _, rfl⟩

/-! ### Memory -/

/-- Settles O25: a shift of memory is one read-modify-write at an address that needs no pointer, and C, N and Z are all it
writes in P. -/
theorem memoryShifts : Obligations.MemoryShifts := by
  have hASL : HasForms .ASL [(0x0A, .acc), (0x06, .zp), (0x16, .zpX), (0x0E, .abs), (0x1E, .absX)] :=
    hasForms_of_scan (by decide +kernel) (by decide)
  have hLSR : HasForms .LSR [(0x4A, .acc), (0x46, .zp), (0x56, .zpX), (0x4E, .abs), (0x5E, .absX)] :=
    hasForms_of_scan (by decide +kernel) (by decide)
  have hROL : HasForms .ROL [(0x2A, .acc), (0x26, .zp), (0x36, .zpX), (0x2E, .abs), (0x3E, .absX)] :=
    hasForms_of_scan (by decide +kernel) (by decide)
  have hROR : HasForms .ROR [(0x6A, .acc), (0x66, .zp), (0x76, .zpX), (0x6E, .abs), (0x7E, .absX)] :=
    hasForms_of_scan (by decide +kernel) (by decide)
  refine ⟨hASL, hLSR, hROL, hROR, fun i m s hmn ho hwf => ⟨?_, fun a t h => ?_⟩⟩
  · obtain hi | hi | hi | hi : i.mnemonic = .ASL ∨ i.mnemonic = .LSR ∨ i.mnemonic = .ROL ∨ i.mnemonic = .ROR := by
      simpa using hmn
    · exact hASL.resolves (by decide) hi ho s
    · exact hLSR.resolves (by decide) hi ho s
    · exact hROL.resolves (by decide) hi ho s
    · exact hROR.resolves (by decide) hi ho s
  · obtain ⟨f, -, hmem, hnumbers⟩ := byMnemonic_of_shift hmn s
    have hexec : exec i s = shiftOperand f (.mem m) s := by rw [exec_eq_byMnemonic, ho, hmem]
    obtain ⟨hunread, hread⟩ := modifyOperand_spec hwf h (fun c v => (f c v).r)
      (fun p c v => shiftFlags p (f c v).r (f c v).out) hexec
    refine ⟨hunread, fun v r out b1 hv hshift => ?_⟩
    obtain ⟨rfl, rfl⟩ := (hnumbers (s.flag .C) v).unique hshift
    obtain ⟨hrefused, hwritten⟩ := hread v b1 hv
    refine ⟨hrefused, fun b2 hw => ?_⟩
    obtain ⟨hnext, hframe, hpeek, haccesses⟩ := hwritten b2 hw
    exact ⟨_, hnext, getFlag_shiftFlags s.p _ _ .C, getFlag_shiftFlags s.p _ _ .N, getFlag_shiftFlags s.p _ _ .Z,
      hframe.setP_shiftFlags _ _, hpeek, rfl, haccesses⟩

end Sys2Proof.Machine
end

section
/-! PROOFS. The compares and the bit test (46_compare_bit.md R180 to R184). -/

namespace Sys2Proof.Machine

/-! ### Reading the operand, then writing P alone (R111) -/

/-- What a compare and the bit test share: read the operand `m`, then let `g` make the new P from P, a register and `m`. -/
def testOperand (g : Byte → Byte → Byte → Byte) (r : Reg) (o : Operand) (s : State) : Result :=
  ((readOperand o s).andThen fun m t => .ok () (t.setP (g t.p (t.get r) m))).finish

theorem compareRegister_eq_testOperand : compareRegister = testOperand compareFlags := rfl

theorem bitTest_eq_testOperand : bitTest = testOperand bitTestFlags .A := rfl

/-- All a test of the operand does, where `g` writes the flags `fs` alone: P is written after reads alone, or the read's
error ends it with nothing written. -/
theorem testOperand_spec {g : Byte → Byte → Byte → Byte} {fs : List Flag}
    (hg : ∀ (p v m : Byte) (f : Flag), f ∉ fs → getFlag (g p v m) f.index = getFlag p f.index)
    (r : Reg) (o : Operand) (s : State) :
    (∀ (m : Byte) (t : State), readOperand o s = .ok m t →
      ∃ u : State, testOperand g r o s = .next u ∧ u.p = g s.p (s.get r) m ∧
        Frame [] fs [] s u ∧ u.bus = t.bus ∧ OnlyReads s u) ∧
    (∀ f : Fault, readOperand o s = .fail f →
      testOperand g r o s = .fault f ∧ IsReadError f ∧ f.left.p = s.p ∧ f.left.pc = s.pc) := by
  refine ⟨fun m t h => ?_, fun f h => ?_⟩
  · have hreads : ReadOnlyStep s t := (readOperand_readOnly o s).ok h
    have hp : t.p = s.p := hreads.get .P
    have hnext : testOperand g r o s = .next (t.setP (g s.p (s.get r) m)) := by
      simp only [testOperand, h, Res.andThen_ok, Res.finish_ok, hp, hreads.get r]
    obtain ⟨hframe, honly⟩ := hreads.frame
    have hother : ∀ f ∉ fs, getFlag (g s.p (s.get r) m) f.index = t.flag f := fun f hf =>
      (hg _ _ _ f hf).trans (congrArg (getFlag · f.index) hp.symm)
    exact ⟨_, hnext, rfl, hframe.setP fun f hf => ⟨List.not_mem_nil, hother f hf⟩, rfl, honly.of_bus_eq rfl⟩
  · obtain ⟨herror, -, hkeeps⟩ := readOperand_fail_keeps h .P
    exact ⟨by simp only [testOperand, h, Res.andThen_fail, Res.finish_fail], herror, hkeeps⟩

/-! ### CMP, CPX and CPY -/

/-- A compare writes C, Z and N alone (R180). -/
theorem getFlag_compareFlags_other (p v m : Byte) (f : Flag) (hf : f ∉ [Flag.C, .Z, .N]) :
    getFlag (compareFlags p v m) f.index = getFlag p f.index := by
  obtain ⟨hC, hZ, hN⟩ : f ≠ .C ∧ f ≠ .Z ∧ f ≠ .N := by simpa using hf
  rw [getFlag_compareFlags, if_neg hN, if_neg hZ, if_neg hC]

/-- The sign of the difference mod 2^8, in numbers. -/
theorem msb_sub_eq_decide (v m : Byte) : (v - m).msb = decide ((v.toNat + 256 - m.toNat) % 256 ≥ 128) := by
  have hm : m.toNat < 256 := m.isLt
  rw [BitVec.msb_eq_decide, BitVec.toNat_sub, decide_eq_decide]
  omega

/-- Every row of the three mnemonics compares with its own register (R181 to R183). -/
theorem exec_of_compare {i : Instr} {r : Reg} {o : Operand} (ho : i.operand = some o)
    (h : (i.mnemonic, r) ∈ ([(.CMP, .A), (.CPX, .X), (.CPY, .Y)] : List (Mnemonic × Reg))) (s : State) :
    exec i s = compareRegister r o s := by
  simp only [List.mem_cons, Prod.mk.injEq, List.not_mem_nil, or_false] at h
  rw [exec_eq_byMnemonic, ho]
  rcases h with ⟨h, rfl⟩ | ⟨h, rfl⟩ | ⟨h, rfl⟩ <;> rw [h] <;> rfl

/-- Settles O20: every row reads its operand and then writes P alone, where the compare's C, Z and N are comparisons of
numbers. -/
theorem compareWritesOnlyCZN : Obligations.CompareWritesOnlyCZN := by
  refine ⟨hasForms_of_scan (by decide +kernel) (by decide), hasForms_of_scan (by decide +kernel) (by decide),
    hasForms_of_scan (by decide +kernel) (by decide), fun i r o s hcompare ho => ?_⟩
  rw [exec_of_compare ho hcompare, compareRegister_eq_testOperand]
  obtain ⟨hok, hfail⟩ := testOperand_spec getFlag_compareFlags_other r o s
  refine ⟨fun m t h => ?_, hfail⟩
  obtain ⟨u, hnext, hp, hrest⟩ := hok m t h
  have hflag (f : Flag) : u.flag f = getFlag (compareFlags s.p (s.get r) m) f.index := congrArg (getFlag · f.index) hp
  refine ⟨u, hnext, ?_, ?_, ?_, hrest⟩ <;> rw [hflag, getFlag_compareFlags]
  · rfl
  · exact decide_eq_decide.2 BitVec.toNat_inj.symm
  · exact msb_sub_eq_decide (s.get r) m

/-! ### BIT -/

/-- BIT writes N, V and Z alone (R184). -/
theorem getFlag_bitTestFlags_other (p v m : Byte) (f : Flag) (hf : f ∉ [Flag.N, .V, .Z]) :
    getFlag (bitTestFlags p v m) f.index = getFlag p f.index := by
  obtain ⟨hN, hV, hZ⟩ : f ≠ .N ∧ f ≠ .V ∧ f ≠ .Z := by simpa using hf
  rw [getFlag_bitTestFlags, if_neg hZ, if_neg hV, if_neg hN]

/-- The AND of two bytes is 0 when they share no set bit. -/
theorem and_eq_zero_iff_bits (v m : Byte) :
    v &&& m = 0 ↔ ∀ k : Nat, k < 8 → (v.getLsbD k && m.getLsbD k) = false := by
  simp only [BitVec.eq_of_getLsbD_eq_iff, BitVec.getLsbD_and, BitVec.ofNat_eq_ofNat, BitVec.getLsbD_zero]

/-- Both rows of BIT have a memory operand, and test it (R184). -/
theorem exec_of_bit {forms : List (Byte × Mode)} (hforms : HasForms .BIT forms)
    (hmodes : ∀ e ∈ forms, e.2 ∉ ([.acc, .imm] : List Mode)) {i : Instr} {o : Operand} (hi : i.mnemonic = .BIT)
    (ho : i.operand = some o) (s : State) : exec i s = bitTest o s := by
  obtain ⟨hrows, -⟩ := hforms
  have hmode : i.mode = o.mode := by rw [Instr.mode, ho]
  have hmem : o.mode ∉ ([.acc, .imm] : List Mode) := hmode ▸ hmodes _ (hrows i hi)
  rw [exec_eq_byMnemonic, hi, ho]
  cases o with
  | acc | imm => exact absurd hmem (by simp [Operand.mode])
  | mem m => rfl

/-- Settles O21: both rows read their operand and then write P alone, N and V from two of its bits and Z from the AND with
A. -/
theorem bitTestReadsTheOperandsHighBits : Obligations.BitTestReadsTheOperandsHighBits := by
  have hforms : HasForms .BIT [(0x24, .zp), (0x2C, .abs)] := hasForms_of_scan (by decide +kernel) (by decide)
  refine ⟨hforms, fun i o s hi ho => ?_⟩
  rw [exec_of_bit hforms (by decide) hi ho, bitTest_eq_testOperand]
  obtain ⟨hok, hfail⟩ := testOperand_spec getFlag_bitTestFlags_other .A o s
  refine ⟨fun m t h => ?_, hfail⟩
  obtain ⟨u, hnext, hp, hrest⟩ := hok m t h
  have hflag (f : Flag) : u.flag f = getFlag (bitTestFlags s.p s.a m) f.index := congrArg (getFlag · f.index) hp
  refine ⟨u, hnext, ?_, ?_, ?_, hrest⟩ <;> rw [hflag, getFlag_bitTestFlags]
  · rfl
  · rfl
  · exact decide_eq_true_iff.trans (and_eq_zero_iff_bits s.a m)

end Sys2Proof.Machine
end

section
/-! PROOFS. The branches and the jumps (47_branch_jump.md R190 to R199). -/

namespace Sys2Proof.Machine

/-! ### The branches -/

/-- Settles O26: a branch is one choice of `pc`, and its target is a number mod 2^16. -/
theorem branchesTestTheirFlag : Obligations.BranchesTestTheirFlag := by
  refine ⟨hasForms_of_scan (by decide +kernel) (by decide), hasForms_of_scan (by decide +kernel) (by decide),
    hasForms_of_scan (by decide +kernel) (by decide), hasForms_of_scan (by decide +kernel) (by decide),
    hasForms_of_scan (by decide +kernel) (by decide), hasForms_of_scan (by decide +kernel) (by decide),
    hasForms_of_scan (by decide +kernel) (by decide), hasForms_of_scan (by decide +kernel) (by decide),
    fun i off f b s hbranch => ⟨_, (exec_of_branch hbranch s).trans (branchIf_eq f b off s), fun htaken => ?_,
      fun hnot => if_neg hnot⟩⟩
  rw [if_pos htaken]
  exact relative_toNat off s.pc

/-- The branch an opcode byte stands for, at any offset (R101). -/
theorem exists_branch_of_opcode {op : Byte} {f : Flag} {b : Bool}
    (h : (op, f, b) ∈ ([(0x10, .N, false), (0x30, .N, true), (0x50, .V, false), (0x70, .V, true), (0x90, .C, false),
      (0xB0, .C, true), (0xD0, .Z, false), (0xF0, .Z, true)] : List (Byte × Flag × Bool))) (off : Byte) :
    ∃ i : Instr, i.opcode = op ∧ i.operand = some (.mem (.rel off)) ∧
      ∀ s : State, exec i s = branchIf f b off s := by
  simp only [List.mem_cons, Prod.mk.injEq, List.not_mem_nil, or_false] at h
  rcases h with ⟨rfl, rfl, rfl⟩ | ⟨rfl, rfl, rfl⟩ | ⟨rfl, rfl, rfl⟩ | ⟨rfl, rfl, rfl⟩ | ⟨rfl, rfl, rfl⟩ |
    ⟨rfl, rfl, rfl⟩ | ⟨rfl, rfl, rfl⟩ | ⟨rfl, rfl, rfl⟩
  · exact ⟨.bpl off, rfl, rfl, fun _ => rfl⟩
  · exact ⟨.bmi off, rfl, rfl, fun _ => rfl⟩
  · exact ⟨.bvc off, rfl, rfl, fun _ => rfl⟩
  · exact ⟨.bvs off, rfl, rfl, fun _ => rfl⟩
  · exact ⟨.bcc off, rfl, rfl, fun _ => rfl⟩
  · exact ⟨.bcs off, rfl, rfl, fun _ => rfl⟩
  · exact ⟨.bne off, rfl, rfl, fun _ => rfl⟩
  · exact ⟨.beq off, rfl, rfl, fun _ => rfl⟩

/-- A Relative instruction is fetched by two reads, of its opcode and of its offset byte (R84, R92). -/
theorem fetchInstr_of_rel {i : Instr} {s : State} {off : Byte} {b1 b2 : Bus} (ho : i.operand = some (.mem (.rel off)))
    (hop : s.bus.read s.pc = some (i.opcode, b1)) (hoff : b1.read (s.pc + 1) = some (off, b2)) :
    fetchInstr s = .ok i ((s.setBus b2).setPc (s.pc + 2)) := by
  have hmode : i.mode = .rel := by rw [Instr.mode, ho]; rfl
  have hwf (f : AbsIndexed) : i.wf f = true := by rw [Instr.wf, ho]; rfl
  have hbytes (f : AbsIndexed) : encode f i = [i.opcode, off] := by rw [encode, Instr.operandBytes, ho]; rfl
  have hpc : s.pc + 1 + 1 = s.pc + 2 := BitVec.add_assoc _ _ _
  refine fetchInstr_of_decode (bs := [off]) (fetchByte_of_some hop) ?_ (hbytes _ ▸ decode_encode _ (hwf _))
  rw [operandCount_opcode, hmode, ← hpc]
  exact fetchBytes_succ_of_ok (fetchByte_of_some hoff) 0

/-- Settles O27: the fetch reads the offset byte whatever the flag holds, and the branch then sets `pc` alone. -/
theorem branchDispatch : Obligations.BranchDispatch := by
  intro s op off f b b1 hbranch hop
  obtain ⟨i, rfl, ho, hexec⟩ := exists_branch_of_opcode hbranch off
  refine ⟨fun b2 hoff => ?_, ?_⟩
  · have hstep : step s = .next ((s.setBus b2).setPc
        (if s.flag f = b then s.pc + 2 - 1 + sext off else s.pc + 2)) :=
      (step_of_fetchInstr_ok (fetchInstr_of_rel ho hop hoff)).trans ((hexec _).trans (branchIf_eq f b off _))
    refine ⟨_, hstep, fun htaken => ?_, fun hnot => ?_⟩
    · have htarget := relative_toNat off (s.pc + 2)
      rw [if_pos htaken, htarget, BitVec.toNat_add]
      simp only [BitVec.ofNat_eq_ofNat, BitVec.toNat_ofNat]
      omega
    · rw [if_neg hnot, BitVec.toNat_add]
      rfl
  · have hrow : decodeTable i.opcode = .row i.mnemonic .rel := by
      rw [decodeTable_opcode, Instr.mode, ho]
      rfl
    obtain ⟨-, -, hoperands⟩ := fetchReadsThenIncrements s
    obtain ⟨hfirst, -⟩ := hoperands i.opcode b1 i.mnemonic .rel hop hrow
    exact hfirst (by decide) (by decide)

/-! ### The jumps -/

section
variable {m : MemOperand} {s t : State}

theorem jumpTo_of_ok {a : Addr} (h : resolveAddr m s = .ok a t) : jumpTo m s = .next (t.setPc a) := by
  simp only [jumpTo, h, Res.andThen_ok, Res.finish_ok]

theorem jumpTo_of_fail {f : Fault} (h : resolveAddr m s = .fail f) : jumpTo m s = .fault f := by
  simp only [jumpTo, h, Res.andThen_fail, Res.finish_fail]

end

/-- The second pointer byte as a number: the low byte of the pointer wraps within its page (R97). -/
theorem pointerHigh_toNat (w : Addr) : (pointerHigh w).toNat = w.toNat / 256 * 256 + (w.toNat + 1) % 256 := by
  have hw := w.isLt
  rw [pointerHigh, wordOf_toNat, BitVec.toNat_add]
  simp only [loByte, hiByte, BitVec.extractLsb'_toNat, Nat.shiftRight_eq_div_pow, BitVec.ofNat_eq_ofNat, BitVec.toNat_ofNat]
  omega

/-- Settles O28: JMP sets `pc` to what its operand resolves to, and Indirect resolves by two reads. -/
theorem jumpTakesItsTarget : Obligations.JumpTakesItsTarget := by
  refine ⟨hasForms_of_scan (by decide +kernel) (by decide), fun s w p2 =>
    ⟨jumpTo_of_ok (m := .abs w) rfl, fun hp2 => ?_⟩⟩
  obtain rfl : p2 = pointerHigh w := BitVec.eq_of_toNat_eq (hp2.trans (pointerHigh_toNat w).symm)
  obtain ⟨hok, hfirst, hsecond⟩ := resolveAddr_of_readPair (rfl : resolveAddr (.ind w) s = readPair _ _ _ s)
  refine ⟨fun hnone => jumpTo_of_fail (hfirst _ (memRead_of_none hnone)), fun lo b1 hlo => ⟨fun hnone => ?_,
    fun hi b2 hhi => ⟨wordOf lo hi, ?_, wordOf_toNat lo hi⟩⟩⟩
  · exact jumpTo_of_fail (hsecond lo _ _ (memRead_of_some hlo) (memRead_of_none hnone))
  · exact jumpTo_of_ok (hok lo hi _ _ (memRead_of_some hlo) (memRead_of_some hhi))

end Sys2Proof.Machine
end

section
/-! PROOFS. One byte pushed or pulled: PHA, PHP, PLA, PLP (48_stack_subroutine.md R200 to R203). -/

namespace Sys2Proof.Machine

/-! ### Frames add up -/

theorem Frame.trans {rs rs' : List Reg} {fs fs' : List Flag} {as as' : List Addr} {s t u : State}
    (h : Frame rs fs as s t) (h' : Frame rs' fs' as' t u) : Frame (rs' ++ rs) (fs' ++ fs) (as' ++ as) s u := by
  obtain ⟨hregs, hflags, ⟨hmap, hpeek⟩, hcfg, hpc⟩ := h
  obtain ⟨hregs', hflags', ⟨hmap', hpeek'⟩, hcfg', hpc'⟩ := h'
  simp only [Frame, KeepsRegs, KeepsFlags, KeepsMemory, List.mem_append, not_or]
  exact ⟨fun r hr ⟨h1, h2⟩ => (hregs' r hr h1).trans (hregs r hr h2),
    fun f ⟨h1, h2⟩ => (hflags' f h1).trans (hflags f h2),
    ⟨hmap'.trans hmap, fun c ⟨h1, h2⟩ => (hpeek' c h1).trans (hpeek c h2)⟩, hcfg'.trans hcfg, hpc'.trans hpc⟩

theorem Frame.setSp (s : State) (v : Byte) : Frame [.SP] [] [] s (s.setSp v) := by
  refine ⟨fun r _ hr => ?_, fun _ _ => rfl, ⟨rfl, fun _ _ => rfl⟩, rfl, rfl⟩
  have hne : r ≠ .SP := List.ne_of_not_mem_cons hr
  exact (State.get_set s .SP r v).trans (if_neg hne)

/-- A pull changes SP alone (R62). -/
theorem Frame.pull {s : State} {a : Addr} {v : Byte} {b : Bus} (h : s.bus.read a = some (v, b)) (w : Byte) :
    Frame [.SP] [] [] s ((s.setBus b).setSp w) := by
  obtain ⟨-, rfl⟩ := Bus.read_eq_some h
  exact (Frame.setSp _ w).afterReads ((ReadOnlyStep.refl s).read a v)

/-! ### PHA, PHP, PLA, PLP -/

/-- What PHA and PHP push (R200, R201). -/
theorem exec_of_pushInstr {i : Instr} {v : Byte} {s : State}
    (h : (i = .pha ∧ v = s.a) ∨ (i = .php ∧ v = s.p ||| 0x30)) : exec i s = (push v s).finish := by
  rcases h with ⟨rfl, rfl⟩ | ⟨rfl, rfl⟩ <;> rfl

/-- Settles O29: each is one push. -/
theorem pushInstructions : Obligations.PushInstructions := by
  refine ⟨hasForms_of_scan (by decide +kernel) (by decide), hasForms_of_scan (by decide +kernel) (by decide),
    fun i v s a hpush ha => ?_⟩
  rw [exec_of_pushInstr hpush]
  exact ⟨fun b hw => congrArg Res.finish (push_of_some ha hw), fun hw => congrArg Res.finish (push_of_none ha hw)⟩

/-- Settles O30: a pull, then a register write with N and Z. -/
theorem pullAccumulator : Obligations.PullAccumulator := by
  refine ⟨hasForms_of_scan (by decide +kernel) (by decide), fun s a ha => ⟨fun v b hread => ?_, fun hnone => ?_⟩⟩
  · have hnext : exec .pla s = .next ((((s.setBus b).setSp (s.sp + 1)).set .A v).setNZ v) := by
      show execPla s = _
      rw [execPla, pull_of_some ha hread]
      rfl
    have hA : Reg.A ≠ .P := by decide
    exact ⟨_, hnext, rfl, rfl, State.flag_setNZ _ _ .N, State.flag_setNZ _ _ .Z,
      (Frame.pull hread _).trans (Frame.set_setNZ hA _ v v), rfl⟩
  · show execPla s = _
    rw [execPla, pull_of_none ha hnone]
    rfl

section
variable {p v : Byte} {f : Flag}

theorem Flag.mem_UB_of_not_mem (h : f ∉ ([.N, .V, .D, .I, .Z, .C] : List Flag)) : f ∈ ([.U, .B] : List Flag) := by
  cases f with
  | U | B => decide
  | N | V | D | I | Z | C => exact absurd (by decide) h

theorem Flag.not_U_or_B_of_mem (h : f ∈ ([.N, .V, .D, .I, .Z, .C] : List Flag)) : ¬ (f = .U ∨ f = .B) := by
  rintro (rfl | rfl) <;> exact absurd h (by decide)

/-- Pulling P takes six flags from the byte pulled (R203). -/
theorem getFlag_pulledStatus_of_mem (h : f ∈ ([.N, .V, .D, .I, .Z, .C] : List Flag)) :
    getFlag (pulledStatus p v) f.index = getFlag v f.index := by
  rw [getFlag_pulledStatus, if_neg (Flag.not_U_or_B_of_mem h)]

/-- Pulling P keeps the other two (R29, R203). -/
theorem getFlag_pulledStatus_of_mem_UB (h : f ∈ ([.U, .B] : List Flag)) :
    getFlag (pulledStatus p v) f.index = getFlag p f.index := by
  rw [getFlag_pulledStatus, if_pos]
  simpa using h

variable {s : State} {a : Addr}

theorem pullStatus_of_some {b : Bus} (ha : StackSlot s 1 a) (h : s.bus.read a = some (v, b)) :
    pullStatus s = .ok () (((s.setBus b).setSp (s.sp + 1)).setP (pulledStatus s.p v)) := by
  rw [pullStatus, pull_of_some ha h]
  rfl

theorem pullStatus_of_none (ha : StackSlot s 1 a) (h : s.bus.read a = none) :
    pullStatus s = .fail (.busError a .read (s.setSp (s.sp + 1))) := by
  rw [pullStatus, pull_of_none ha h]
  rfl

end

end Sys2Proof.Machine

namespace Sys2Proof
open Machine

/-- Settles O31: PLP is one pull of P. (The operation `Machine.pullStatus` has this name in its own namespace.) -/
theorem pullStatus : Obligations.PullStatus := by
  refine ⟨hasForms_of_scan (by decide +kernel) (by decide), fun s a ha => ⟨fun v b hread => ?_, fun hnone => ?_⟩⟩
  · have hkept (f : Flag) (hf : f ∉ ([.N, .V, .D, .I, .Z, .C] : List Flag)) :
        getFlag (pulledStatus s.p v) f.index = s.flag f :=
      getFlag_pulledStatus_of_mem_UB (Flag.mem_UB_of_not_mem hf)
    exact ⟨_, congrArg Res.finish (pullStatus_of_some ha hread), rfl, fun f hf => getFlag_pulledStatus_of_mem hf,
      (Frame.pull hread _).setP fun f hf => ⟨List.not_mem_nil, hkept f hf⟩, rfl⟩
  · exact congrArg Res.finish (pullStatus_of_none ha hnone)

end Sys2Proof
end

section
/-! PROOFS. Subroutines and the trap: JSR, RTS, RTI, BRK (48_stack_subroutine.md R204 to R207, 60_exceptions.md R237,
R238). -/

namespace Sys2Proof.Machine

/-! ### Two bytes pushed or pulled (R63) -/

/-- A pull moves SP up, so every slot moves down by one as SP sees it. -/
theorem StackSlot.after_pull {v : Byte} {s t : State} {a : Addr} (h : pull s = .ok v t) (k : Int) :
    StackSlot t (k - 1) a ↔ StackSlot s k a := by
  obtain ⟨-, rfl⟩ := pull_eq_ok.1 h
  have hsp : ((s.sp + 1).toNat : Int) = (s.sp.toNat + 1 : Int) % 256 := sp_add_toNat s 1
  unfold StackSlot
  simp only [State.setBus_cfg, State.setSp_cfg, State.setBus_sp, State.setSp_sp, hsp]
  omega

theorem StackSlot.after_pullStatus {s t : State} {u : Unit} {a : Addr} (h : pullStatus s = .ok u t) (k : Int) :
    StackSlot t (k - 1) a ↔ StackSlot s k a := by
  obtain ⟨v, t0, hpull, h⟩ := Res.andThen_eq_ok.1 h
  cases h
  exact StackSlot.after_pull hpull k

section
variable {s : State} {a1 a2 : Addr} {b1 b2 : Bus}

section
variable {w : Addr} (h1 : StackSlot s 0 a1)
include h1

theorem pushWord_of_first_none (hw1 : s.bus.write a1 (hiByte w) = none) :
    pushWord w s = .fail (.busError a1 .write s) := by
  rw [pushWord, push_of_none h1 hw1]
  rfl

variable (h2 : StackSlot s (-1) a2) (hw1 : s.bus.write a1 (hiByte w) = some b1)
include h2 hw1

theorem pushWord_of_second_none (hw2 : b1.write a2 (loByte w) = none) :
    pushWord w s = .fail (.busError a2 .write ((s.setBus b1).setSp (s.sp - 1))) := by
  have hpush := push_of_some h1 hw1
  rw [pushWord, hpush]
  exact push_of_none ((StackSlot.after_push hpush (-1)).2 h2) hw2

theorem pushWord_of_some (hw2 : b1.write a2 (loByte w) = some b2) :
    pushWord w s = .ok () ((s.setBus b2).setSp (s.sp - 2)) := by
  have hsp : s.sp - 1 - 1 = s.sp - 2 := BitVec.sub_sub _ _ _
  have hpush := push_of_some h1 hw1
  rw [pushWord, hpush, ← hsp]
  exact push_of_some ((StackSlot.after_push hpush (-1)).2 h2) hw2

end

variable {lo hi : Byte} (h1 : StackSlot s 1 a1)
include h1

theorem pullWord_of_first_none (hr1 : s.bus.read a1 = none) :
    pullWord s = .fail (.busError a1 .read (s.setSp (s.sp + 1))) := by
  rw [pullWord, pull_of_none h1 hr1]
  rfl

variable (h2 : StackSlot s 2 a2) (hr1 : s.bus.read a1 = some (lo, b1))
include h2 hr1

theorem pullWord_of_second_none (hr2 : b1.read a2 = none) :
    pullWord s = .fail (.busError a2 .read ((s.setBus b1).setSp (s.sp + 2))) := by
  have hsp : s.sp + 1 + 1 = s.sp + 2 := BitVec.add_assoc _ _ _
  have hpull := pull_of_some h1 hr1
  rw [pullWord, hpull, Res.andThen_ok, pull_of_none ((StackSlot.after_pull hpull 2).2 h2) hr2, ← hsp]
  rfl

theorem pullWord_of_some (hr2 : b1.read a2 = some (hi, b2)) :
    pullWord s = .ok (wordOf lo hi) ((s.setBus b2).setSp (s.sp + 2)) := by
  have hsp : s.sp + 1 + 1 = s.sp + 2 := BitVec.add_assoc _ _ _
  have hpull := pull_of_some h1 hr1
  rw [pullWord, hpull, Res.andThen_ok, pull_of_some ((StackSlot.after_pull hpull 2).2 h2) hr2, ← hsp]
  rfl

end

/-! ### JSR and RTS -/

theorem execJsr_of_ok {s t : State} (h : pushWord (s.pc - 1) s = .ok () t) (target : Addr) :
    execJsr target s = .next (t.setPc target) := by
  simp only [execJsr, resolveAddr, Res.andThen_ok, h, Res.finish_ok]

theorem execJsr_of_fail {s : State} {f : Fault} (h : pushWord (s.pc - 1) s = .fail f) (target : Addr) :
    execJsr target s = .fault f := by
  simp only [execJsr, resolveAddr, Res.andThen_ok, h, Res.andThen_fail, Res.finish_fail]

/-- Settles O32: JSR is one 16-bit push, then `pc`. -/
theorem jsrPushesItsLastByteAndJumps : Obligations.JsrPushesItsLastByteAndJumps := by
  refine ⟨hasForms_of_scan (by decide +kernel) (by decide), fun s target a1 a2 hi lo h1 h2 hret => ?_⟩
  have hword : 256 * hi.toNat + lo.toNat = (s.pc - 1).toNat := by simp [BitVec.toNat_sub]; omega
  obtain ⟨rfl, rfl⟩ := bytes_of_word hword
  refine ⟨fun hw1 => execJsr_of_fail (pushWord_of_first_none h1 hw1) target,
    fun b1 hw1 => ⟨fun hw2 => ?_, fun b2 hw2 => ?_⟩⟩
  · exact execJsr_of_fail (pushWord_of_second_none h1 h2 hw1 hw2) target
  · exact execJsr_of_ok (pushWord_of_some h1 h2 hw1 hw2) target

theorem execRts_of_ok {s t : State} {ret : Addr} (h : pullWord s = .ok ret t) : execRts s = .next (t.setPc (ret + 1)) := by
  simp only [execRts, h, Res.andThen_ok, Res.finish_ok]

theorem execRts_of_fail {s : State} {f : Fault} (h : pullWord s = .fail f) : execRts s = .fault f := by
  simp only [execRts, h, Res.andThen_fail, Res.finish_fail]

/-- Settles O33: RTS is one 16-bit pull, then `pc`. -/
theorem rtsPullsAndAddsOne : Obligations.RtsPullsAndAddsOne := by
  refine ⟨hasForms_of_scan (by decide +kernel) (by decide), fun s a1 a2 h1 h2 =>
    ⟨fun hr1 => execRts_of_fail (pullWord_of_first_none h1 hr1),
      fun lo b1 hr1 => ⟨fun hr2 => ?_, fun hi b2 hr2 => ?_⟩⟩⟩
  · exact execRts_of_fail (pullWord_of_second_none h1 h2 hr1 hr2)
  · refine ⟨wordOf lo hi + 1, ?_, execRts_of_ok (pullWord_of_some h1 h2 hr1 hr2)⟩
    rw [BitVec.toNat_add, wordOf_toNat]
    rfl

/-! ### RTI -/

section
variable {s t : State} {f : Fault}

theorem execRti_of_status_fail (h : pullStatus s = .fail f) : execRti s = .fault f := by
  simp only [execRti, trapReturn, h, Res.andThen_fail, Res.finish_fail]

variable (h : pullStatus s = .ok () t)
include h

theorem execRti_of_word_fail (hw : pullWord t = .fail f) : execRti s = .fault f := by
  simp only [execRti, trapReturn, h, hw, Res.andThen_ok, Res.andThen_fail, Res.finish_fail]

theorem execRti_of_ok {u : State} {ret : Addr} (hw : pullWord t = .ok ret u) : execRti s = .next (u.setPc ret) := by
  simp only [execRti, trapReturn, h, hw, Res.andThen_ok, Res.finish_ok]

end

/-- Settles O34: RTI pulls P as PLP does, then `pc` from the two slots above. -/
theorem rtiRestoresStatusThenPc : Obligations.RtiRestoresStatusThenPc := by
  refine ⟨hasForms_of_scan (by decide +kernel) (by decide), fun s a1 a2 a3 h1 h2 h3 =>
    ⟨fun hr1 => execRti_of_status_fail (pullStatus_of_none h1 hr1), fun v b1 hr1 => ?_⟩⟩
  have hstatus := pullStatus_of_some h1 hr1
  have h2' := (StackSlot.after_pullStatus hstatus 2).2 h2
  have h3' := (StackSlot.after_pullStatus hstatus 3).2 h3
  have hsp2 : s.sp + 1 + 1 = s.sp + 2 := BitVec.add_assoc _ _ _
  have hsp3 : s.sp + 1 + 2 = s.sp + 3 := BitVec.add_assoc _ _ _
  refine ⟨pulledStatus s.p v, fun f hf => getFlag_pulledStatus_of_mem hf, fun f hf => getFlag_pulledStatus_of_mem_UB hf,
    fun hr2 => ?_, fun lo b2 hr2 => ⟨fun hr3 => ?_, fun hi b3 hr3 => ⟨wordOf lo hi, wordOf_toNat lo hi, ?_⟩⟩⟩
  · rw [← hsp2]
    exact execRti_of_word_fail hstatus (pullWord_of_first_none h2' hr2)
  · rw [← hsp3]
    exact execRti_of_word_fail hstatus (pullWord_of_second_none h2' h3' hr2 hr3)
  · rw [← hsp3]
    exact execRti_of_ok hstatus (pullWord_of_some h2' h3' hr2 hr3)

/-! ### BRK -/

theorem Res.andThen_assoc {α β γ : Type} (r : Res α) (k : α → State → Res β) (g : β → State → Res γ) :
    (r.andThen k).andThen g = r.andThen fun v s => (k v s).andThen g := by
  cases r <;> rfl

section
variable {s t u : State} {f : Fault}

theorem execBrk_of_word_fail (h : pushWord (s.pc + 1) s = .fail f) : execBrk s = .fault f := by
  simp only [execBrk, trapEntry, h, Res.andThen_fail, Res.finish_fail]

variable (h : pushWord (s.pc + 1) s = .ok () t)
include h

theorem execBrk_of_status_fail (hp : push (pushedStatus t.p) t = .fail f) : execBrk s = .fault f := by
  simp only [execBrk, trapEntry, h, hp, Res.andThen_ok, Res.andThen_fail, Res.finish_fail]

/-- After its pushes, BRK sets I and jumps through its vector as JMP (ind) does: the vector does not cross a page (R97,
R207). -/
theorem execBrk_of_pushes (hp : push (pushedStatus t.p) t = .ok () u) :
    execBrk s = jumpTo (.ind breakVector) (u.setFlag .I true) := by
  have hhigh : pointerHigh breakVector = breakVector + 1 := by decide
  simp only [execBrk, trapEntry, h, hp, jumpTo, resolveAddr, readPair, hhigh, Res.andThen_assoc, Res.andThen_ok]

end

/-- The byte that differs from P in bit 2 alone, set, is P with I set (R27, R28). -/
theorem eq_setFlag_I_of_bits {p q : Byte} (hI : q.getLsbD 2 = true)
    (hrest : ∀ k : Nat, k ≠ 2 → q.getLsbD k = p.getLsbD k) : q = setFlag p Flag.I.index true := by
  refine BitVec.eq_of_getLsbD_eq fun k _ => ?_
  rw [setFlag_bit]
  by_cases hk : k = 2
  · rw [hk, hI]
    rfl
  · exact (hrest k hk).trans (if_neg hk).symm

/-- Settles O35: three pushes, then I, then a jump through the vector. -/
theorem brkTakesTheTrap : Obligations.BrkTakesTheTrap := by
  refine ⟨hasForms_of_scan (by decide +kernel) (by decide), fun s a1 a2 a3 hi lo p h1 h2 h3 hret hI hrest => ?_⟩
  have hword : 256 * hi.toNat + lo.toNat = (s.pc + 1).toNat := by simp [BitVec.toNat_add, hret]
  obtain ⟨rfl, rfl⟩ := bytes_of_word hword
  obtain rfl := eq_setFlag_I_of_bits hI hrest
  refine ⟨fun hw1 => execBrk_of_word_fail (pushWord_of_first_none h1 hw1), fun b1 hw1 =>
    ⟨fun hw2 => execBrk_of_word_fail (pushWord_of_second_none h1 h2 hw1 hw2), fun b2 hw2 => ?_⟩⟩
  have hpush := pushWord_of_some h1 h2 hw1 hw2
  have h3' : StackSlot ((s.setBus b2).setSp (s.sp - 2)) 0 a3 := (StackSlot.after_pushWord hpush (-2)).2 h3
  refine ⟨fun hw3 => execBrk_of_status_fail hpush (push_of_none h3' hw3), fun b3 hw3 => ?_⟩
  have hsp : s.sp - 2 - 1 = s.sp - 3 := BitVec.sub_sub _ _ _
  have hjump : exec .brk s = exec (.jmpInd 0xFFFE) (((s.setBus b3).setSp (s.sp - 3)).setFlag .I true) :=
    hsp ▸ execBrk_of_pushes hpush (push_of_some h3' hw3)
  obtain ⟨-, hvector⟩ := jumpTakesItsTarget
  obtain ⟨-, hjmpInd⟩ := hvector (((s.setBus b3).setSp (s.sp - 3)).setFlag .I true) 0xFFFE 0xFFFF
  obtain ⟨hlo, hhi⟩ := hjmpInd (by decide)
  rw [hjump]
  refine ⟨hlo, fun vlo b4 hr4 => ?_⟩
  obtain ⟨hfail, hok⟩ := hhi vlo b4 hr4
  refine ⟨hfail, fun vhi b5 hr5 => ?_⟩
  obtain ⟨q, hnext, hq⟩ := hok vhi b5 hr5
  exact ⟨q, hq, hnext⟩

end Sys2Proof.Machine
end

section
/-! PROOFS. Calls and returns undo each other: JSR and RTS, BRK and RTI, PHP and PLP (48_stack_subroutine.md R201 to
R207). -/

namespace Sys2Proof.Machine

/-! ### The stack in memory that is stored -/

/-- SP down by `n`: every slot is `n` offsets higher as SP sees it. -/
theorem StackSlot.of_sp_sub {s t : State} {a : Addr} {k : Int} {n : Nat} (h : StackSlot s k a) (hn : n < 256)
    (hcfg : t.cfg = s.cfg) (hsp : t.sp = s.sp - BitVec.ofNat 8 n) : StackSlot t (k + n) a := by
  have hnum := sp_sub_toNat s n hn
  refine h.shift hcfg ?_
  rw [hsp, hnum]
  omega

section
variable {s : State} {a1 a2 : Addr}

theorem push_of_ram (h1 : StackSlot s 0 a1) (hk1 : s.bus.kindAt a1 = .ram) (v : Byte) :
    ∃ b, push v s = .ok () ((s.setBus b).setSp (s.sp - 1)) :=
  ⟨_, push_of_some h1 (Bus.write_ram hk1)⟩

theorem pushWord_of_ram (h1 : StackSlot s 0 a1) (h2 : StackSlot s (-1) a2) (hk1 : s.bus.kindAt a1 = .ram)
    (hk2 : s.bus.kindAt a2 = .ram) (w : Addr) : ∃ b, pushWord w s = .ok () ((s.setBus b).setSp (s.sp - 2)) :=
  ⟨_, pushWord_of_some h1 h2 (Bus.write_ram hk1) (Bus.write_ram hk2)⟩

theorem pullStatus_of_ram (h1 : StackSlot s 1 a1) (hk1 : s.bus.kindAt a1 = .ram) :
    pullStatus s = .ok () (((s.setBus (s.bus.logged (.read a1 (s.peek a1)))).setSp (s.sp + 1)).setP
      (pulledStatus s.p (s.peek a1))) :=
  pullStatus_of_some h1 (Bus.read_stored (.inl hk1))

theorem pullWord_of_ram (h1 : StackSlot s 1 a1) (h2 : StackSlot s 2 a2) (hk1 : s.bus.kindAt a1 = .ram)
    (hk2 : s.bus.kindAt a2 = .ram) :
    ∃ b, pullWord s = .ok (wordOf (s.peek a1) (s.peek a2)) ((s.setBus b).setSp (s.sp + 2)) :=
  ⟨_, pullWord_of_some h1 h2 (Bus.read_stored (.inl hk1)) (Bus.read_stored (.inl hk2))⟩

theorem resolveAddr_ind_of_readable {w : Addr} (h1 : s.bus.Readable w) (h2 : s.bus.Readable (pointerHigh w)) :
    ∃ q b, resolveAddr (.ind w) s = .ok q (s.setBus b) :=
  ⟨_, _, readPair_eq_ok.2 ⟨_, _, _, memRead_of_some (Bus.read_stored h1),
    memRead_of_some (s := s.setBus _) (Bus.read_stored h2), rfl⟩⟩

end

/-! ### JSR, then RTS -/

/-- Settles O36: RTS pulls the two bytes JSR pushed, and its plus 1 makes up for the minus 1 of JSR. -/
theorem rtsReturnsPastTheJsr : Obligations.RtsReturnsPastTheJsr := by
  intro s target at' a1 a2 hm h1 h2 hk1 hk2
  obtain ⟨b, hpush⟩ := pushWord_of_ram h1 h2 hk1 hk2 (s.pc - 1)
  obtain ⟨-, hmap, -⟩ := pushWord_keeps hm hpush
  have hhi : b.peek a1 = hiByte (s.pc - 1) := (pushWord_peek hm hpush hk1).1 h1
  have hlo : b.peek a2 = loByte (s.pc - 1) := (pushWord_peek hm hpush hk2).2 h2
  obtain ⟨b', hpull⟩ := pullWord_of_ram (s := (((s.setBus b).setSp (s.sp - 2)).setPc target).setPc at')
    ((StackSlot.after_pushWord hpush (-1)).2 h2) ((StackSlot.after_pushWord hpush 0).2 h1)
    ((Bus.kindAt_of_map a2 hmap).trans hk2) ((Bus.kindAt_of_map a1 hmap).trans hk1)
  refine ⟨_, _, execJsr_of_ok hpush target, execRts_of_ok hpull, ?_, BitVec.sub_add_cancel _ _, rfl, rfl, rfl, rfl⟩
  show wordOf (b.peek a2) (b.peek a1) + 1 = s.pc
  rw [hhi, hlo, wordOf_loByte_hiByte, BitVec.sub_add_cancel]

/-! ### PHP, then PLP -/

/-- P pulled back from its pushed copy, where U and B are still what they were (R29, R201, R203). -/
theorem pulledStatus_pushedStatus {p q : Byte} (h : SameUB p q) : pulledStatus q (pushedStatus p) = p := by
  obtain ⟨hU, hB⟩ := h
  refine flags_ext fun f => ?_
  rw [getFlag_pulledStatus, getFlag_pushedStatus]
  by_cases hf : f = .U ∨ f = .B
  · rw [if_pos hf]
    rcases hf with rfl | rfl
    · exact hU
    · exact hB
  · rw [if_neg hf, if_neg hf]

/-- The pushed copy agrees with P but for U and B (R29, R201). -/
theorem getFlag_pushedStatus_of_mem {p : Byte} {f : Flag} (h : f ∈ ([.N, .V, .D, .I, .Z, .C] : List Flag)) :
    getFlag (pushedStatus p) f.index = getFlag p f.index := by
  rw [getFlag_pushedStatus, if_neg (Flag.not_U_or_B_of_mem h)]

/-- Settles O38: PLP pulls the byte PHP pushed. -/
theorem plpRestoresWhatPhpPushed : Obligations.PlpRestoresWhatPhpPushed := by
  intro s p a hm ha hk
  obtain ⟨b, hpush⟩ := push_of_ram ha hk (pushedStatus s.p)
  obtain ⟨-, hmap, -⟩ := push_stores hpush hm
  have hpeek : b.peek a = pushedStatus s.p := push_peek_slot hm hpush hk ha
  have hpull := pullStatus_of_ram (s := ((s.setBus b).setSp (s.sp - 1)).setP p) ((StackSlot.after_push hpush 0).2 ha)
    ((Bus.kindAt_of_map a hmap).trans hk)
  refine ⟨_, _, congrArg Res.finish hpush, congrArg Res.finish hpull, BitVec.sub_add_cancel _ _,
    fun f hf => ?_, fun f hf => ?_⟩
  · show getFlag (pulledStatus p (b.peek a)) f.index = getFlag s.p f.index
    rw [getFlag_pulledStatus_of_mem hf, hpeek, getFlag_pushedStatus_of_mem hf]
  · exact getFlag_pulledStatus_of_mem_UB hf

/-! ### BRK, then RTI -/

section
variable {s : State} {a1 a2 a3 : Addr}

theorem execBrk_of_ram (hm : Memory.wf s.bus.mem = true) (h1 : StackSlot s 0 a1) (h2 : StackSlot s (-1) a2)
    (h3 : StackSlot s (-2) a3) (hk1 : s.bus.kindAt a1 = .ram) (hk2 : s.bus.kindAt a2 = .ram) (hk3 : s.bus.kindAt a3 = .ram)
    (hv1 : s.bus.Readable 0xFFFE) (hv2 : s.bus.Readable 0xFFFF) :
    ∃ b q, execBrk s = .next ((((s.setBus b).setSp (s.sp - 3)).setFlag .I true).setPc q) := by
  obtain ⟨b2, hword⟩ := pushWord_of_ram h1 h2 hk1 hk2 (s.pc + 1)
  obtain ⟨hm2, hmap2, -⟩ := pushWord_keeps hm hword
  obtain ⟨b3, hpush⟩ := push_of_ram ((StackSlot.after_pushWord hword (-2)).2 h3)
    ((Bus.kindAt_of_map a3 hmap2).trans hk3) (pushedStatus s.p)
  obtain ⟨-, hmap3, -⟩ := push_stores hpush hm2
  have hmap : b3.map = s.bus.map := hmap3.trans hmap2
  have hreadable {a : Addr} (h : s.bus.Readable a) : b3.Readable a := by
    unfold Bus.Readable
    rwa [Bus.kindAt_of_map a hmap]
  have hsp : s.sp - 2 - 1 = s.sp - 3 := BitVec.sub_sub _ _ _
  obtain ⟨q, b, hres⟩ := resolveAddr_ind_of_readable (s := ((s.setBus b3).setSp (s.sp - 3)).setFlag .I true)
    (w := breakVector) (hreadable hv1) (hreadable hv2)
  exact ⟨b, q, (hsp ▸ execBrk_of_pushes hword hpush).trans (jumpTo_of_ok hres)⟩

theorem execRti_of_ram (h1 : StackSlot s 1 a1) (h2 : StackSlot s 2 a2) (h3 : StackSlot s 3 a3)
    (hk1 : s.bus.kindAt a1 = .ram) (hk2 : s.bus.kindAt a2 = .ram) (hk3 : s.bus.kindAt a3 = .ram) :
    ∃ b, execRti s = .next ((((s.setBus b).setSp (s.sp + 3)).setP (pulledStatus s.p (s.peek a1))).setPc
      (wordOf (s.peek a2) (s.peek a3))) := by
  have hstatus := pullStatus_of_ram h1 hk1
  obtain ⟨b, hword⟩ := pullWord_of_ram ((StackSlot.after_pullStatus hstatus 2).2 h2)
    ((StackSlot.after_pullStatus hstatus 3).2 h3) hk2 hk3
  have hsp : s.sp + 1 + 2 = s.sp + 3 := BitVec.add_assoc _ _ _
  exact ⟨b, hsp ▸ execRti_of_ok hstatus hword⟩

end

/-- Settles O37: the three bytes BRK pushed are where RTI pulls, and BRK wrote no U and no B. -/
theorem rtiUndoesBrk : Obligations.RtiUndoesBrk := by
  intro s at' a1 a2 a3 hm h1 h2 h3 hk1 hk2 hk3 hv1 hv2
  obtain ⟨b, q, hbrk⟩ := execBrk_of_ram hm h1 h2 h3 hk1 hk2 hk3 hv1 hv2
  have hentry := Res.finish_eq_next.1 hbrk
  obtain ⟨hhi, -⟩ := trapEntry_peek hm hentry hk1
  obtain ⟨-, hlo, -⟩ := trapEntry_peek hm hentry hk2
  obtain ⟨-, -, hp⟩ := trapEntry_peek hm hentry hk3
  obtain ⟨-, hmap⟩ := resultEnds_of_endsIn (exec_ends (keepsParametersAndMap .brk s) ⟨rfl, rfl⟩) (.inl hbrk)
  obtain ⟨b', hrti⟩ := execRti_of_ram (s := ((((s.setBus b).setSp (s.sp - 3)).setFlag .I true).setPc q).setPc at')
    (h3.of_sp_sub (n := 3) (by decide) rfl rfl) (h2.of_sp_sub (n := 3) (by decide) rfl rfl)
    (h1.of_sp_sub (n := 3) (by decide) rfl rfl) ((Bus.kindAt_of_map a3 hmap).trans hk3)
    ((Bus.kindAt_of_map a2 hmap).trans hk2) ((Bus.kindAt_of_map a1 hmap).trans hk1)
  have hI : ((s.setFlag .I true).flag .I) = true := by rw [State.flag_setFlag, if_pos rfl]
  refine ⟨_, _, hbrk, hI, hrti, ?_, ?_, BitVec.sub_add_cancel _ _, rfl, rfl, rfl⟩
  · exact (congrArg₂ wordOf (hlo h2) (hhi h1)).trans (wordOf_loByte_hiByte _)
  · exact (congrArg _ (hp h3)).trans (pulledStatus_pushedStatus (.setFlag s.p true (by decide) (by decide)))

end Sys2Proof.Machine
end

section
/-! PROOFS. The stores, the transfers and NOP (49_store_transfer.md R210 to R219). -/

namespace Sys2Proof.Machine

/-! ### Stores -/

section
variable {m : MemOperand} {s t : State} {a : Addr} {r : Reg}

theorem storeRegister_of_fail {f : Fault} (h : resolveAddr m s = .fail f) : storeRegister r (.mem m) s = .fault f := by
  simp only [storeRegister, writeOperand, resolve_of_resolveAddr_fail h, Res.andThen_fail, Res.finish_fail]

/-- Once its address is resolved, a store is one write. -/
theorem storeRegister_of_ok (h : resolveAddr m s = .ok a t) :
    storeRegister r (.mem m) s = (memWrite a (s.get r) t).finish := by
  rw [storeRegister, writeOperand_mem h]

end

/-- Settles O39: resolution makes reads alone, and the store then one write. -/
theorem storesWriteTheirRegister : Obligations.StoresWriteTheirRegister := by
  refine ⟨hasForms_of_scan (by decide +kernel) (by decide), hasForms_of_scan (by decide +kernel) (by decide),
    hasForms_of_scan (by decide +kernel) (by decide), fun i r m s hstore ho hm => ?_⟩
  rw [exec_of_store ho hstore]
  refine ⟨fun f h => ⟨storeRegister_of_fail h, resolveAddr_isReadError h⟩, fun a t h => ?_⟩
  rw [storeRegister_of_ok h]
  refine ⟨fun hw => congrArg Res.finish (memWrite_of_none hw), fun b hw => ?_⟩
  have hreads : ReadOnlyStep s t := (resolveAddr_readOnly m s).ok h
  have ⟨_, hmem, hmap, _⟩ := hreads
  obtain ⟨hframe, hpeek⟩ := Frame.ofWrite (hmem ▸ hm) hw
  exact ⟨congrArg Res.finish (memWrite_of_some hw), hframe.afterReads hreads,
    fun hk => hpeek ((Bus.kindAt_of_map a hmap).trans hk), Bus.write_log hw⟩

/-! ### Transfers and NOP -/

/-- The five transfers, each with its registers; the one written is not P (R213 to R217). -/
theorem exec_of_transfer {i : Instr} {src dst : Reg}
    (h : (i, src, dst) ∈ ([(.tax, .A, .X), (.tay, .A, .Y), (.txa, .X, .A), (.tya, .Y, .A), (.tsx, .SP, .X)] :
      List (Instr × Reg × Reg))) (s : State) :
    exec i s = .next ((s.set dst (s.get src)).setNZ (s.get src)) ∧ dst ≠ .P := by
  simp only [List.mem_cons, Prod.mk.injEq, List.not_mem_nil, or_false] at h
  rcases h with ⟨rfl, rfl, rfl⟩ | ⟨rfl, rfl, rfl⟩ | ⟨rfl, rfl, rfl⟩ | ⟨rfl, rfl, rfl⟩ | ⟨rfl, rfl, rfl⟩ <;>
    exact ⟨rfl, by decide⟩

/-- Settles O40: one register and N and Z are written, and the bus is not part of it. -/
theorem transfersCopyAndSetNZ : Obligations.TransfersCopyAndSetNZ := by
  refine ⟨hasForms_of_scan (by decide +kernel) (by decide), hasForms_of_scan (by decide +kernel) (by decide),
    hasForms_of_scan (by decide +kernel) (by decide), hasForms_of_scan (by decide +kernel) (by decide),
    hasForms_of_scan (by decide +kernel) (by decide), fun i src dst s htransfer => ?_⟩
  obtain ⟨hexec, hdst⟩ := exec_of_transfer htransfer s
  exact ⟨_, hexec, State.get_set_setNZ hdst s _ _, State.flag_setNZ _ _ .N, State.flag_setNZ _ _ .Z,
    Frame.set_setNZ hdst s _ _, State.set_bus s dst _⟩

/-- Settles O41: both are one assignment, or none. -/
theorem txsAndNop : Obligations.TxsAndNop :=
  ⟨hasForms_of_scan (by decide +kernel) (by decide), hasForms_of_scan (by decide +kernel) (by decide),
    fun _ => ⟨rfl, rfl⟩⟩

end Sys2Proof.Machine
end

section
/-! PROOFS. What an error leaves, and where there is none (60_exceptions.md R230 to R242). -/

namespace Sys2Proof.Machine

/-- Settles O50: a dispatch from a sound state ends in a sound state, and an error is one of its ends. -/
theorem errorsLeaveASoundState : Obligations.ErrorsLeaveASoundState := fun _ f hs h =>
  resultEnds_of_endsIn (step_ends_sound hs) (.inr ⟨f, h, rfl⟩)

/-- Settles O55: a BusError is no IllegalOpcode, so it is a refused access. -/
theorem busErrorNamesARefusedAccess : Obligations.BusErrorNamesARefusedAccess := by
  intro s t a dir h
  rcases step_fault h with ⟨a', dir', t', hbus, hread, hwrite⟩ | ⟨op, u, hillegal⟩
  · cases hbus
    exact ⟨hread, hwrite⟩
  · cases hillegal

/-! ### A bus that refuses nothing -/

/-- RAM takes every read and every write, whatever was accessed before. -/
theorem Bus.Flat.neverRefuses {b : Bus} (h : b.Flat) : b.NeverRefuses := by
  intro mem events a v later
  have hk : later.kindAt a = .ram := h a
  rw [Bus.read_stored (.inl hk), Bus.write_ram hk]
  exact ⟨nofun, nofun⟩

/-- The bus of `t` is that of `s` after further accesses. -/
def LaterBus (s t : State) : Prop := t.bus.map = s.bus.map ∧ ∃ events, t.bus.log = events ++ s.bus.log

theorem LaterBus.refl (s : State) : LaterBus s s := ⟨rfl, [], rfl⟩

/-- Where the bus refuses nothing, a later state is no place for a refused access. -/
theorem not_isRefusedAccess_of_later {s : State} {f : Fault} (hs : s.bus.NeverRefuses) (h : LaterBus s f.left) :
    ¬ IsRefusedAccess f := by
  rintro ⟨a, dir, t, rfl, hread, hwrite⟩
  obtain ⟨hmap, events, hlog⟩ := h
  have haccess (v : Byte) : t.bus.read a ≠ none ∧ t.bus.write a v ≠ none := by
    have hlater : t.bus = { mem := t.bus.mem, map := s.bus.map, log := events ++ s.bus.log } := by
      rw [← hmap, ← hlog]
      rfl
    rw [hlater]
    exact hs t.bus.mem events a v
  cases dir with
  | read => exact (haccess 0).1 (hread rfl)
  | write =>
    obtain ⟨v, hv⟩ := hwrite rfl
    exact (haccess v).2 hv

/-- A result is a next state or an error, and what holds of its end holds of the state it leaves. -/
theorem next_or_fault_of_resultEnds {Q : State → Prop} {r : Result} (h : resultEnds Q r) :
    (∃ t, r = .next t) ∨ ∃ f, r = .fault f ∧ Q f.left := by
  cases r with
  | next t => exact .inl ⟨t, rfl⟩
  | fault f => exact .inr ⟨f, rfl, h⟩
  | refused _ => exact h.elim

/-- Settles O56: every fault of an instruction is a refused access, and of a dispatch that or an illegal opcode. -/
theorem everyInstructionCompletesOnFlatMemory : Obligations.EveryInstructionCompletesOnFlatMemory := by
  refine ⟨fun b => Bus.Flat.neverRefuses, fun s hs => ⟨fun i => ?_, ?_⟩⟩
  · have hends : resultEnds (LaterBus s) (exec i s) := exec_ends (keepsMapExtendsLog i s) (.refl s)
    rcases next_or_fault_of_resultEnds hends with hnext | ⟨f, hf, hlater⟩
    · exact hnext
    · exact absurd (exec_fault hf) (not_isRefusedAccess_of_later hs hlater)
  · have hends : resultEnds (LaterBus s) (step s) := step_ends (keepsMapExtendsLog · s) (fun _ _ h => h) (.refl s)
    rcases next_or_fault_of_resultEnds hends with hnext | ⟨f, hf, hlater⟩
    · exact .inl hnext
    · rcases step_fault hf with hrefused | ⟨op, t, rfl⟩
      · exact absurd hrefused (not_isRefusedAccess_of_later hs hlater)
      · exact .inr ⟨op, t, hf⟩

end Sys2Proof.Machine
end

section
/-! PROOFS. `create()` and `destroy()` (70_reset_and_hazards.md R260, R261). -/

namespace Sys2Proof.Machine

/-- Settles O51: the created state is written out with every register zero. -/
theorem createZeroesEveryRegister : Obligations.CreateZeroesEveryRegister := fun cfg bus =>
  ⟨State.create cfg bus, rfl, rfl, rfl, rfl, rfl, rfl, rfl, rfl, rfl⟩

/-- Settles O53: `create()` is the one call that an absent session answers. -/
theorem nothingRunsAfterDestroy : Obligations.NothingRunsAfterDestroy := by
  refine fun s c => ⟨rfl, fun hcreate => ?_⟩
  cases c with
  | create cfg bus => exact absurd rfl (hcreate cfg bus)
  | destroy | dispatch | setFlag | getFlag | read | readPc => rfl

end Sys2Proof.Machine
end
